-- ==== Sys2Proof/Word.lean ====
section
/-! DEFINITION. The data of the block: 32-bit register words, binary64 patterns, complex words
(spec 10_state.md R11, R16). -/

namespace Sys2Proof

/-- A control register's content, and one word of a command image (R11, R13). -/
abbrev Word := BitVec 32

/-- A binary64 bit pattern (R16). Every one of the 2^64 patterns is legal. -/
abbrev F64 := BitVec 64

/-- One byte of a platform's byte-addressed bus (R42); no byte is addressable inside the block. -/
abbrev Byte := BitVec 8

/-- A complex word: one word of DMEM (R16). -/
structure CWord where
  re : F64
  im : F64
  deriving DecidableEq, Repr, Inhabited

/-- `ZERO = (+0.0, +0.0)` (00_scope.md section 5). -/
def CWord.zero : CWord := ⟨0#64, 0#64⟩

end Sys2Proof
end

