-- ==== Sys2Proof/Syntax.lean ====
section
/-! DEFINITION. The commands of the block with their operands (30_encoding.md R51, R52, R53, R59).
An instruction is a command word together with the operands latched with it (00_scope.md glossary,
"Command"); an operand is a natural number (R1, R51). -/

namespace Sys2Proof

/-- The values of `P1..P7` (R11), or their latched copy (R13). -/
structure Params where
  p1 : Word
  p2 : Word
  p3 : Word
  p4 : Word
  p5 : Word
  p6 : Word
  p7 : Word
  deriving DecidableEq, Repr

/-- All seven registers zero. -/
def Params.zero : Params := ⟨0#32, 0#32, 0#32, 0#32, 0#32, 0#32, 0#32⟩

/-- The 8-word command image `[CMDW, P1, ..., P7]` (R59), as the block latches it (R13). -/
structure Image where
  cmd : Word
  p : Params
  deriving DecidableEq, Repr

/-- The 21 commands (R52), operands in the order of the registers that hold them (R51), the flag of R53
first. `CSCALE`'s factor is the 64-bit pattern R58 assembles from two registers; `OLASEL`'s taper
address is there exactly when the flag `TAPER` is set (R152). -/
inductive Instr where
  /-- R165 -/
  | nop
  /-- R79 -/
  | cadd (dst a b : Nat)
  /-- R80 -/
  | csub (dst a b : Nat)
  /-- R81 -/
  | cmul (dst a b : Nat)
  /-- R82 -/
  | cdiv (dst a b : Nat)
  /-- R83 -/
  | cconj (dst a : Nat)
  /-- R84 -/
  | cscale (dst a : Nat) (factor : F64)
  /-- R93; `inv` is the flag `INV` -/
  | basis (inv : Bool) (dst period size : Nat)
  /-- R101 -/
  | bitrev (data len : Nat)
  /-- R102 -/
  | bfly (data roots len depth : Nat)
  /-- R104; `norm` is the flag `NORM` -/
  | fft (norm : Bool) (data roots len : Nat)
  /-- R103 -/
  | norm (data len : Nat)
  /-- R125 -/
  | flow (src dst h w t1 : Nat)
  /-- R126; `pm` is the flag `PM` -/
  | fhigh (pm : Bool) (src dst h w t1 : Nat)
  /-- R127 -/
  | fbpass (src dst h w t1 t2 : Nat)
  /-- R128 -/
  | fbstop (src dst h w t1 t2 : Nat)
  /-- R129 -/
  | fdir (src dst h w t1 t2 cfg : Nat)
  /-- R141; `cj` is the flag `CJ` -/
  | spmul (cj : Bool) (dst a b n : Nat)
  /-- R151 -/
  | olaclr (dst n : Nat)
  /-- R152; `taper` is `some` exactly with the flag `TAPER` -/
  | olasel (dst sig n off winLen padLen : Nat) (taper : Option Nat)
  /-- R153; `re` is the flag `RE` -/
  | olaacc (re : Bool) (dst src n : Nat)
  deriving DecidableEq, Repr

end Sys2Proof
end

