-- ==== Sys2Proof/WellFormed.lean ====
section
/-! DEFINITION. Which terms of `Instr` a command image can hold: every operand is a 32-bit unsigned
number (30_encoding.md R51). -/

namespace Sys2Proof

/-- The operands held in one register each, in ascending register number (R51, R56). -/
def Instr.operands : Instr → List Nat
  | .nop => []
  | .cadd dst a b | .csub dst a b | .cmul dst a b | .cdiv dst a b => [dst, a, b]
  | .cconj dst a => [dst, a]
  | .cscale dst a _ => [dst, a]
  | .basis _ dst period size => [dst, period, size]
  | .bitrev data len | .norm data len => [data, len]
  | .bfly data roots len depth => [data, roots, len, depth]
  | .fft _ data roots len => [data, roots, len]
  | .flow src dst h w t1 | .fhigh _ src dst h w t1 => [src, dst, h, w, t1]
  | .fbpass src dst h w t1 t2 | .fbstop src dst h w t1 t2 => [src, dst, h, w, t1, t2]
  | .fdir src dst h w t1 t2 cfg => [src, dst, h, w, t1, t2, cfg]
  | .spmul _ dst a b n => [dst, a, b, n]
  | .olaclr dst n => [dst, n]
  | .olasel dst sig n off winLen padLen none => [dst, sig, n, off, winLen, padLen]
  | .olasel dst sig n off winLen padLen (some taper) => [dst, sig, n, off, winLen, padLen, taper]
  | .olaacc _ dst src n => [dst, src, n]

/-- A register can hold the number (R11, R51). -/
def fitsRegister (n : Nat) : Bool := n < 2 ^ 32

/-- Every operand fits its register. `CSCALE`'s factor always does (R58). -/
def Instr.wellFormed (i : Instr) : Bool := i.operands.all fitsRegister

end Sys2Proof
end

