-- ==== Sys2Proof/Decode.lean ====
section
/-! DEFINITION. The decoder, total on all command images, and after it the encoder (30_encoding.md R50 to
R54, R58, R59). The opcode table is the spec's own list of match and mask (R52). -/

namespace Sys2Proof

/-! ## The fields of a command word (R50) -/

/-- Bits 7:0. -/
def opcodeField (w : Word) : BitVec 8 := w.extractLsb' 0 8

/-- Bit 8, the command's one flag. -/
def flagField (w : Word) : Bool := w.getLsbD 8

/-- Bits 31:9, reserved. -/
def reservedField (w : Word) : BitVec 23 := w.extractLsb' 9 23

/-! ## Operands from registers (R51, R58) -/

/-- `zext`: a register value as a natural number (00_scope.md section 5). -/
def zext (w : Word) : Nat := w.toNat

/-- The scale factor: `P4` holds bits 63:32 of the pattern and `P3` bits 31:0 (R58). -/
def factorOf (p3 p4 : Word) : F64 := p4 ++ p3

/-! ## The opcode table (R52) -/

/-- One row of R52: a word `w` selects the command when `w AND mask = pattern`. `build` reads the operands
(R51) and the flag (R53). -/
structure OpcodeRow where
  mnemonic : String
  pattern : Word
  mask : Word
  build : Bool → Params → Instr

/-- A command without a flag: every bit of the word is fixed. -/
def plainRow (mnemonic : String) (pattern : Word) (build : Params → Instr) : OpcodeRow :=
  ⟨mnemonic, pattern, 0xFFFFFFFF#32, fun _ p => build p⟩

/-- A command with a flag at bit 8. -/
def flaggedRow (mnemonic : String) (pattern : Word) (build : Bool → Params → Instr) : OpcodeRow :=
  ⟨mnemonic, pattern, 0xFFFFFEFF#32, build⟩

/-- R52, opcode[7:4] = 0x0. -/
def arithmeticRows : List OpcodeRow := [
  plainRow "NOP" 0x00000000#32 fun _ => .nop,
  plainRow "CADD" 0x00000001#32 fun p => .cadd (zext p.p1) (zext p.p2) (zext p.p3),
  plainRow "CSUB" 0x00000002#32 fun p => .csub (zext p.p1) (zext p.p2) (zext p.p3),
  plainRow "CMUL" 0x00000003#32 fun p => .cmul (zext p.p1) (zext p.p2) (zext p.p3),
  plainRow "CDIV" 0x00000004#32 fun p => .cdiv (zext p.p1) (zext p.p2) (zext p.p3),
  plainRow "CCONJ" 0x00000005#32 fun p => .cconj (zext p.p1) (zext p.p2),
  plainRow "CSCALE" 0x00000006#32 fun p => .cscale (zext p.p1) (zext p.p2) (factorOf p.p3 p.p4)]

/-- R52, opcode[7:4] = 0x1 and 0x2. -/
def transformRows : List OpcodeRow := [
  flaggedRow "BASIS" 0x00000010#32 fun f p => .basis f (zext p.p1) (zext p.p2) (zext p.p3),
  plainRow "BITREV" 0x00000020#32 fun p => .bitrev (zext p.p1) (zext p.p3),
  plainRow "BFLY" 0x00000021#32 fun p => .bfly (zext p.p1) (zext p.p2) (zext p.p3) (zext p.p4),
  flaggedRow "FFT" 0x00000022#32 fun f p => .fft f (zext p.p1) (zext p.p2) (zext p.p3),
  plainRow "NORM" 0x00000023#32 fun p => .norm (zext p.p1) (zext p.p3)]

/-- R52, opcode[7:4] = 0x3. -/
def filterRows : List OpcodeRow := [
  plainRow "FLOW" 0x00000030#32 fun p =>
    .flow (zext p.p1) (zext p.p2) (zext p.p3) (zext p.p4) (zext p.p5),
  flaggedRow "FHIGH" 0x00000031#32 fun f p =>
    .fhigh f (zext p.p1) (zext p.p2) (zext p.p3) (zext p.p4) (zext p.p5),
  plainRow "FBPASS" 0x00000032#32 fun p =>
    .fbpass (zext p.p1) (zext p.p2) (zext p.p3) (zext p.p4) (zext p.p5) (zext p.p6),
  plainRow "FBSTOP" 0x00000033#32 fun p =>
    .fbstop (zext p.p1) (zext p.p2) (zext p.p3) (zext p.p4) (zext p.p5) (zext p.p6),
  plainRow "FDIR" 0x00000034#32 fun p =>
    .fdir (zext p.p1) (zext p.p2) (zext p.p3) (zext p.p4) (zext p.p5) (zext p.p6) (zext p.p7)]

/-- R52, opcode[7:4] = 0x4 and 0x5. -/
def convolutionRows : List OpcodeRow := [
  flaggedRow "SPMUL" 0x00000040#32 fun f p =>
    .spmul f (zext p.p1) (zext p.p2) (zext p.p3) (zext p.p4),
  plainRow "OLACLR" 0x00000050#32 fun p => .olaclr (zext p.p1) (zext p.p2),
  flaggedRow "OLASEL" 0x00000051#32 fun f p =>
    .olasel (zext p.p1) (zext p.p2) (zext p.p3) (zext p.p4) (zext p.p5) (zext p.p6)
      (if f then some (zext p.p7) else none),
  flaggedRow "OLAACC" 0x00000052#32 fun f p => .olaacc f (zext p.p1) (zext p.p2) (zext p.p3)]

/-- The 21 rows of R52. -/
def opcodeTable : List OpcodeRow :=
  arithmeticRows ++ transformRows ++ filterRows ++ convolutionRows

/-- "A word `w` selects the command when `w AND mask = match`" (R52). -/
def OpcodeRow.selects (r : OpcodeRow) (w : Word) : Bool := w &&& r.mask == r.pattern

/-- The row a command word selects; the patterns are pairwise exclusive (R52). -/
def rowOf (w : Word) : Option OpcodeRow := opcodeTable.find? (·.selects w)

/-! ## Decoding -/

/-- Why a command word is illegal (R54). -/
inductive Illegal where
  /-- one of bits 31:9 is set -/
  | reservedBits
  /-- bit 8 is set on a command that has no flag -/
  | flagWithoutMeaning
  /-- the opcode byte is not in the table -/
  | unassignedOpcode
  deriving DecidableEq, Repr

/-- The reason R54 gives for a word that matches no row. -/
def illegalReason (w : Word) : Illegal :=
  if reservedField w ≠ 0#23 then .reservedBits
  else if opcodeTable.any (fun r => opcodeField r.pattern == opcodeField w) then .flagWithoutMeaning
  else .unassignedOpcode

/-- The decoder: one of the 21 commands, or illegal by name (R54). -/
def decode (m : Image) : Except Illegal Instr :=
  match rowOf m.cmd with
  | some r => .ok (r.build (flagField m.cmd) m.p)
  | none => .error (illegalReason m.cmd)

/-- The image whose words are the 32-bit groups of a number, the first word lowest; no bit above `nbits`. -/
def Image.ofTableWord (nbits w : Nat) : Image :=
  let v := w % 2 ^ nbits
  let word (k : Nat) : Word := BitVec.ofNat 32 (v >>> (32 * k))
  ⟨word 0, ⟨word 1, word 2, word 3, word 4, word 5, word 6, word 7⟩⟩

/-- The instruction the decoder reads from a word numbered as spec/opcode_table.json numbers it; the
operand words, which the table gives no bits, are zero. -/
def decodeTableWord (nbits w : Nat) : Option Instr :=
  match decode (Image.ofTableWord nbits w) with
  | .ok i => some i
  | .error _ => none

/-! ## Encoding -/

/-- The opcode byte of a command (R51). -/
def Instr.opcode : Instr → Nat
  | .nop => 0x00
  | .cadd .. => 0x01
  | .csub .. => 0x02
  | .cmul .. => 0x03
  | .cdiv .. => 0x04
  | .cconj .. => 0x05
  | .cscale .. => 0x06
  | .basis .. => 0x10
  | .bitrev .. => 0x20
  | .bfly .. => 0x21
  | .fft .. => 0x22
  | .norm .. => 0x23
  | .flow .. => 0x30
  | .fhigh .. => 0x31
  | .fbpass .. => 0x32
  | .fbstop .. => 0x33
  | .fdir .. => 0x34
  | .spmul .. => 0x40
  | .olaclr .. => 0x50
  | .olasel .. => 0x51
  | .olaacc .. => 0x52

/-- The flag `F` of a command (R53); false where the command has none. -/
def Instr.flag : Instr → Bool
  | .basis f _ _ _ | .fft f _ _ _ | .fhigh f _ _ _ _ _ | .spmul f _ _ _ _ | .olaacc f _ _ _ => f
  | .olasel _ _ _ _ _ _ taper => taper.isSome
  | .nop | .cadd .. | .csub .. | .cmul .. | .cdiv .. | .cconj .. | .cscale .. | .bitrev .. | .bfly ..
  | .norm .. | .flow .. | .fbpass .. | .fbstop .. | .fdir .. | .olaclr .. => false

/-- `CMDW = opcode + 256 * F` (R56). -/
def Instr.cmdw (i : Instr) : Word := BitVec.ofNat 32 (i.opcode + 256 * i.flag.toNat)

/-- The registers a command reads, in ascending number, each with its value (R51, R56). -/
def Instr.usedRegisters : Instr → List (Nat × Word)
  | .nop => []
  | .cadd dst a b | .csub dst a b | .cmul dst a b | .cdiv dst a b =>
    [(1, BitVec.ofNat 32 dst), (2, BitVec.ofNat 32 a), (3, BitVec.ofNat 32 b)]
  | .cconj dst a => [(1, BitVec.ofNat 32 dst), (2, BitVec.ofNat 32 a)]
  | .cscale dst a factor =>
    [(1, BitVec.ofNat 32 dst), (2, BitVec.ofNat 32 a), (3, factor.extractLsb' 0 32),
     (4, factor.extractLsb' 32 32)]
  | .basis _ dst period size =>
    [(1, BitVec.ofNat 32 dst), (2, BitVec.ofNat 32 period), (3, BitVec.ofNat 32 size)]
  | .bitrev data len | .norm data len => [(1, BitVec.ofNat 32 data), (3, BitVec.ofNat 32 len)]
  | .bfly data roots len depth =>
    [(1, BitVec.ofNat 32 data), (2, BitVec.ofNat 32 roots), (3, BitVec.ofNat 32 len),
     (4, BitVec.ofNat 32 depth)]
  | .fft _ data roots len =>
    [(1, BitVec.ofNat 32 data), (2, BitVec.ofNat 32 roots), (3, BitVec.ofNat 32 len)]
  | .flow src dst h w t1 | .fhigh _ src dst h w t1 =>
    [(1, BitVec.ofNat 32 src), (2, BitVec.ofNat 32 dst), (3, BitVec.ofNat 32 h),
     (4, BitVec.ofNat 32 w), (5, BitVec.ofNat 32 t1)]
  | .fbpass src dst h w t1 t2 | .fbstop src dst h w t1 t2 =>
    [(1, BitVec.ofNat 32 src), (2, BitVec.ofNat 32 dst), (3, BitVec.ofNat 32 h),
     (4, BitVec.ofNat 32 w), (5, BitVec.ofNat 32 t1), (6, BitVec.ofNat 32 t2)]
  | .fdir src dst h w t1 t2 cfg =>
    [(1, BitVec.ofNat 32 src), (2, BitVec.ofNat 32 dst), (3, BitVec.ofNat 32 h),
     (4, BitVec.ofNat 32 w), (5, BitVec.ofNat 32 t1), (6, BitVec.ofNat 32 t2),
     (7, BitVec.ofNat 32 cfg)]
  | .spmul _ dst a b n =>
    [(1, BitVec.ofNat 32 dst), (2, BitVec.ofNat 32 a), (3, BitVec.ofNat 32 b),
     (4, BitVec.ofNat 32 n)]
  | .olaclr dst n => [(1, BitVec.ofNat 32 dst), (2, BitVec.ofNat 32 n)]
  | .olasel dst sig n off winLen padLen taper =>
    [(1, BitVec.ofNat 32 dst), (2, BitVec.ofNat 32 sig), (3, BitVec.ofNat 32 n),
     (4, BitVec.ofNat 32 off), (5, BitVec.ofNat 32 winLen), (6, BitVec.ofNat 32 padLen)] ++
    (match taper with
      | some t => [(7, BitVec.ofNat 32 t)]
      | none => [])
  | .olaacc _ dst src n =>
    [(1, BitVec.ofNat 32 dst), (2, BitVec.ofNat 32 src), (3, BitVec.ofNat 32 n)]

/-- `Pn <- v` for `1 <= n <= 7`; no effect for any other number (R31). -/
def Params.set (p : Params) (n : Nat) (v : Word) : Params :=
  match n with
  | 1 => { p with p1 := v }
  | 2 => { p with p2 := v }
  | 3 => { p with p3 := v }
  | 4 => { p with p4 := v }
  | 5 => { p with p5 := v }
  | 6 => { p with p6 := v }
  | 7 => { p with p7 := v }
  | _ => p

/-- Write a list of registers, the first first. -/
def Params.setAll (p : Params) : List (Nat × Word) → Params
  | [] => p
  | (n, v) :: rest => (p.set n v).setAll rest

/-- The command image of an instruction (R59), with the registers it does not read as in `rest`. -/
def encodeWith (rest : Params) (i : Instr) : Image := ⟨i.cmdw, rest.setAll i.usedRegisters⟩

/-- The command image of an instruction, zero in the registers it does not read (R59 leaves them open). -/
def encode (i : Instr) : Image := encodeWith .zero i

end Sys2Proof
end

