-- ==== Sys2Proof/Config.lean ====
section
/-! DEFINITION. What is fixed for one block and left open by the spec (10_state.md R25, 92 section 9):
the constants of a block instance and the free values. The machine uses `Config.block`. Its parts have no
body, so nothing can be proved of a value they hold and a claim holds whatever they are; only the size of
DMEM is a number, that of the spec's test vectors (log 8). -/

namespace Sys2Proof

/-- The four binary64 operations that can return a NaN (R70). -/
inductive FOp where
  | add | sub | mul | div
  deriving DecidableEq, Repr

/-- The two antipodal pairs of the directional filter (R129). -/
inductive QuadrantPair where
  | a | b
  deriving DecidableEq, Repr

/-- The open values of the arithmetic during ONE command: which NaN an operation returns (R71, U3) and
what a complex division by a zero magnitude gives (R75, U2). -/
structure Fpu where
  nan : FOp → F64 → F64 → F64
  quotientByZero : CWord → CWord → CWord

/-- One instance of the block (R25): the open parameters of 92 section 9 and the free values of 93. -/
structure BlockConfig where
  /-- The last address of DMEM: `DMEM_WORDS = lastAddress + 1`, so `1 <= DMEM_WORDS <= 2^32` (R16, U6). -/
  lastAddress : BitVec 32
  /-- `TW(inv, period, k)` (R90, R91): the content of the twiddle ROM. -/
  tw : Bool → Nat → Nat → CWord
  /-- `DIR_PRED(pair, dy, dx, dir, half)` (R131). -/
  dirPred : QuadrantPair → Nat → Nat → F64 → F64 → Bool
  /-- `NAN_POLICY` (R71): the pattern proposed for a NaN result of the `k`-th command run. -/
  nan : Nat → FOp → F64 → F64 → F64
  /-- The word `CDIV` writes for a zero-magnitude divisor in the `k`-th command run (R75, U2). -/
  quotientByZero : Nat → CWord → CWord → CWord
  /-- What an address not written since the `e`-th reset reads as (R24, R195, U1). -/
  unwritten : Nat → Nat → CWord

/-- `DMEM_WORDS` (R16). -/
def BlockConfig.dmemWords (c : BlockConfig) : Nat := c.lastAddress.toNat + 1

/-- The open values the arithmetic sees during the `k`-th command run. -/
def BlockConfig.fpu (c : BlockConfig) (k : Nat) : Fpu := ⟨c.nan k, c.quotientByZero k⟩

/-- OPEN (U6): `DMEM_WORDS = 65536`, the instance of the spec's test vectors. DESIGN CHOICE, log 8. -/
def Config.lastAddress : BitVec 32 := 65535#32

/-- OPEN (U4): the twiddle ROM of this block. Log 9. -/
opaque Config.tw : Bool → Nat → Nat → CWord

/-- OPEN (U5): the angular predicate of this block. Log 10. -/
opaque Config.dirPred : QuadrantPair → Nat → Nat → F64 → F64 → Bool

/-- FREE (U3): NaN patterns. Log 11. -/
opaque Config.nan : Nat → FOp → F64 → F64 → F64

/-- FREE (U2): division by a zero magnitude. Log 12. -/
opaque Config.quotientByZero : Nat → CWord → CWord → CWord

/-- FREE (U1): DMEM words not written since reset. Log 6. -/
opaque Config.unwritten : Nat → Nat → CWord

/-- The block the machine models. -/
def Config.block : BlockConfig where
  lastAddress := Config.lastAddress
  tw := Config.tw
  dirPred := Config.dirPred
  nan := Config.nan
  quotientByZero := Config.quotientByZero
  unwritten := Config.unwritten

end Sys2Proof
end

