-- ==== Sys2Proof/Machine/State.lean ====
section
/-! DEFINITION. The state of the block (10_state.md R10), with the host's transactions to come and the
values it has been given; what a step may answer besides a next state; the state after reset. -/

namespace Sys2Proof.Machine

/-- The contents of DMEM (R16); its size is a constant of the block (R25) and stands in `BlockConfig`. The
listed words, each with its address, are those written since the last reset. A word not listed is
unspecified (R24, R195): it reads as the block's free value for this address and for `epoch`, the number of
resets so far (log 6). -/
structure Memory where
  epoch : Nat
  cells : List (Nat × CWord)
  deriving DecidableEq, Repr

/-- The five transactions of the host port (R30). Numbers are naturals, so that a register number above
15 and an address beyond DMEM can be named (R36). -/
inductive Transaction where
  /-- R31 -/
  | regWrite (n : Nat) (v : Word)
  /-- R32 -/
  | regRead (n : Nat)
  /-- R34 -/
  | memWrite (a : Nat) (re im : F64)
  /-- R35 -/
  | memRead (a : Nat)
  /-- R190 -/
  | reset
  deriving DecidableEq, Repr

/-- A transaction the host will issue. `early` says that the host issues it before the core completes a
command in progress, if the transaction is one that is answered then (R33); it is the environment's
choice of who moves first (R197, U7; log 2) and means nothing while no command is in progress. -/
structure HostAct where
  txn : Transaction
  early : Bool
  deriving DecidableEq, Repr

/-- A value a transaction returned to the host (R32, R35). -/
inductive Reply where
  | register (v : Word)
  | memory (re im : F64)
  deriving DecidableEq, Repr

/-- The named errors of R171. -/
inductive ErrorCode where
  /-- R173 -/
  | invalidLength
  /-- R172: reserved, never raised -/
  | dimensionMismatch
  /-- R172: reserved, never raised -/
  | emptyInput
  /-- R174 -/
  | illegalCommand
  /-- R179 -/
  | badOperand
  /-- R176 -/
  | addrRange
  /-- R178 -/
  | overlap
  deriving DecidableEq, Repr

/-- `raise E(info)` (00_scope.md section 5): the error and the number of the register it names (R177). -/
structure Rejection where
  error : ErrorCode
  info : BitVec 3
  deriving DecidableEq, Repr

/-- One check of a command: whether it passes, and the rejection it raises if not (R175). -/
structure Check where
  passes : Bool
  rejection : Rejection
  deriving DecidableEq, Repr

/-- The state: the architectural state of R10, then the model's own fields. -/
structure State where
  /-- `P1..P7` (R11) -/
  params : Params
  /-- the latched command `LC` (R13) -/
  latch : Image
  /-- `STATUS.BUSY` (R17) -/
  busy : Bool
  /-- `STATUS.ERR` (R17) -/
  err : Bool
  /-- `ERRCODE[7:0]` (R21) -/
  errCode : BitVec 8
  /-- `ERRINFO[2:0]` (R21) -/
  errInfo : BitVec 3
  /-- `ERRCMD` (R21) -/
  errCmd : Word
  /-- `DMEM` (R16) -/
  dmem : Memory
  /-- the model's own: how many commands have run, the argument of the free values (log 7) -/
  draws : Nat
  /-- the model's own: the host's transactions to come, the next one first (log 2) -/
  host : List HostAct
  /-- the model's own: the values returned to the host, the oldest first (R199; log 3) -/
  replies : List Reply
  deriving DecidableEq, Repr

/-- What stops the machine with a fault: nothing. The block has one kind of event, the rejection of a
command (R170), which is a next state; it never halts (R199) and every accepted command completes
(R198). Safe: no claim can rest on a fault. -/
inductive Fault where
  deriving DecidableEq, Repr

/-- What a step has no meaning for. -/
inductive Refusal where
  /-- raised by an arm of `exec` that has no meaning yet; safe -/
  | notModelled (mnemonic : String)
  /-- raised by the host port for `RegWrite` or `RegRead` with a register number above 15: the bus error of
  R36, which gives such a transaction no step; safe (log 5) -/
  | noSuchRegister (n : Nat)
  /-- raised by the host port for `HostMemWrite` or `HostMemRead` at or above `DMEM_WORDS`: the bus error of
  R36, which gives such a transaction no step; safe (log 5) -/
  | noSuchAddress (a : Nat)
  deriving DecidableEq, Repr

/-- What one step answers. -/
abbrev Outcome := Host.Outcome State Fault Refusal

/-- The state right after reset (R24, R190): every register zero, the block IDLE, no word of DMEM written;
the model's own counters zero (logs 6, 7), no transaction to come and no value returned (logs 2, 3). -/
def State.reset : State where
  params := Params.zero
  latch := ⟨0#32, Params.zero⟩
  busy := false
  err := false
  errCode := 0#8
  errInfo := 0#3
  errCmd := 0#32
  dmem := ⟨0, []⟩
  draws := 0
  host := []
  replies := []

end Sys2Proof.Machine
end

