-- ==== Sys2Proof/Machine/Ops.lean ====
section
/-! DEFINITION. The shared operations: DMEM (00_scope.md section 5, 20_memory.md), loops, the latch of a
command (10_state.md R18), its completion (R19), the rejection (60_exceptions.md R177) and the return
from it (R180). -/

namespace Sys2Proof.Machine

/-! ## DMEM -/

/-- The content listed for an address. -/
def lookupCell (a : Nat) : List (Nat × CWord) → Option CWord
  | [] => none
  | (b, z) :: rest => if a = b then some z else lookupCell a rest

/-- Put a word at its place in a list of rising addresses. -/
def insertCell (a : Nat) (z : CWord) : List (Nat × CWord) → List (Nat × CWord)
  | [] => [(a, z)]
  | (b, y) :: rest =>
    if a < b then (a, z) :: (b, y) :: rest
    else if a = b then (a, z) :: rest
    else (b, y) :: insertCell a z rest

/-- The addresses of a list of cells rise strictly. -/
def rising : List (Nat × CWord) → Bool
  | [] => true
  | [_] => true
  | (a, _) :: (b, z) :: rest => decide (a < b) && rising ((b, z) :: rest)

/-- The canonical form of a memory: strictly rising addresses, so equal memories are equal lists. -/
def Memory.wf (m : Memory) : Bool := rising m.cells

/-- What an address not listed reads as: the block's free value for this address since this reset (R195). -/
def Memory.unlisted (c : BlockConfig) (m : Memory) (a : Nat) : CWord := c.unwritten m.epoch a

/-- `MemRead(a, 1)`: the word `DMEM[a]`. -/
def Memory.read (c : BlockConfig) (m : Memory) (a : Nat) : CWord :=
  (lookupCell a m.cells).getD (m.unlisted c a)

/-- `MemWrite(a, 1, z)`: the whole word in one step (R37). -/
def Memory.write (m : Memory) (a : Nat) (z : CWord) : Memory :=
  { m with cells := insertCell a z m.cells }

/-- DMEM after a reset: no word of it is specified (R190). -/
def Memory.forget (m : Memory) : Memory := ⟨m.epoch + 1, []⟩

/-- `for i in 0 .. n - 1: body` (00_scope.md section 5). -/
def forUp : Nat → (Nat → Memory → Memory) → Memory → Memory
  | 0, _, m => m
  | n + 1, body, m => body n (forUp n body m)

/-- `MemWrite(a, n, v)`: `DMEM[a + j] <- v[j]` for `0 <= j < n`, all of `v` known beforehand. -/
def Memory.store (m : Memory) (a n : Nat) (v : Nat → CWord) : Memory :=
  forUp n (fun j m' => m'.write (a + j) (v j)) m

/-- `DMEM[a]` of a state of the block. -/
def State.word (s : State) (a : Nat) : CWord := s.dmem.read Config.block a

/-- The open values of the arithmetic for the command a state runs next. -/
def State.fpu (s : State) : Fpu := Config.block.fpu s.draws

/-! ## Rejection and return (60_exceptions.md section 4) -/

/-- The numbers of R171. -/
def ErrorCode.number : ErrorCode → BitVec 8
  | .invalidLength => 1#8
  | .dimensionMismatch => 2#8
  | .emptyInput => 3#8
  | .illegalCommand => 4#8
  | .badOperand => 5#8
  | .addrRange => 6#8
  | .overlap => 7#8

/-- Entry of a rejection (R177, R19): the code, the register named and the command word are saved, `ERR`
is set, `BUSY` cleared; DMEM and the parameter registers stay. -/
def State.reject (s : State) (r : Rejection) : State :=
  { s with
    errCode := r.error.number
    errInfo := r.info
    errCmd := s.latch.cmd
    err := true
    busy := false }

/-- Return from a rejection (R180, R22): `CTRL.CLRERR`. Nothing is re-executed. -/
def State.clearError (s : State) : State :=
  if s.err then { s with err := false, errCode := 0#8, errInfo := 0#3, errCmd := 0#32 } else s

/-! ## Acceptance and completion (10_state.md R18, R19) -/

/-- Acceptance of a write of `v` to `CMD` while `BUSY = 0` (R18): discarded while `ERR = 1`, else the eight
words are latched and `BUSY` is set. No check of `v`. -/
def State.accept (s : State) (v : Word) : State :=
  if s.err then s else { s with latch := ⟨v, s.params⟩, busy := true }

/-- The first check that fails decides the rejection; later checks are not evaluated (R175). -/
def firstFailure : List Check → Option Rejection
  | [] => none
  | k :: rest => if k.passes then firstFailure rest else some k.rejection

/-- What a command does: its checks in the order of R175 and its Operation on DMEM. -/
structure Meaning where
  checks : List Check
  operation : Memory → Memory

/-- A command whose checks all pass: DMEM is replaced by the result of its Operation and `BUSY` is cleared
(R19); the model's own counter of commands run advances (log 7). -/
def State.finish (s : State) (m : Memory) : State :=
  { s with dmem := m, busy := false, draws := s.draws + 1 }

/-- The completion step (R19): the checks, then either the rejection or the Operation. -/
def State.complete (s : State) (f : Meaning) : State :=
  match firstFailure f.checks with
  | some r => s.reject r
  | none => s.finish (f.operation s.dmem)

end Sys2Proof.Machine
end

