-- ==== Sys2Proof/Machine/Operands.lean ====
section
/-! DEFINITION. Operand forms: regions and their checks (00_scope.md R2, 60_exceptions.md R173 to R179),
powers of two and bit reversal (R3), the words as bits and as bytes of a platform's bus (10_state.md R16,
20_memory.md R42). -/

namespace Sys2Proof.Machine

/-! ## Regions (R2) -/

/-- `inrange(b, n)`: `b + n <= DMEM_WORDS`, in the naturals. -/
def inrange (words b n : Nat) : Bool := b + n ≤ words

/-- `reg(a, m)` and `reg(b, n)` overlap. -/
def overlaps (a m b n : Nat) : Bool := 0 < m && 0 < n && decide (a < b + n) && decide (b < a + m)

/-! ## Powers of two (R3) -/

/-- `pow2(L)`. -/
def pow2 (l : Nat) : Bool := l ≠ 0 && l &&& (l - 1) == 0

/-- `log2(L)`, for a power of two the exponent. -/
def log2 (l : Nat) : Nat := Nat.log2 l

/-- `rev_n(i)`: bit `n - 1 - b` of the result is bit `b` of `i`. -/
def rev : Nat → Nat → Nat
  | 0, _ => 0
  | n + 1, i => i % 2 * 2 ^ n + rev n (i / 2)

/-! ## Checks (R173 to R179) -/

/-- `pow2(P[i])` else `raise InvalidLength(i)` (R173). -/
def lengthCheck (l : Nat) (info : BitVec 3) : Check := ⟨pow2 l, ⟨.invalidLength, info⟩⟩

/-- `if bad then raise BadOperand(i)` (R179). -/
def operandCheck (bad : Bool) (info : BitVec 3) : Check := ⟨!bad, ⟨.badOperand, info⟩⟩

/-- `inrange(base, count)` else `raise AddrRange(i)`, `i` the register of the base (R176). -/
def rangeCheck (words base count : Nat) (info : BitVec 3) : Check :=
  ⟨inrange words base count, ⟨.addrRange, info⟩⟩

/-- The two regions must be disjoint, else `raise Overlap(i)` (R178). -/
def disjointCheck (a m b n : Nat) (info : BitVec 3) : Check :=
  ⟨!overlaps a m b n, ⟨.overlap, info⟩⟩

/-- Two regions of one length must be disjoint or have the same base, else `raise Overlap(i)` (R178). -/
def disjointOrSameCheck (a b n : Nat) (info : BitVec 3) : Check :=
  ⟨!(overlaps a n b n && a != b), ⟨.overlap, info⟩⟩

/-! ## Words as bits and bytes (R16, R42) -/

/-- The 128 bits of a complex word: `re` is bits 63:0, `im` bits 127:64 (R16). -/
def cwordBits (z : CWord) : BitVec 128 := z.im ++ z.re

/-- The complex word of 128 bits. -/
def cwordOfBits (v : BitVec 128) : CWord := ⟨v.extractLsb' 0 64, v.extractLsb' 64 64⟩

/-- A pattern of `8 * n` bits as `n` bytes, bits 7:0 at the lowest address (R42). -/
def littleEndian {w : Nat} (n : Nat) (v : BitVec w) : List Byte :=
  (List.range n).map fun k => v.extractLsb' (8 * k) 8

/-- The four bytes of a register value on a byte-addressed bus (R42). -/
def wordBytes (v : Word) : List Byte := littleEndian 4 v

/-- The sixteen bytes of a complex word on a byte-addressed bus: `re` low, `im` high (R42). -/
def complexBytes (z : CWord) : List Byte := littleEndian 8 z.re ++ littleEndian 8 z.im

/-- The number that bytes hold, the lowest address least significant (R42). -/
def fromLittleEndian : List Byte → Nat
  | [] => 0
  | b :: rest => b.toNat + 256 * fromLittleEndian rest

end Sys2Proof.Machine
end

