-- ==== Sys2Proof/Machine/Binary64.lean ====
section
/-! DEFINITION. IEEE 754 binary64 (40_complex_arithmetic.md R70, R71): every operation is the exact result
rounded once, to nearest, ties to even; subnormals kept; no fusing; no exception flag.

Every finite binary64 value is a whole number of UNITS of `2^-1074`, the smallest subnormal. A sum of two
values is a whole number of units and a product or a quotient a ratio of two naturals, so exact results
are naturals or ratios of naturals and ONE function rounds them. -/

namespace Sys2Proof.Machine

/-! ## The pattern's fields: sign bit 63, exponent 62:52, fraction 51:0 (93 part 2) -/

def signBit (x : F64) : Bool := x.getLsbD 63

def exponentField (x : F64) : Nat := (x.extractLsb' 52 11).toNat

def fractionField (x : F64) : Nat := (x.extractLsb' 0 52).toNat

def isNaN (x : F64) : Bool := exponentField x == 2047 && fractionField x != 0

def isInfinite (x : F64) : Bool := exponentField x == 2047 && fractionField x == 0

/-- Either zero. -/
def isZero (x : F64) : Bool := exponentField x == 0 && fractionField x == 0

/-- Neither NaN nor infinite. -/
def isFinite (x : F64) : Bool := exponentField x != 2047

/-- How many units make 1.0. -/
def unitsPerOne : Nat := 2 ^ 1074

/-- The magnitude of a finite value, in units. -/
def units (x : F64) : Nat :=
  if exponentField x = 0 then fractionField x else (2 ^ 52 + fractionField x) * 2 ^ (exponentField x - 1)

/-! ## Rounding (R70) -/

/-- The quotient of two naturals rounded to a natural, to nearest, ties to even. -/
def nearestEven (n d : Nat) : Nat :=
  let q := n / d
  let r := n % d
  if 2 * r < d then q else if d < 2 * r then q + 1 else q + q % 2

/-- The pattern, without its sign, of `n / d` units rounded to binary64 as if exponents were unbounded.
The result has 53 significant bits where it is at least `2^53` units (`shift` counts the units of its
last place as a power of two) and is a whole number of units below. -/
def roundUnits (n d : Nat) : Nat :=
  let shift := Nat.log2 (n / d) - 52
  shift * 2 ^ 52 + nearestEven n (d * 2 ^ shift)

/-- The pattern of the infinity, without its sign. -/
def infinityField : Nat := 2047 * 2 ^ 52

/-- A sign and a rounded magnitude as a pattern; what is above the largest finite value is infinite. -/
def pack (negative : Bool) (magnitude : Nat) : F64 :=
  BitVec.ofNat 64 (negative.toNat * 2 ^ 63 + min magnitude infinityField)

/-! ## NaN results (R71) -/

/-- The canonical quiet NaN, the default `NAN_POLICY`. -/
def canonicalNaN : F64 := 0x7FF8000000000000#64

/-- The pattern of a NaN result: what the block's policy proposes, if that is a NaN at all. -/
def nanResult (u : Fpu) (op : FOp) (x y : F64) : F64 :=
  if isNaN (u.nan op x y) then u.nan op x y else canonicalNaN

/-! ## The operations (R70 and its table) -/

/-- `fneg(x)`: the sign bit inverted, every other bit unchanged, for every `x`. -/
def fneg (x : F64) : F64 := x ^^^ 0x8000000000000000#64

/-- The sum of two finite values; a sum that is exactly zero is `+0.0` unless both are `-0.0`. -/
def addFinite (x y : F64) : F64 :=
  if signBit x = signBit y then pack (signBit x) (roundUnits (units x + units y) 1)
  else if units x = units y then pack false 0
  else if units y < units x then pack (signBit x) (roundUnits (units x - units y) 1)
  else pack (signBit y) (roundUnits (units y - units x) 1)

/-- `fadd(x, y)`. -/
def fadd (u : Fpu) (x y : F64) : F64 :=
  if isNaN x || isNaN y then nanResult u .add x y
  else if isInfinite x && isInfinite y && signBit x != signBit y then nanResult u .add x y
  else if isInfinite x then x
  else if isInfinite y then y
  else addFinite x y

/-- `fsub(x, y)`: `fadd(x, fneg(y))` for non-NaN `y`. -/
def fsub (u : Fpu) (x y : F64) : F64 :=
  if isNaN y then nanResult u .sub x y else fadd u x (fneg y)

/-- `fmul(x, y)`. -/
def fmul (u : Fpu) (x y : F64) : F64 :=
  let negative := signBit x != signBit y
  if isNaN x || isNaN y then nanResult u .mul x y
  else if isInfinite x && isZero y || isZero x && isInfinite y then nanResult u .mul x y
  else if isInfinite x || isInfinite y then pack negative infinityField
  else pack negative (roundUnits (units x * units y) unitsPerOne)

/-- `fdiv(x, y)`. -/
def fdiv (u : Fpu) (x y : F64) : F64 :=
  let negative := signBit x != signBit y
  if isNaN x || isNaN y then nanResult u .div x y
  else if isInfinite x && isInfinite y || isZero x && isZero y then nanResult u .div x y
  else if isInfinite x || isZero y then pack negative infinityField
  else if isInfinite y then pack negative 0
  else pack negative (roundUnits (units x * unitsPerOne) (units y))

end Sys2Proof.Machine
end

