-- ==== Sys2Proof/Machine/ComplexArithmetic.lean ====
section
/-! DEFINITION. The complex functions (40_complex_arithmetic.md R72 to R77) and the six scalar commands
`CADD`, `CSUB`, `CMUL`, `CDIV`, `CCONJ`, `CSCALE` (R78 to R84). -/

namespace Sys2Proof.Machine

/-! ## Complex functions -/

/-- R72 -/
def cadd (u : Fpu) (x y : CWord) : CWord := ⟨fadd u x.re y.re, fadd u x.im y.im⟩

/-- R73 -/
def csub (u : Fpu) (x y : CWord) : CWord := ⟨fsub u x.re y.re, fsub u x.im y.im⟩

/-- R74: four multiplications, one subtraction, one addition, six roundings. -/
def cmul (u : Fpu) (x y : CWord) : CWord :=
  ⟨fsub u (fmul u x.re y.re) (fmul u x.im y.im), fadd u (fmul u x.re y.im) (fmul u x.im y.re)⟩

/-- A value of magnitude zero: both components zero, of any sign (R75). -/
def zeroMagnitude (y : CWord) : Bool := isZero y.re && isZero y.im

/-- The formula of R75. -/
def quotient (u : Fpu) (x y : CWord) : CWord :=
  let den := fadd u (fmul u y.re y.re) (fmul u y.im y.im)
  ⟨fdiv u (fadd u (fmul u x.re y.re) (fmul u x.im y.im)) den,
   fdiv u (fsub u (fmul u x.im y.re) (fmul u x.re y.im)) den⟩

/-- R75; by a zero magnitude the result is any value (U2, log 12). -/
def cdiv (u : Fpu) (x y : CWord) : CWord :=
  if zeroMagnitude y then u.quotientByZero x y else quotient u x y

/-- R76 -/
def cconj (x : CWord) : CWord := ⟨x.re, fneg x.im⟩

/-- R77 -/
def cscale (u : Fpu) (x : CWord) (f : F64) : CWord := ⟨fmul u x.re f, fmul u x.im f⟩

/-! ## Common shape (R78) -/

/-- The checks of the forms with one source. -/
def oneSourceChecks (words dst a : Nat) : List Check :=
  [rangeCheck words dst 1 1, rangeCheck words a 1 2]

/-- The checks of the forms with two sources. -/
def twoSourceChecks (words dst a b : Nat) : List Check :=
  [rangeCheck words dst 1 1, rangeCheck words a 1 2, rangeCheck words b 1 3]

/-- A one-source form: `x <- MemRead(P[2], 1); MemWrite(P[1], 1, f(x))`. -/
def oneSource (c : BlockConfig) (f : CWord → CWord) (dst a : Nat) : Meaning where
  checks := oneSourceChecks c.dmemWords dst a
  operation m := m.write dst (f (m.read c a))

/-- A two-source form: all sources are read before `dst` is written. -/
def twoSource (c : BlockConfig) (f : CWord → CWord → CWord) (dst a b : Nat) : Meaning where
  checks := twoSourceChecks c.dmemWords dst a b
  operation m := m.write dst (f (m.read c a) (m.read c b))

/-! ## The commands, for any block `c` and any draw `k` -/

/-- R79 -/
def caddMeaning (c : BlockConfig) (k dst a b : Nat) : Meaning := twoSource c (cadd (c.fpu k)) dst a b

/-- R80 -/
def csubMeaning (c : BlockConfig) (k dst a b : Nat) : Meaning := twoSource c (csub (c.fpu k)) dst a b

/-- R81 -/
def cmulMeaning (c : BlockConfig) (k dst a b : Nat) : Meaning := twoSource c (cmul (c.fpu k)) dst a b

/-- R82: never rejected for its divisor. -/
def cdivMeaning (c : BlockConfig) (k dst a b : Nat) : Meaning := twoSource c (cdiv (c.fpu k)) dst a b

/-- R83 -/
def cconjMeaning (c : BlockConfig) (dst a : Nat) : Meaning := oneSource c cconj dst a

/-- R84 -/
def cscaleMeaning (c : BlockConfig) (k dst a : Nat) (factor : F64) : Meaning :=
  oneSource c (fun x => cscale (c.fpu k) x factor) dst a

/-! ## Their meanings on this block -/

def execCadd (dst a b : Nat) (s : State) : Outcome :=
  .next (s.complete (caddMeaning Config.block s.draws dst a b))

def execCsub (dst a b : Nat) (s : State) : Outcome :=
  .next (s.complete (csubMeaning Config.block s.draws dst a b))

def execCmul (dst a b : Nat) (s : State) : Outcome :=
  .next (s.complete (cmulMeaning Config.block s.draws dst a b))

def execCdiv (dst a b : Nat) (s : State) : Outcome :=
  .next (s.complete (cdivMeaning Config.block s.draws dst a b))

def execCconj (dst a : Nat) (s : State) : Outcome :=
  .next (s.complete (cconjMeaning Config.block dst a))

def execCscale (dst a : Nat) (factor : F64) (s : State) : Outcome :=
  .next (s.complete (cscaleMeaning Config.block s.draws dst a factor))

end Sys2Proof.Machine
end

