-- ==== Sys2Proof/Machine/Control.lean ====
section
/-! DEFINITION. `NOP` (46_control.md R165). -/

namespace Sys2Proof.Machine

/-- R165: no check, no effect on DMEM. -/
def nopMeaning : Meaning where
  checks := []
  operation m := m

def execNop (s : State) : Outcome := .next (s.complete nopMeaning)

end Sys2Proof.Machine
end

