-- ==== Sys2Proof/Machine/Convolution.lean ====
section
/-! DEFINITION. The convolution-theorem multiplier `SPMUL` (44_convolution_multiplier.md R140, R141). -/

namespace Sys2Proof.Machine

/-- One product, with the second factor conjugated under the flag `CJ` (R141). -/
def spectralProduct (u : Fpu) (cj : Bool) (x y : CWord) : CWord :=
  if cj then cmul u x (cconj y) else cmul u x y

/-- R141: both sources are read before anything is written. -/
def spmulMeaning (c : BlockConfig) (k : Nat) (cj : Bool) (dst a b n : Nat) : Meaning where
  checks := [rangeCheck c.dmemWords dst n 1, rangeCheck c.dmemWords a n 2, rangeCheck c.dmemWords b n 3,
    disjointOrSameCheck dst a n 2, disjointOrSameCheck dst b n 3]
  operation m :=
    m.store dst n fun j => spectralProduct (c.fpu k) cj (m.read c (a + j)) (m.read c (b + j))

def execSpmul (cj : Bool) (dst a b n : Nat) (s : State) : Outcome :=
  .next (s.complete (spmulMeaning Config.block s.draws cj dst a b n))

end Sys2Proof.Machine
end

