-- ==== Sys2Proof/Machine/FilterMask.lean ====
section
/-! DEFINITION. The spectral filter mask unit: `FLOW`, `FHIGH`, `FBPASS`, `FBSTOP`, `FDIR` (43_filter_mask.md
R120 to R131). No floating-point arithmetic: words are copied or replaced by `ZERO`. -/

namespace Sys2Proof.Machine

/-- A coordinate of a grid: row `y`, column `x` (R120). -/
abbrev Position := Nat × Nat

/-! ## Geometry (R121, R122) -/

/-- The reference origin along one dimension: `floor((n + 1) / 2)`. -/
def mid (n : Nat) : Nat := (n + 1) / 2

/-- `mirror = (n - y) mod n` along one dimension. -/
def mirror (n y : Nat) : Nat := (n - y) % n

/-- The scan region: `0 <= y <= yMid`, `0 <= x <= xMid`. -/
def scanned (h w : Nat) : List Position :=
  (List.range (mid h + 1)).flatMap fun y => (List.range (mid w + 1)).map fun x => (y, x)

/-- `distSq = dy^2 + dx^2` of a scanned coordinate. -/
def distSq (h w : Nat) (p : Position) : Nat := (mid h - p.1) ^ 2 + (mid w - p.2) ^ 2

/-- Pair `A` of R129: a scanned coordinate and its reflection in both axes. -/
def pairA (h w : Nat) (p : Position) : List Position := [p, (mirror h p.1, mirror w p.2)]

/-- Pair `B` of R129: its reflections in one axis. -/
def pairB (h w : Nat) (p : Position) : List Position := [(mirror h p.1, p.2), (p.1, mirror w p.2)]

/-- The four symmetric positions of a scanned coordinate (R122). -/
def four (h w : Nat) (p : Position) : List Position :=
  [p, (mirror h p.1, p.2), (p.1, mirror w p.2), (mirror h p.1, mirror w p.2)]

/-! ## The common operation (R123) -/

/-- The set `Z`: the union of `zero` over the scan region. -/
def zeroSet (h w : Nat) (zero : Position → List Position) : List Position := (scanned h w).flatMap zero

/-- The row and column of the `i`-th word of a row-major grid (R120). -/
def positionOf (w i : Nat) : Position := (i / w, i % w)

/-- The output grid: `ZERO` at the positions of `Z` that are not exempt, the source word elsewhere; every
source word is read first. -/
def filterGrid (c : BlockConfig) (src dst h w : Nat) (z : List Position) (exempt : Position → Bool)
    (m : Memory) : Memory :=
  m.store dst (h * w) fun i =>
    if decide (positionOf w i ∈ z) && !exempt (positionOf w i) then CWord.zero else m.read c (src + i)

/-- No position is exempt. -/
def noneExempt : Position → Bool := fun _ => false

/-! ## Checks (R124) -/

/-- Value checks: a dimension of exactly 1 in a grid that is not empty. -/
def gridValueChecks (h w : Nat) : List Check :=
  [operandCheck (h * w != 0 && h == 1) 3, operandCheck (h * w != 0 && w == 1) 4]

/-- Range checks of source and destination. -/
def gridRangeChecks (words src dst h w : Nat) : List Check :=
  [rangeCheck words src (h * w) 1, rangeCheck words dst (h * w) 2]

/-- All the checks of the four filters without a configuration word. -/
def gridChecks (words src dst h w : Nat) : List Check :=
  gridValueChecks h w ++ gridRangeChecks words src dst h w ++ [disjointOrSameCheck src dst (h * w) 1]

/-- All the checks of `FDIR`. -/
def directionalChecks (words src dst h w cfg : Nat) : List Check :=
  gridValueChecks h w ++ gridRangeChecks words src dst h w ++ [rangeCheck words cfg 1 7] ++
    [disjointOrSameCheck src dst (h * w) 1, disjointCheck cfg 1 dst (h * w) 7]

/-! ## The rules `zero` of the five commands -/

/-- All four positions, or none. -/
def fourIf (h w : Nat) (p : Position) (fires : Bool) : List Position := if fires then four h w p else []

/-- R125: `distSq >= t1`. -/
def lowZero (h w t1 : Nat) (p : Position) : List Position := fourIf h w p (t1 ≤ distSq h w p)

/-- R126: `distSq < t1`. -/
def highZero (h w t1 : Nat) (p : Position) : List Position := fourIf h w p (distSq h w p < t1)

/-- `t1 <= distSq < t2`. -/
def inAnnulus (h w t1 t2 : Nat) (p : Position) : Bool := t1 ≤ distSq h w p && distSq h w p < t2

/-- R127: outside the annulus. -/
def passZero (h w t1 t2 : Nat) (p : Position) : List Position := fourIf h w p (!inAnnulus h w t1 t2 p)

/-- R128: inside the annulus. -/
def stopZero (h w t1 t2 : Nat) (p : Position) : List Position := fourIf h w p (inAnnulus h w t1 t2 p)

/-- R129: a pair is kept inside the annulus and inside the wedge; `DIR_PRED` is the block's (R131). -/
def directionalZero (c : BlockConfig) (h w t1 t2 : Nat) (cfg : CWord) (p : Position) : List Position :=
  let dy := mid h - p.1
  let dx := mid w - p.2
  let keepA := inAnnulus h w t1 t2 p && c.dirPred .a dy dx cfg.re cfg.im
  let keepB := inAnnulus h w t1 t2 p && c.dirPred .b dy dx cfg.re cfg.im
  (if keepA then [] else pairA h w p) ++ (if keepB then [] else pairB h w p)

/-- R126: with `PM` the coefficient at the reference origin, only that position. -/
def meanExempt (pm : Bool) (h w : Nat) (p : Position) : Bool := pm && p == (mid h, mid w)

/-! ## The commands -/

/-- R125 -/
def flowMeaning (c : BlockConfig) (src dst h w t1 : Nat) : Meaning where
  checks := gridChecks c.dmemWords src dst h w
  operation m := filterGrid c src dst h w (zeroSet h w (lowZero h w t1)) noneExempt m

/-- R126 -/
def fhighMeaning (c : BlockConfig) (pm : Bool) (src dst h w t1 : Nat) : Meaning where
  checks := gridChecks c.dmemWords src dst h w
  operation m := filterGrid c src dst h w (zeroSet h w (highZero h w t1)) (meanExempt pm h w) m

/-- R127 -/
def fbpassMeaning (c : BlockConfig) (src dst h w t1 t2 : Nat) : Meaning where
  checks := gridChecks c.dmemWords src dst h w
  operation m := filterGrid c src dst h w (zeroSet h w (passZero h w t1 t2)) noneExempt m

/-- R128 -/
def fbstopMeaning (c : BlockConfig) (src dst h w t1 t2 : Nat) : Meaning where
  checks := gridChecks c.dmemWords src dst h w
  operation m := filterGrid c src dst h w (zeroSet h w (stopZero h w t1 t2)) noneExempt m

/-- R129: the configuration word is read before `dst` is written. -/
def fdirMeaning (c : BlockConfig) (src dst h w t1 t2 cfg : Nat) : Meaning where
  checks := directionalChecks c.dmemWords src dst h w cfg
  operation m :=
    filterGrid c src dst h w (zeroSet h w (directionalZero c h w t1 t2 (m.read c cfg))) noneExempt m

def execFlow (src dst h w t1 : Nat) (s : State) : Outcome :=
  .next (s.complete (flowMeaning Config.block src dst h w t1))

def execFhigh (pm : Bool) (src dst h w t1 : Nat) (s : State) : Outcome :=
  .next (s.complete (fhighMeaning Config.block pm src dst h w t1))

def execFbpass (src dst h w t1 t2 : Nat) (s : State) : Outcome :=
  .next (s.complete (fbpassMeaning Config.block src dst h w t1 t2))

def execFbstop (src dst h w t1 t2 : Nat) (s : State) : Outcome :=
  .next (s.complete (fbstopMeaning Config.block src dst h w t1 t2))

def execFdir (src dst h w t1 t2 cfg : Nat) (s : State) : Outcome :=
  .next (s.complete (fdirMeaning Config.block src dst h w t1 t2 cfg))

end Sys2Proof.Machine
end

