-- ==== Sys2Proof/Machine/OverlapAdd.lean ====
section
/-! DEFINITION. The overlap-add buffer and selector: `OLACLR`, `OLASEL`, `OLAACC` (45_overlap_add.md R150 to
R153). The Operations are the spec's sequential programs (20_memory.md R37). -/

namespace Sys2Proof.Machine

/-- R151 -/
def olaclrMeaning (c : BlockConfig) (dst n : Nat) : Meaning where
  checks := [rangeCheck c.dmemWords dst n 1]
  operation m := forUp n (fun j m' => m'.write (dst + j) CWord.zero) m

/-- The word of R152 for window position `j`: a sample of the signal, scaled by the `re` half of taper word
`j` if there is a taper, or `ZERO` outside the window or beyond the signal. -/
def windowWord (c : BlockConfig) (u : Fpu) (sig n off winLen : Nat) (taper : Option Nat) (j : Nat)
    (m : Memory) : CWord :=
  if j < winLen ∧ off + j < n then
    match taper with
    | some t => cscale u (m.read c (sig + off + j)) (m.read c (t + j)).re
    | none => m.read c (sig + off + j)
  else CWord.zero

/-- The checks of R152; those of the taper only with the flag. -/
def olaselChecks (words dst sig n winLen padLen : Nat) : Option Nat → List Check
  | none => [operandCheck (decide (padLen < winLen)) 5, rangeCheck words dst padLen 1, rangeCheck words sig n 2,
      disjointCheck sig n dst padLen 2]
  | some t => [operandCheck (decide (padLen < winLen)) 5, rangeCheck words dst padLen 1, rangeCheck words sig n 2,
      rangeCheck words t winLen 7, disjointCheck sig n dst padLen 2, disjointCheck t winLen dst padLen 7]

/-- R152 -/
def olaselMeaning (c : BlockConfig) (k dst sig n off winLen padLen : Nat) (taper : Option Nat) : Meaning where
  checks := olaselChecks c.dmemWords dst sig n winLen padLen taper
  operation m := forUp padLen (fun j m' =>
    m'.write (dst + j) (windowWord c (c.fpu k) sig n off winLen taper j m')) m

/-- The addend of R153: the word, or its real part under the flag `RE`. -/
def addend (re : Bool) (z : CWord) : CWord := if re then ⟨z.re, 0#64⟩ else z

/-- R153 -/
def olaaccMeaning (c : BlockConfig) (k : Nat) (re : Bool) (dst src n : Nat) : Meaning where
  checks := [rangeCheck c.dmemWords dst n 1, rangeCheck c.dmemWords src n 2, disjointCheck dst n src n 2]
  operation m := forUp n (fun j m' =>
    m'.write (dst + j) (cadd (c.fpu k) (m'.read c (dst + j)) (addend re (m'.read c (src + j))))) m

def execOlaclr (dst n : Nat) (s : State) : Outcome :=
  .next (s.complete (olaclrMeaning Config.block dst n))

def execOlasel (dst sig n off winLen padLen : Nat) (taper : Option Nat) (s : State) : Outcome :=
  .next (s.complete (olaselMeaning Config.block s.draws dst sig n off winLen padLen taper))

def execOlaacc (re : Bool) (dst src n : Nat) (s : State) : Outcome :=
  .next (s.complete (olaaccMeaning Config.block s.draws re dst src n))

end Sys2Proof.Machine
end

