-- ==== Sys2Proof/Machine/Transform.lean ====
section
/-! DEFINITION. The bit-reversal unit, the butterfly stage, the normaliser and the one-dimensional transform:
`BITREV`, `BFLY`, `NORM`, `FFT` (42_fft.md R100 to R104). The Operations are the spec's sequential
programs (20_memory.md R37). -/

namespace Sys2Proof.Machine

/-! ## The three steps of §4.3 -/

/-- One turn of the loop of R101: `if rev_n(i) < i`, swap `X[i]` and `X[rev_n(i)]`. -/
def reverseTurn (c : BlockConfig) (data bits i : Nat) (m : Memory) : Memory :=
  let r := rev bits i
  if r < i then
    let t := m.read c (data + i)
    (m.write (data + i) (m.read c (data + r))).write (data + r) t
  else m

/-- The Operation of `BITREV` (R101). -/
def bitReverse (c : BlockConfig) (data len : Nat) (m : Memory) : Memory :=
  forUp len (reverseTurn c data (log2 len)) m

/-- The first inner loop of R102: `X[offset + half + i]` is multiplied by `ROOT[i * rootStep]`, for `i` from 1;
`i = 0` is skipped. -/
def twiddleLoop (c : BlockConfig) (u : Fpu) (upper roots half rootStep : Nat) (m : Memory) : Memory :=
  forUp (half - 1) (fun j m' =>
    let i := j + 1
    m'.write (upper + i) (cmul u (m'.read c (upper + i)) (m'.read c (roots + i * rootStep)))) m

/-- The second inner loop of R102: each pair `(a, b)` becomes `(a + b, a - b)`. -/
def combineLoop (c : BlockConfig) (u : Fpu) (lower upper half : Nat) (m : Memory) : Memory :=
  forUp half (fun i m' =>
    let a := m'.read c (lower + i)
    let b := m'.read c (upper + i)
    (m'.write (lower + i) (cadd u a b)).write (upper + i) (csub u a b)) m

/-- The Operation of `BFLY` (R102): one stage, block after block. -/
def butterflyStage (c : BlockConfig) (u : Fpu) (data roots len depth : Nat) (m : Memory) : Memory :=
  let half := 2 ^ depth
  let width := 2 * half
  let rootStep := len / width
  forUp (len / width) (fun block m' =>
    let lower := data + block * width
    let upper := lower + half
    combineLoop c u lower upper half (twiddleLoop c u upper roots half rootStep m')) m

/-- The binary64 value `2^(-n)`, for `n <= 31` (R103). -/
def powerOfHalf (n : Nat) : F64 := BitVec.ofNat 64 ((1023 - n) * 2 ^ 52)

/-- The Operation of `NORM` (R103): every element is scaled by `1/L`. -/
def normalise (c : BlockConfig) (u : Fpu) (data len : Nat) (m : Memory) : Memory :=
  forUp len (fun i m' => m'.write (data + i) (cscale u (m'.read c (data + i)) (powerOfHalf (log2 len)))) m

/-- The Operation of `FFT` (R104): bit reversal, the stages in ascending depth, then `NORM` with the flag. -/
def transform (c : BlockConfig) (u : Fpu) (norm : Bool) (data roots len : Nat) (m : Memory) : Memory :=
  let staged := forUp (log2 len) (fun d m' => butterflyStage c u data roots len d m') (bitReverse c data len m)
  if norm then normalise c u data len staged else staged

/-! ## The commands (checks of R100, R175) -/

/-- R101 -/
def bitrevMeaning (c : BlockConfig) (data len : Nat) : Meaning where
  checks := [lengthCheck len 3, rangeCheck c.dmemWords data len 1]
  operation m := bitReverse c data len m

/-- R102 -/
def bflyMeaning (c : BlockConfig) (k data roots len depth : Nat) : Meaning where
  checks := [lengthCheck len 3, operandCheck (decide (log2 len ≤ depth)) 4, rangeCheck c.dmemWords data len 1,
    rangeCheck c.dmemWords roots (len / 2) 2, disjointCheck data len roots (len / 2) 1]
  operation m := butterflyStage c (c.fpu k) data roots len depth m

/-- R103 -/
def normMeaning (c : BlockConfig) (k data len : Nat) : Meaning where
  checks := [lengthCheck len 3, rangeCheck c.dmemWords data len 1]
  operation m := normalise c (c.fpu k) data len m

/-- R104 -/
def fftMeaning (c : BlockConfig) (k : Nat) (norm : Bool) (data roots len : Nat) : Meaning where
  checks := [lengthCheck len 3, rangeCheck c.dmemWords data len 1, rangeCheck c.dmemWords roots (len / 2) 2,
    disjointCheck data len roots (len / 2) 1]
  operation m := transform c (c.fpu k) norm data roots len m

def execBitrev (data len : Nat) (s : State) : Outcome :=
  .next (s.complete (bitrevMeaning Config.block data len))

def execBfly (data roots len depth : Nat) (s : State) : Outcome :=
  .next (s.complete (bflyMeaning Config.block s.draws data roots len depth))

def execNorm (data len : Nat) (s : State) : Outcome :=
  .next (s.complete (normMeaning Config.block s.draws data len))

def execFft (norm : Bool) (data roots len : Nat) (s : State) : Outcome :=
  .next (s.complete (fftMeaning Config.block s.draws norm data roots len))

end Sys2Proof.Machine
end

