-- ==== Sys2Proof/Machine/Twiddle.lean ====
section
/-! DEFINITION. The twiddle-factor ROM and its generator, the command `BASIS` (41_twiddle.md R90 to R93). -/

namespace Sys2Proof.Machine

/-! ## What may be assumed of the ROM's content (R92)

`TW` is a constant of the block (R25, log 9). The properties of the spec's default are named here, each of
any function; the machine assumes none of them. -/

/-- `1.0` (R92's table). -/
def one : F64 := 0x3FF0000000000000#64

/-- `-1.0` (R92's table). -/
def minusOne : F64 := 0xBFF0000000000000#64

/-- `S`, the binary64 nearest to the square root of one half (R92). -/
def rootHalf : F64 := 0x3FE6A09E667F3BCD#64

/-- A nonzero component is negated; a zero one is `+0.0` on both sides (TW-CONJ, TW-NEG). -/
def oppositeComponent (x y : F64) : Prop :=
  if isZero x then x = 0#64 ∧ y = 0#64 else y = fneg x

/-- The nine named properties of R92. -/
structure TwProperties (tw : Bool → Nat → Nat → CWord) : Prop where
  twZero : ∀ inv p, 1 ≤ p → tw inv p 0 = ⟨one, 0#64⟩
  twHalf : ∀ inv p k, 1 ≤ p → 2 * k = p → tw inv p k = ⟨minusOne, 0#64⟩
  twQuarter : ∀ p k, 1 ≤ p → 4 * k = p → tw false p k = ⟨0#64, minusOne⟩ ∧ tw true p k = ⟨0#64, one⟩
  twThreeQuarter : ∀ p k, 1 ≤ p → 4 * k = 3 * p →
    tw false p k = ⟨0#64, one⟩ ∧ tw true p k = ⟨0#64, minusOne⟩
  twEighth : ∀ p k, 1 ≤ p →
    (8 * k = p → tw false p k = ⟨rootHalf, fneg rootHalf⟩ ∧ tw true p k = ⟨rootHalf, rootHalf⟩) ∧
    (8 * k = 3 * p →
      tw false p k = ⟨fneg rootHalf, fneg rootHalf⟩ ∧ tw true p k = ⟨fneg rootHalf, rootHalf⟩)
  twRatio : ∀ inv p k, 1 ≤ p →
    (∀ m, 1 ≤ m → tw inv (m * p) (m * k) = tw inv p k) ∧ tw inv p (k + p) = tw inv p k
  twConj : ∀ p k, 1 ≤ p → (tw true p k).re = (tw false p k).re ∧
    oppositeComponent (tw false p k).im (tw true p k).im
  twNeg : ∀ inv p k, 1 ≤ p → p % 2 = 0 →
    oppositeComponent (tw inv p k).re (tw inv p (k + p / 2)).re ∧
    oppositeComponent (tw inv p k).im (tw inv p (k + p / 2)).im
  twFinite : ∀ inv p k, 1 ≤ p →
    isFinite (tw inv p k).re = true ∧ isFinite (tw inv p k).im = true ∧
    units (tw inv p k).re ≤ unitsPerOne ∧ units (tw inv p k).im ≤ unitsPerOne

/-! ## The generator -/

/-- R93 -/
def basisMeaning (c : BlockConfig) (inv : Bool) (dst period size : Nat) : Meaning where
  checks := [operandCheck (period == 0) 2, rangeCheck c.dmemWords dst size 1]
  operation m := forUp size (fun k m' => m'.write (dst + k) (c.tw inv period k)) m

def execBasis (inv : Bool) (dst period size : Nat) (s : State) : Outcome :=
  .next (s.complete (basisMeaning Config.block inv dst period size))

end Sys2Proof.Machine
end

