-- ==== Sys2Proof/Machine/Dispatch.lean ====
section
/-! DEFINITION. One arm per command: the meaning of an instruction on a state that has latched it. -/

namespace Sys2Proof.Machine

def exec (i : Instr) (s : State) : Host.Outcome State Fault Refusal :=
  match i with
  -- 46_control.md
  | .nop => Sys2Proof.Machine.execNop s
  -- 40_complex_arithmetic.md
  | .cadd dst a b => Sys2Proof.Machine.execCadd dst a b s
  | .csub dst a b => Sys2Proof.Machine.execCsub dst a b s
  | .cmul dst a b => Sys2Proof.Machine.execCmul dst a b s
  | .cdiv dst a b => Sys2Proof.Machine.execCdiv dst a b s
  | .cconj dst a => Sys2Proof.Machine.execCconj dst a s
  | .cscale dst a factor => Sys2Proof.Machine.execCscale dst a factor s
  -- 41_twiddle.md
  | .basis inv dst period size => Sys2Proof.Machine.execBasis inv dst period size s
  -- 42_fft.md
  | .bitrev data len => Sys2Proof.Machine.execBitrev data len s
  | .bfly data roots len depth => Sys2Proof.Machine.execBfly data roots len depth s
  | .fft norm data roots len => Sys2Proof.Machine.execFft norm data roots len s
  | .norm data len => Sys2Proof.Machine.execNorm data len s
  -- 43_filter_mask.md
  | .flow src dst h w t1 => Sys2Proof.Machine.execFlow src dst h w t1 s
  | .fhigh pm src dst h w t1 => Sys2Proof.Machine.execFhigh pm src dst h w t1 s
  | .fbpass src dst h w t1 t2 => Sys2Proof.Machine.execFbpass src dst h w t1 t2 s
  | .fbstop src dst h w t1 t2 => Sys2Proof.Machine.execFbstop src dst h w t1 t2 s
  | .fdir src dst h w t1 t2 cfg => Sys2Proof.Machine.execFdir src dst h w t1 t2 cfg s
  -- 44_convolution_multiplier.md
  | .spmul cj dst a b n => Sys2Proof.Machine.execSpmul cj dst a b n s
  -- 45_overlap_add.md
  | .olaclr dst n => Sys2Proof.Machine.execOlaclr dst n s
  | .olasel dst sig n off winLen padLen taper => Sys2Proof.Machine.execOlasel dst sig n off winLen padLen taper s
  | .olaacc re dst src n => Sys2Proof.Machine.execOlaacc re dst src n s

end Sys2Proof.Machine
end

