-- ==== Sys2Proof/Machine/Flags.lean ====
section
/-! DEFINITION. The status bits and the register views. The block has no arithmetic flags (10_state.md
R15): the only flag-like state is `STATUS.BUSY` and `STATUS.ERR` (R17); a control register is read and
written whole (R23, 20_memory.md R31, R32). -/

namespace Sys2Proof.Machine

/-- `STATUS`: bit 0 `BUSY`, bit 1 `ERR`, bits 31:2 read 0 (R17). -/
def State.status (s : State) : Word := BitVec.ofNat 32 (s.busy.toNat + 2 * s.err.toNat)

/-- `Pn` for `1 <= n <= 7`. -/
def paramOf (p : Params) (n : Nat) : Word :=
  match n with
  | 1 => p.p1
  | 2 => p.p2
  | 3 => p.p3
  | 4 => p.p4
  | 5 => p.p5
  | 6 => p.p6
  | 7 => p.p7
  | _ => 0#32

/-- The value `RegRead(n)` returns, `0 <= n <= 15` (R32): `CMD`, `CTRL` and the reserved numbers read 0. -/
def State.register (s : State) (n : Nat) : Word :=
  match n with
  | 8 => s.status
  | 9 => s.errCode.setWidth 32
  | 10 => s.errInfo.setWidth 32
  | 11 => s.errCmd
  | _ => paramOf s.params n

/-- The effect of `RegWrite(n, v)`, `0 <= n <= 15`, while `BUSY = 0` (R31): 0 offers a command (R18), 1 to 7
write a parameter register (R11), 12 is `CTRL` whose bit 0 is `CLRERR` (R22), the others have no effect. -/
def State.writeRegister (s : State) (n : Nat) (v : Word) : State :=
  match n with
  | 0 => s.accept v
  | 12 => if v.getLsbD 0 then s.clearError else s
  | _ => { s with params := s.params.set n v }

end Sys2Proof.Machine
end

