-- ==== Sys2Proof/Machine/HostPort.lean ====
section
/-! DEFINITION. The host port (20_memory.md R30 to R36) and reset (70_reset_and_hazards.md R190, R200). -/

namespace Sys2Proof.Machine

/-- `Reset` (R190, R200): every register as after power-on, a command in progress abandoned, every word of
DMEM unspecified again. The model's own counter of draws, the host's list and its replies are no part of
the block and stay. -/
def State.resetBlock (s : State) : State :=
  { State.reset with
    dmem := s.dmem.forget
    draws := s.draws
    host := s.host
    replies := s.replies }

/-- A value returned to the host (R199). -/
def State.reply (s : State) (r : Reply) : State := { s with replies := s.replies ++ [r] }

/-- The last register number (R23). -/
def lastRegister : Nat := 15

/-- The effect of a transaction that takes effect now, on the block `c` (R31, R32, R34, R35, R190). What
names no register or no word is refused on the bus and has no step (R36). -/
def performOn (c : BlockConfig) (t : Transaction) (s : State) : Outcome :=
  match t with
  | .regWrite n v => if n ≤ lastRegister then .next (s.writeRegister n v) else .refused (.noSuchRegister n)
  | .regRead n =>
    if n ≤ lastRegister then .next (s.reply (.register (s.register n))) else .refused (.noSuchRegister n)
  | .memWrite a re im =>
    if a < c.dmemWords then .next { s with dmem := s.dmem.write a ⟨re, im⟩ } else .refused (.noSuchAddress a)
  | .memRead a =>
    if a < c.dmemWords then .next (s.reply (.memory (s.dmem.read c a).re (s.dmem.read c a).im))
    else .refused (.noSuchAddress a)
  | .reset => .next s.resetBlock

/-- The same on this block. -/
def perform (t : Transaction) (s : State) : Outcome := performOn Config.block t s

/-- The transactions that take effect while `BUSY = 1`; every other one is held (R33, R190). -/
def Transaction.neverHeld : Transaction → Bool
  | .regRead _ | .reset => true
  | .regWrite .. | .memWrite .. | .memRead _ => false

/-- The host transaction that takes effect in this step, if the host is the agent that moves, and the state
without it: while IDLE or in ERROR the next one; while BUSY the next one only if it is never held (R33)
and the host issues it before the core completes the command (U7, log 2). -/
def State.hostTurn (s : State) : Option (Transaction × State) :=
  match s.host with
  | [] => none
  | a :: rest =>
    if s.busy && !(a.early && a.txn.neverHeld) then none else some (a.txn, { s with host := rest })

/-- The host's next transaction waits until the core has completed the command in progress. -/
def holdNext : List HostAct → List HostAct
  | [] => []
  | a :: rest => { a with early := false } :: rest

end Sys2Proof.Machine
end

