-- ==== Sys2Proof/Machine/Completion.lean ====
section
/-! DEFINITION. The core's step (10_state.md R19): decode the latched command, then run it or reject it. -/

namespace Sys2Proof.Machine

/-- The rejection of a word that matches no row of the opcode table (R174). -/
def illegalCommand : Rejection := ⟨.illegalCommand, 0⟩

/-- Completion of the latched command: `IllegalCommand` is tested before every other check, and no operand
is examined when it fails (R174, R175). -/
def coreStep (s : State) : Outcome :=
  match decode s.latch with
  | .ok i => exec i s
  | .error _ => .next (s.reject illegalCommand)

/-- The latched command of a state that has accepted the word `w`, with zero operands (R18). -/
def fetchImage (nbits w : Nat) : Image := Image.ofTableWord nbits w

end Sys2Proof.Machine
end

