-- ==== Sys2Proof/Machine/Step.lean ====
section
/-! DEFINITION. One step of the block and its host (10_state.md R20). -/

namespace Sys2Proof.Machine

/-- The host's transaction, if the host moves; else the core's completion while `BUSY = 1`; else nothing
happens: the block waits for its host (R199, log 4). -/
def step (s : State) : Host.Outcome State Fault Refusal :=
  match s.hostTurn with
  | some (t, s') => perform t s'
  | none => if s.busy then coreStep s else .next s

/-- The state `s` that has accepted the command word `w` with zero operands and whose core moves next: the
latch is where the core takes its command from (R13, R14; log 14). -/
def State.withFetchWord (s : State) (nbits w : Nat) : State :=
  { s with latch := fetchImage nbits w, busy := true, host := holdNext s.host }

end Sys2Proof.Machine
end

