-- ==== Sys2Proof/Machine/Assembler.lean ====
section
/-! DEFINITION. The host's notation (30_encoding.md R56, R57, R59): assembler lines, directives and
pseudo-instructions as the transactions they stand for. Nothing here is part of the block. -/

namespace Sys2Proof.Machine

/-- A line of a command: the used registers in ascending number, then the command word (R56). -/
def assemble (i : Instr) : List Transaction :=
  i.usedRegisters.map (fun r => .regWrite r.1 r.2) ++ [.regWrite 0 i.cmdw]

/-- A transaction the host does not issue before a command in progress has completed. -/
def later (t : Transaction) : HostAct := ⟨t, false⟩

/-- Lines of a host's listing (R56, R57). -/
inductive HostLine where
  /-- a command -/
  | command (i : Instr)
  /-- `WR a, re, im` -/
  | wr (a : Nat) (z : CWord)
  /-- `WRV a, [z0, z1, ...]` -/
  | wrv (a : Nat) (zs : List CWord)
  /-- `RD a` -/
  | rd (a : Nat)
  /-- `WAIT`: `polls` reads of `STATUS` that come before the completion of the command in progress, and the
  one after it, which reads `BUSY = 0` (how many come before is open, R197; log 18) -/
  | wait (polls : Nat)
  /-- `CLRERR` -/
  | clrerr
  /-- `FFTF data, roots, len` -/
  | fftf (data roots len : Nat)
  /-- `FFTI data, roots, len` -/
  | ffti (data roots len : Nat)
  deriving DecidableEq, Repr

/-- The two commands of `FFTF` (R57, R110) and `FFTI` (R57, R111). -/
def fftLine (inverse : Bool) (data roots len : Nat) : List Instr :=
  [.basis inverse roots len (len / 2), .fft inverse data roots len]

/-- The transactions of a line (R56, R57). -/
def lineActs : HostLine → List HostAct
  | .command i => (assemble i).map later
  | .wr a z => [later (.memWrite a z.re z.im)]
  | .wrv a zs => zs.mapIdx fun j z => later (.memWrite (a + j) z.re z.im)
  | .rd a => [later (.memRead a)]
  | .wait polls => List.replicate polls ⟨.regRead 8, true⟩ ++ [later (.regRead 8)]
  | .clrerr => [later (.regWrite 12 1#32)]
  | .fftf data roots len => (fftLine false data roots len).flatMap fun i => (assemble i).map later
  | .ffti data roots len => (fftLine true data roots len).flatMap fun i => (assemble i).map later

/-- The transactions of a listing. -/
def listingActs (lines : List HostLine) : List HostAct := lines.flatMap lineActs

/-- A state whose host issues a listing next. -/
def State.withListing (s : State) (lines : List HostLine) : State := { s with host := listingActs lines }

end Sys2Proof.Machine
end

