-- ==== Sys2Proof/Machine/Procedures.lean ====
section
/-! DEFINITION. The host's procedures (42_fft.md R105, R110 to R112; 44_convolution_multiplier.md R142, R144,
R146; 45_overlap_add.md R154): what the host does to obtain the source's operations from the commands.
"Nothing in them is a command of its own": the block knows nothing of them. A procedure whose rule asks
something of the host's choices (a padded length, a hop) is `none` for choices without it. -/

namespace Sys2Proof.Machine

/-- One thing the host does in a procedure. -/
inductive HostStep where
  /-- issue a line -/
  | line (l : HostLine)
  /-- `HostMemRead(src)`, then `HostMemWrite(dst, ...)` of what it returned -/
  | copyWord (src dst : Nat)
  deriving DecidableEq, Repr

/-- The transactions of a step, issued in a state whose DMEM the host has read. -/
def stepActs (s : State) : HostStep → List HostAct
  | .line l => lineActs l
  | .copyWord src dst =>
    [later (.memRead src), later (.memWrite dst (s.word src).re (s.word src).im)]

/-- A real sequence in DMEM: the sample in `re`, `+0.0` in `im` (R145, D38), zero words up to `len`. -/
def realWords (samples : List F64) (len : Nat) : List CWord :=
  samples.map (fun x => ⟨x, 0#64⟩) ++ List.replicate (len - samples.length) CWord.zero

/-- The host reads `n` words from `a` on (the last step of R142, R144, R146, R154). -/
def readWords (a n : Nat) : List HostStep := (List.range n).map fun j => .line (.rd (a + j))

/-- "The real part" of a result: the `re` half of each word the host has read (R145). -/
def realParts (replies : List Reply) : List F64 :=
  replies.filterMap fun
    | .memory re _ => some re
    | .register _ => none

/-- R110, and R111 for the inverse: the transform of `len` words, a power of two, with a root region of `len / 2`
words disjoint from the data. -/
def transform1d (inverse : Bool) (data roots len : Nat) : Option (List HostStep) :=
  if pow2 len && !overlaps data len roots (len / 2) then
    some [.line (if inverse then .ffti data roots len else .fftf data roots len)]
  else none

/-- The transposition of an `h` by `w` grid at `g` into `t` (R112 steps 4 and 6). -/
def transpose (g t h w : Nat) : List HostStep :=
  (List.range h).flatMap fun y => (List.range w).map fun x => .copyWord (g + y * w + x) (t + x * h + y)

/-- The transform, without normalisation, of every row of a grid (R112 steps 3 and 5). -/
def rowTransforms (g roots h w : Nat) : List HostStep :=
  (List.range h).map fun y => .line (.command (.fft false (g + y * w) roots w))

/-- What R112 asks: the dimensions are powers of two and the four regions are disjoint. -/
def legalGrid (g t rw rh h w : Nat) : Bool :=
  let regions := [(g, h * w), (t, h * w), (rw, w / 2), (rh, h / 2)]
  pow2 h && pow2 w && decide (regions.Pairwise fun r r' => overlaps r.1 r.2 r'.1 r'.2 = false)

/-- R112: the two-dimensional transform of an `h` by `w` grid at `g`, with the regions `t`, `rw`, `rh`. -/
def transform2d (inverse : Bool) (g t rw rh h w : Nat) : Option (List HostStep) :=
  if h * w = 0 then some []
  else if legalGrid g t rw rh h w then
    some ([.line (.command (.basis inverse rw w (w / 2))), .line (.command (.basis inverse rh h (h / 2)))] ++
      rowTransforms g rw h w ++ transpose g t h w ++ rowTransforms t rh w h ++ transpose t g w h ++
      (if inverse then [.line (.command (.norm g (h * w)))] else []))
  else none

/-- R142 steps 2 to 5, over the padded length `lc`: both sequences are written, transformed, multiplied (with
`cj`, by the conjugate) and transformed back. -/
def convolve (cj : Bool) (sa ka pa ra lc : Nat) (signal kernel : List F64) : List HostStep :=
  [.line (.wrv sa (realWords signal lc)), .line (.wrv ka (realWords kernel lc)),
   .line (.command (.basis false ra lc (lc / 2))), .line (.command (.fft false sa ra lc)),
   .line (.command (.fft false ka ra lc)), .line (.command (.spmul cj pa sa ka lc)),
   .line (.command (.basis true ra lc (lc / 2))), .line (.command (.fft true pa ra lc))]

/-- R142: linear convolution of a real signal of `N` samples with a real kernel of `M`, over a power of two
`lc >= N + M - 1`; the host reads `N + M - 1` words. -/
def linearConvolution (sa ka pa ra lc : Nat) (signal kernel : List F64) : Option (List HostStep) :=
  let result := signal.length + kernel.length - 1
  if 1 ≤ signal.length ∧ 1 ≤ kernel.length ∧ pow2 lc = true ∧ result ≤ lc then
    some (convolve false sa ka pa ra lc signal kernel ++ readWords pa result)
  else none

/-- R146: cyclic convolution, or with `cj` cyclic correlation, of two sequences of one power-of-two length; the
host reads every word. -/
def cyclicConvolution (cj : Bool) (sa ka pa ra : Nat) (signal kernel : List F64) : Option (List HostStep) :=
  let l := signal.length
  if kernel.length = l ∧ pow2 l = true then
    some (convolve cj sa ka pa ra l signal kernel ++ readWords pa l)
  else none

/-- R144: cyclic autocorrelation of a real signal of power-of-two length; lag `j` is the `j`-th word read. -/
def autocorrelation (sa pa ra : Nat) (signal : List F64) : Option (List HostStep) :=
  let l := signal.length
  if pow2 l = true then
    some ([.line (.wrv sa (realWords signal l)), .line (.command (.basis false ra l (l / 2))),
      .line (.command (.fft false sa ra l)), .line (.command (.spmul true pa sa sa l)),
      .line (.command (.basis true ra l (l / 2))), .line (.command (.fft true pa ra l))] ++ readWords pa l)
  else none

/-- The regions and lengths of the overlap-add procedure and its kernel (R154): `N` samples at `sig`, `M` taps,
window length `Wn`, hop `h`, padded length `Lp`. -/
structure OverlapAddPlan where
  out : Nat
  window : Nat
  sig : Nat
  kernel : Nat
  forwardRoots : Nat
  inverseRoots : Nat
  taper : Option Nat
  n : Nat
  taps : List F64
  winLen : Nat
  hop : Nat
  padLen : Nat
  deriving DecidableEq, Repr

/-- What R154 asks of the plan: `Wn >= 1`, `h >= 1`, and step 1, `Lp` a power of two with `Lp >= Wn + M - 1`. -/
def OverlapAddPlan.legal (p : OverlapAddPlan) : Bool :=
  decide (1 ≤ p.winLen) && decide (1 ≤ p.hop) && pow2 p.padLen &&
    decide (p.winLen + p.taps.length - 1 ≤ p.padLen)

/-- The length of the result, `N + M - 1`. -/
def OverlapAddPlan.resultLen (p : OverlapAddPlan) : Nat := p.n + p.taps.length - 1

/-- R154 steps 2 and 3: the root tables, the kernel's spectrum, a clear output buffer. -/
def overlapAddPrepare (p : OverlapAddPlan) : List HostStep :=
  [.line (.command (.basis false p.forwardRoots p.padLen (p.padLen / 2))),
   .line (.command (.basis true p.inverseRoots p.padLen (p.padLen / 2))),
   .line (.wrv p.kernel (realWords p.taps p.padLen)),
   .line (.command (.fft false p.kernel p.forwardRoots p.padLen)),
   .line (.command (.olaclr p.out p.resultLen))]

/-- R154 step 4, for the window that starts at sample `off`. -/
def overlapAddWindow (p : OverlapAddPlan) (off : Nat) : List HostStep :=
  [.line (.command (.olasel p.window p.sig p.n off p.winLen p.padLen p.taper)),
   .line (.command (.fft false p.window p.forwardRoots p.padLen)),
   .line (.command (.spmul false p.window p.window p.kernel p.padLen)),
   .line (.command (.fft true p.window p.inverseRoots p.padLen)),
   .line (.command (.olaacc true (p.out + off) p.window
     (min (p.winLen + p.taps.length - 1) (p.resultLen - off))))]

/-- The starts of the windows, every `i * hop < N` in ascending order (R154 step 4). -/
def OverlapAddPlan.offsets (p : OverlapAddPlan) : List Nat :=
  ((List.range p.n).map (· * p.hop)).filter (· < p.n)

/-- R154: the whole procedure for a legal plan (step 1): preparation (2, 3), one window after another (4), and
the result read (5). -/
def overlapAdd (p : OverlapAddPlan) : Option (List HostStep) :=
  if p.legal then
    some (overlapAddPrepare p ++ p.offsets.flatMap (overlapAddWindow p) ++ readWords p.out p.resultLen)
  else none

end Sys2Proof.Machine
end

