-- ==== Sys2Proof/Machine/AnyBlock.lean ====
section
/-! DEFINITION. The same machine for ANY block configuration, so that it can be run on a concrete one: the
spec's test vectors fix the parameters that the block of `exec` and `step` leaves open (92 section 9).
`Sys2Proof/Laws/Commands.lean` proves that on `Config.block` it is `exec` and `step`. -/

namespace Sys2Proof.Machine

/-- The checks and the Operation of each command on the block `c`, as the `k`-th command run. -/
def meaningOf (c : BlockConfig) (k : Nat) : Instr → Meaning
  | .nop => nopMeaning
  | .cadd dst a b => caddMeaning c k dst a b
  | .csub dst a b => csubMeaning c k dst a b
  | .cmul dst a b => cmulMeaning c k dst a b
  | .cdiv dst a b => cdivMeaning c k dst a b
  | .cconj dst a => cconjMeaning c dst a
  | .cscale dst a factor => cscaleMeaning c k dst a factor
  | .basis inv dst period size => basisMeaning c inv dst period size
  | .bitrev data len => bitrevMeaning c data len
  | .bfly data roots len depth => bflyMeaning c k data roots len depth
  | .fft norm data roots len => fftMeaning c k norm data roots len
  | .norm data len => normMeaning c k data len
  | .flow src dst h w t1 => flowMeaning c src dst h w t1
  | .fhigh pm src dst h w t1 => fhighMeaning c pm src dst h w t1
  | .fbpass src dst h w t1 t2 => fbpassMeaning c src dst h w t1 t2
  | .fbstop src dst h w t1 t2 => fbstopMeaning c src dst h w t1 t2
  | .fdir src dst h w t1 t2 cfg => fdirMeaning c src dst h w t1 t2 cfg
  | .spmul cj dst a b n => spmulMeaning c k cj dst a b n
  | .olaclr dst n => olaclrMeaning c dst n
  | .olasel dst sig n off winLen padLen taper => olaselMeaning c k dst sig n off winLen padLen taper
  | .olaacc re dst src n => olaaccMeaning c k re dst src n

/-- `exec` on the block `c`. -/
def execOn (c : BlockConfig) (i : Instr) (s : State) : Outcome := .next (s.complete (meaningOf c s.draws i))

/-- `coreStep` on the block `c`. -/
def coreStepOn (c : BlockConfig) (s : State) : Outcome :=
  match decode s.latch with
  | .ok i => execOn c i s
  | .error _ => .next (s.reject illegalCommand)

/-- `step` on the block `c`. -/
def stepOn (c : BlockConfig) (s : State) : Outcome :=
  match s.hostTurn with
  | some (t, s') => performOn c t s'
  | none => if s.busy then coreStepOn c s else .next s

/-- `k` steps on the block `c`, stopping where a step answers no next state. -/
def runOn (c : BlockConfig) : Nat → State → Outcome
  | 0, s => .next s
  | k + 1, s =>
    match stepOn c s with
    | .next s' => runOn c k s'
    | .fault f => .fault f
    | .refused r => .refused r

end Sys2Proof.Machine
end

