-- ==== Sys2Proof/Safety.lean ====
section
/-! DEFINITION. The terms claims use: the conditions of the block (10_state.md R20), its invariant, how a
command ends (R19), when it is rejected (60_exceptions.md R175) and when a grid position is reached
(43_filter_mask.md R122). -/

namespace Sys2Proof.Machine

/-! ## Conditions and the invariant -/

/-- The three conditions of R20. -/
inductive Condition where
  | idle | busy | error
  deriving DecidableEq, Repr

/-- The condition a state is in (R20). -/
def State.condition (s : State) : Condition :=
  if s.busy then .busy else if s.err then .error else .idle

/-- The errors the block raises, each with the register numbers it can name (R173 to R179; R172, U11). -/
def raisable : List Rejection :=
  [⟨.invalidLength, 3⟩, ⟨.illegalCommand, 0⟩,
   ⟨.badOperand, 2⟩, ⟨.badOperand, 3⟩, ⟨.badOperand, 4⟩, ⟨.badOperand, 5⟩,
   ⟨.addrRange, 1⟩, ⟨.addrRange, 2⟩, ⟨.addrRange, 3⟩, ⟨.addrRange, 7⟩,
   ⟨.overlap, 1⟩, ⟨.overlap, 2⟩, ⟨.overlap, 3⟩, ⟨.overlap, 7⟩]

/-- Every listed word lies inside a DMEM of `words` words (R16, R45). -/
def Memory.inside (words : Nat) (m : Memory) : Bool := m.cells.all fun p => decide (p.1 < words)

/-- The invariant of the block `c`. -/
structure State.InvOn (c : BlockConfig) (s : State) : Prop where
  /-- the memory is in its canonical form -/
  canonical : s.dmem.wf = true
  /-- no word outside DMEM has been written (R45) -/
  insideDmem : s.dmem.inside c.dmemWords = true
  /-- `BUSY` and `ERR` are never both 1 (R17) -/
  notBusyInError : ¬ (s.busy = true ∧ s.err = true)
  /-- the error registers are 0 while `ERR = 0` (R21) -/
  clearWithoutError : s.err = false → s.errCode = 0#8 ∧ s.errInfo = 0#3 ∧ s.errCmd = 0#32
  /-- while `ERR = 1` they hold an error the block raises, and the rejected command word (R21, R171) -/
  namedError : s.err = true →
    (∃ r ∈ raisable, s.errCode = r.error.number ∧ s.errInfo = r.info) ∧ s.errCmd = s.latch.cmd
  /-- while `BUSY = 1` the latched operands are the live ones (R13) -/
  latchAgrees : s.busy = true → s.latch.p = s.params

/-- The invariant of this block. -/
abbrev State.Inv (s : State) : Prop := s.InvOn Config.block

/-! ## How a command ends (R19) -/

/-- `t` is `s` after a command whose checks all passed, as far as everything but the words of DMEM goes (R19):
`BUSY` is cleared, every other register keeps its value, the host and its replies stay, and the model's own counter of commands run advances. -/
structure State.Ran (s t : State) : Prop where
  params : t.params = s.params
  latch : t.latch = s.latch
  busy : t.busy = false
  err : t.err = s.err
  errCode : t.errCode = s.errCode
  errInfo : t.errInfo = s.errInfo
  errCmd : t.errCmd = s.errCmd
  epoch : t.dmem.epoch = s.dmem.epoch
  draws : t.draws = s.draws + 1
  host : t.host = s.host
  replies : t.replies = s.replies

/-- `t` is `s` after the rejection of its latched command (R177, R19): the code, the register and the command
word are saved, `ERR` set and `BUSY` cleared; DMEM and everything else stay. -/
structure State.RejectedAs (s : State) (r : Rejection) (t : State) : Prop where
  errCode : t.errCode = r.error.number
  errInfo : t.errInfo = r.info
  errCmd : t.errCmd = s.latch.cmd
  err : t.err = true
  busy : t.busy = false
  dmem : t.dmem = s.dmem
  params : t.params = s.params
  latch : t.latch = s.latch
  draws : t.draws = s.draws
  host : t.host = s.host
  replies : t.replies = s.replies

/-! ## When a command is rejected (R175, in the spec's own terms) -/

/-- The address `x` lies in `reg(b, n)` (00_scope.md R2). -/
def InRegion (b n x : Nat) : Prop := b ≤ x ∧ x < b + n

/-- Two regions share an address (R178). -/
def Share (a m b n : Nat) : Prop := ∃ x, InRegion a m x ∧ InRegion b n x

/-- `L` is one of 1, 2, 4, 8, ... (R3). -/
def IsPow2 (l : Nat) : Prop := ∃ n, l = 2 ^ n

/-- The region fails `inrange` (R176). -/
def Outside (words b n : Nat) : Prop := words < b + n

/-- The first failing entry of a list of failure conditions decides the rejection; `none` when no condition
holds (R175). -/
def Decides : List (Prop × Rejection) → Option Rejection → Prop
  | [], r => r = none
  | (fails, e) :: rest, r => (fails → r = some e) ∧ (¬ fails → Decides rest r)

/-- The value checks of the filters (R175). -/
def gridFailures (h w : Nat) : List (Prop × Rejection) :=
  [(h * w ≠ 0 ∧ h = 1, ⟨.badOperand, 3⟩), (h * w ≠ 0 ∧ w = 1, ⟨.badOperand, 4⟩)]

/-- The range checks of the filters (R175). -/
def gridRangeFailures (words src dst h w : Nat) : List (Prop × Rejection) :=
  [(Outside words src (h * w), ⟨.addrRange, 1⟩), (Outside words dst (h * w), ⟨.addrRange, 2⟩)]

/-- The overlap check of source and destination, "P1/P2 not identical" (R175). -/
def gridOverlapFailures (src dst h w : Nat) : List (Prop × Rejection) :=
  [(Share src (h * w) dst (h * w) ∧ src ≠ dst, ⟨.overlap, 1⟩)]

/-- The table of R175, for a block of `words` words. -/
def failureTable (words : Nat) : Instr → List (Prop × Rejection)
  | .nop => []
  | .cadd dst a b | .csub dst a b | .cmul dst a b | .cdiv dst a b =>
    [(Outside words dst 1, ⟨.addrRange, 1⟩), (Outside words a 1, ⟨.addrRange, 2⟩),
     (Outside words b 1, ⟨.addrRange, 3⟩)]
  | .cconj dst a | .cscale dst a _ =>
    [(Outside words dst 1, ⟨.addrRange, 1⟩), (Outside words a 1, ⟨.addrRange, 2⟩)]
  | .basis _ dst period size =>
    [(period = 0, ⟨.badOperand, 2⟩), (Outside words dst size, ⟨.addrRange, 1⟩)]
  | .bitrev data len | .norm data len =>
    [(¬ IsPow2 len, ⟨.invalidLength, 3⟩), (Outside words data len, ⟨.addrRange, 1⟩)]
  | .bfly data roots len depth =>
    [(¬ IsPow2 len, ⟨.invalidLength, 3⟩), (len ≤ 2 ^ depth, ⟨.badOperand, 4⟩),
     (Outside words data len, ⟨.addrRange, 1⟩), (Outside words roots (len / 2), ⟨.addrRange, 2⟩),
     (Share data len roots (len / 2), ⟨.overlap, 1⟩)]
  | .fft _ data roots len =>
    [(¬ IsPow2 len, ⟨.invalidLength, 3⟩),
     (Outside words data len, ⟨.addrRange, 1⟩), (Outside words roots (len / 2), ⟨.addrRange, 2⟩),
     (Share data len roots (len / 2), ⟨.overlap, 1⟩)]
  | .flow src dst h w _ | .fhigh _ src dst h w _ | .fbpass src dst h w _ _ | .fbstop src dst h w _ _ =>
    gridFailures h w ++ gridRangeFailures words src dst h w ++ gridOverlapFailures src dst h w
  | .fdir src dst h w _ _ cfg =>
    gridFailures h w ++ gridRangeFailures words src dst h w ++ [(Outside words cfg 1, ⟨.addrRange, 7⟩)] ++
      gridOverlapFailures src dst h w ++ [(Share cfg 1 dst (h * w), ⟨.overlap, 7⟩)]
  | .spmul _ dst a b n =>
    [(Outside words dst n, ⟨.addrRange, 1⟩), (Outside words a n, ⟨.addrRange, 2⟩),
     (Outside words b n, ⟨.addrRange, 3⟩),
     (Share dst n a n ∧ dst ≠ a, ⟨.overlap, 2⟩), (Share dst n b n ∧ dst ≠ b, ⟨.overlap, 3⟩)]
  | .olaclr dst n => [(Outside words dst n, ⟨.addrRange, 1⟩)]
  | .olasel dst sig n _ winLen padLen none =>
    [(padLen < winLen, ⟨.badOperand, 5⟩), (Outside words dst padLen, ⟨.addrRange, 1⟩),
     (Outside words sig n, ⟨.addrRange, 2⟩), (Share sig n dst padLen, ⟨.overlap, 2⟩)]
  | .olasel dst sig n _ winLen padLen (some taper) =>
    [(padLen < winLen, ⟨.badOperand, 5⟩), (Outside words dst padLen, ⟨.addrRange, 1⟩),
     (Outside words sig n, ⟨.addrRange, 2⟩), (Outside words taper winLen, ⟨.addrRange, 7⟩),
     (Share sig n dst padLen, ⟨.overlap, 2⟩), (Share taper winLen dst padLen, ⟨.overlap, 7⟩)]
  | .olaacc _ dst src n =>
    [(Outside words dst n, ⟨.addrRange, 1⟩), (Outside words src n, ⟨.addrRange, 2⟩),
     (Share dst n src n, ⟨.overlap, 2⟩)]

/-- Wherever the table of R175 rejects the command, it is rejected so, and nothing else happens (R177). -/
def RejectsByTable (i : Instr) (s : State) : Prop :=
  ∀ r, Decides (failureTable Config.block.dmemWords i) (some r) → ∃ t, exec i s = .next t ∧ s.RejectedAs r t

/-- No check of R175 fails on the block `c`. -/
def Passes (c : BlockConfig) (i : Instr) : Prop := Decides (failureTable c.dmemWords i) none

/-- The command runs, and `after x` is what `DMEM[x]` then holds, for every address `x`. -/
def RunsTo (i : Instr) (s : State) (after : Nat → CWord → Prop) : Prop :=
  ∃ t, exec i s = .next t ∧ s.Ran t ∧ ∀ x, after x (t.word x)

/-! ## Grids (43_filter_mask.md) -/

/-- Some scanned coordinate whose squared distance from the origin satisfies `fires` has `(y, x)` among its
four symmetric positions (R121, R122). -/
def Reached (h w : Nat) (fires : Nat → Prop) (y x : Nat) : Prop :=
  ∃ sy sx, sy ≤ (h + 1) / 2 ∧ sx ≤ (w + 1) / 2 ∧
    fires (((h + 1) / 2 - sy) ^ 2 + ((w + 1) / 2 - sx) ^ 2) ∧
    (y = sy ∨ y = (h - sy) % h) ∧ (x = sx ∨ x = (w - sx) % w)

/-- What a filter writes: in row `y` and column `x` of `dst`, `ZERO` where `zeroed y x`, else the source word;
every word outside the destination grid stays (R123). -/
def FilterWrites (s : State) (src dst h w : Nat) (zeroed : Nat → Nat → Prop) (a : Nat) (z : CWord) : Prop :=
  (∀ y x, y < h → x < w → a = dst + y * w + x →
    (zeroed y x → z = CWord.zero) ∧ (¬ zeroed y x → z = s.word (src + y * w + x))) ∧
  (¬ InRegion dst (h * w) a → z = s.word a)

/-! ## Binary64 (40_complex_arithmetic.md R70) -/

/-- A finite value as a whole number of units of `2^-1074`, with its sign. -/
def signedUnits (x : F64) : Int := if signBit x then -(units x : Int) else (units x : Int)

/-- The magnitudes from here on round to an infinity: `2^1024 - 2^970`, in units. -/
def overflowUnits : Nat := (2 ^ 54 - 1) * 2 ^ 2044

/-- `r` is `n / d` units rounded once to binary64, to nearest, ties to even (R70): an infinity of the value's
sign from `overflowUnits` on, else a finite value that no finite value is closer than, with an even last
place if another one is as close. -/
def RoundedOnce (n : Int) (d : Nat) (r : F64) : Prop :=
  ((overflowUnits : Int) * (d : Int) ≤ |n| → isInfinite r = true ∧ signBit r = decide (n < 0)) ∧
  (|n| < (overflowUnits : Int) * (d : Int) → isFinite r = true ∧
    ∀ z, isFinite z = true →
      |n - (d : Int) * signedUnits r| ≤ |n - (d : Int) * signedUnits z| ∧
      (|n - (d : Int) * signedUnits r| = |n - (d : Int) * signedUnits z| → signedUnits r ≠ signedUnits z →
        fractionField r % 2 = 0))

end Sys2Proof.Machine
end

