-- ==== Sys2Proof/Certificates/Slice0/Obligations.lean ====
section
/-! DEFINITION. The statements for the provers. Each docstring names the rule of the spec it formalises; the
terms are those of Sys2Proof/Safety.lean. -/

open Sys2Proof Sys2Proof.Machine

/-! ## Encoding (30_encoding.md) -/

/-- R51, R52, R53, R58: the decoder reads every well-formed command back from its image, whatever the
registers that the command does not read hold. -/
def Obligations.DecodeEncodeAgree : Prop :=
  ∀ (i : Instr) (rest : Params), i.wellFormed = true → decode (encodeWith rest i) = .ok i

/-- R51, R59: an image that decodes is the image of a well-formed command, word for word. -/
def Obligations.DecodedImageIsItsEncoding : Prop :=
  ∀ (m : Image) (i : Instr), decode m = .ok i → i.wellFormed = true ∧ encodeWith m.p i = m

/-- R52: the table of match and mask, and no word selects two of its rows. -/
def Obligations.OpcodeTableIsExclusive : Prop :=
  opcodeTable.map (fun r => (r.mnemonic, r.pattern, r.mask)) =
    [("NOP", 0x00000000#32, 0xFFFFFFFF#32), ("CADD", 0x00000001#32, 0xFFFFFFFF#32),
     ("CSUB", 0x00000002#32, 0xFFFFFFFF#32), ("CMUL", 0x00000003#32, 0xFFFFFFFF#32),
     ("CDIV", 0x00000004#32, 0xFFFFFFFF#32), ("CCONJ", 0x00000005#32, 0xFFFFFFFF#32),
     ("CSCALE", 0x00000006#32, 0xFFFFFFFF#32), ("BASIS", 0x00000010#32, 0xFFFFFEFF#32),
     ("BITREV", 0x00000020#32, 0xFFFFFFFF#32), ("BFLY", 0x00000021#32, 0xFFFFFFFF#32),
     ("FFT", 0x00000022#32, 0xFFFFFEFF#32), ("NORM", 0x00000023#32, 0xFFFFFFFF#32),
     ("FLOW", 0x00000030#32, 0xFFFFFFFF#32), ("FHIGH", 0x00000031#32, 0xFFFFFEFF#32),
     ("FBPASS", 0x00000032#32, 0xFFFFFFFF#32), ("FBSTOP", 0x00000033#32, 0xFFFFFFFF#32),
     ("FDIR", 0x00000034#32, 0xFFFFFFFF#32), ("SPMUL", 0x00000040#32, 0xFFFFFEFF#32),
     ("OLACLR", 0x00000050#32, 0xFFFFFFFF#32), ("OLASEL", 0x00000051#32, 0xFFFFFEFF#32),
     ("OLAACC", 0x00000052#32, 0xFFFFFEFF#32)] ∧
  opcodeTable.Pairwise (fun r r' => ∀ w, ¬ (r.selects w = true ∧ r'.selects w = true)) ∧
  ∀ (m : Image), (∃ i, decode m = .ok i) ↔ ∃ r ∈ opcodeTable, m.cmd &&& r.mask = r.pattern

/-- R54, R174: which words are illegal, that the decoder is total, and what the core does with them. -/
def Obligations.IllegalWordsAreRejected : Prop :=
  (∀ m : Image, (∃ e, decode m = .error e) ↔
    let opcode := m.cmd.toNat % 256
    ((0x07 ≤ opcode ∧ opcode ≤ 0x0F) ∨ (0x11 ≤ opcode ∧ opcode ≤ 0x1F) ∨ (0x24 ≤ opcode ∧ opcode ≤ 0x2F) ∨
      (0x35 ≤ opcode ∧ opcode ≤ 0x3F) ∨ (0x41 ≤ opcode ∧ opcode ≤ 0x4F) ∨ 0x53 ≤ opcode) ∨
    (m.cmd.toNat / 256 % 2 = 1 ∧ opcode ∉ [0x10, 0x22, 0x31, 0x40, 0x51, 0x52]) ∨
    512 ≤ m.cmd.toNat) ∧
  (∀ m : Image, (∃ i, decode m = .ok i) ∨ ∃ e, decode m = .error e) ∧
  (∀ (s : State) (v : Word) (early : Bool) (rest : List HostAct), s.busy = false → s.err = false →
    s.host = ⟨.regWrite 0 v, early⟩ :: rest →
    step s = .next { s with host := rest, latch := ⟨v, s.params⟩, busy := true }) ∧
  (∀ (s : State) (e : Illegal), s.busy = true → s.hostTurn = none → decode s.latch = .error e →
    ∃ t, step s = .next t ∧ s.RejectedAs ⟨.illegalCommand, 0⟩ t)

/-- R52, R53: some command images, written out from the encoding, decode to their commands (a sanity
statement). -/
def Obligations.WordsWrittenOutDecode : Prop :=
  decode ⟨0x00000003#32, ⟨0x20#32, 0x10#32, 0x11#32, 9#32, 9#32, 9#32, 9#32⟩⟩ = .ok (.cmul 0x20 0x10 0x11) ∧
  decode ⟨0x00000110#32, ⟨0x200#32, 8#32, 4#32, 0#32, 0#32, 0#32, 0#32⟩⟩ = .ok (.basis true 0x200 8 4) ∧
  decode ⟨0x00000122#32, ⟨0x100#32, 0x200#32, 8#32, 0#32, 0#32, 0#32, 0#32⟩⟩ = .ok (.fft true 0x100 0x200 8) ∧
  decode ⟨0x00000034#32, ⟨0x500#32, 0x600#32, 4#32, 4#32, 1#32, 9#32, 0x700#32⟩⟩ =
    .ok (.fdir 0x500 0x600 4 4 1 9 0x700) ∧
  decode ⟨0x00000140#32, ⟨0x20#32, 0#32, 0x10#32, 2#32, 0#32, 0#32, 0#32⟩⟩ = .ok (.spmul true 0x20 0 0x10 2) ∧
  decode ⟨0x00000151#32, ⟨0x300#32, 0x100#32, 4#32, 3#32, 2#32, 4#32, 0x180#32⟩⟩ =
    .ok (.olasel 0x300 0x100 4 3 2 4 (some 0x180))

/-- R58: `P3` holds bits 31:0 of the factor and `P4` bits 63:32, and every pattern is accepted. -/
def Obligations.ScaleFactorIsAssembled : Prop :=
  (∀ p : Params, decode ⟨0x00000006#32, p⟩ =
    .ok (.cscale p.p1.toNat p.p2.toNat (BitVec.ofNat 64 (p.p4.toNat * 2 ^ 32 + p.p3.toNat)))) ∧
  ∀ f : F64, ∃ p3 p4 : Word, f.toNat = p4.toNat * 2 ^ 32 + p3.toNat

/-- R56: the transactions of an assembler line, issued while the block is IDLE, start exactly that command,
and none of them is left. -/
def Obligations.AssemblerLineStartsItsCommand : Prop :=
  ∀ (i : Instr) (s : State) (rest : List HostAct), i.wellFormed = true → s.busy = false → s.err = false →
    s.host = (assemble i).map later ++ rest →
    ∃ t, Host.Core.run Sys2Proof.core (assemble i).length s = .next t ∧
      t.busy = true ∧ decode t.latch = .ok i ∧ t.latch.cmd = i.cmdw ∧ t.host = rest ∧ t.dmem = s.dmem ∧
      t.replies = s.replies

/-! ## The host port (10_state.md, 20_memory.md) -/

/-- R32, R17, R21, R23: what `RegRead(n)` returns for each register number, and that it changes nothing. -/
def Obligations.RegisterReads : Prop :=
  ∀ (s : State) (n : Nat), n ≤ 15 → ∃ v,
    perform (.regRead n) s = .next { s with replies := s.replies ++ [.register v] } ∧
    (n = 1 → v = s.params.p1) ∧ (n = 2 → v = s.params.p2) ∧ (n = 3 → v = s.params.p3) ∧
    (n = 4 → v = s.params.p4) ∧ (n = 5 → v = s.params.p5) ∧ (n = 6 → v = s.params.p6) ∧
    (n = 7 → v = s.params.p7) ∧
    (n = 8 → v.toNat = (if s.busy then 1 else 0) + 2 * (if s.err then 1 else 0)) ∧
    (n = 9 → v.toNat = s.errCode.toNat) ∧ (n = 10 → v.toNat = s.errInfo.toNat) ∧ (n = 11 → v = s.errCmd) ∧
    (n = 0 ∨ 12 ≤ n → v = 0#32)

/-- R31, R18, R22: what `RegWrite(n, v)` does for each register number, while `BUSY = 0`. -/
def Obligations.RegisterWrites : Prop :=
  ∀ (s : State) (v : Word), s.busy = false →
    perform (.regWrite 0 v) s =
      .next (if s.err then s else { s with latch := ⟨v, s.params⟩, busy := true }) ∧
    perform (.regWrite 1 v) s = .next { s with params := { s.params with p1 := v } } ∧
    perform (.regWrite 2 v) s = .next { s with params := { s.params with p2 := v } } ∧
    perform (.regWrite 3 v) s = .next { s with params := { s.params with p3 := v } } ∧
    perform (.regWrite 4 v) s = .next { s with params := { s.params with p4 := v } } ∧
    perform (.regWrite 5 v) s = .next { s with params := { s.params with p5 := v } } ∧
    perform (.regWrite 6 v) s = .next { s with params := { s.params with p6 := v } } ∧
    perform (.regWrite 7 v) s = .next { s with params := { s.params with p7 := v } } ∧
    perform (.regWrite 12 v) s =
      .next (if v.getLsbD 0 && s.err then
          { s with err := false, errCode := 0#8, errInfo := 0#3, errCmd := 0#32 }
        else s) ∧
    ∀ n, (8 ≤ n ∧ n ≤ 11) ∨ (13 ≤ n ∧ n ≤ 15) → perform (.regWrite n v) s = .next s

/-- R18: a write to `CMD` is held while BUSY, discarded in ERROR, and in IDLE latches the eight words and
sets `BUSY`. -/
def Obligations.CommandAcceptance : Prop :=
  ∀ (s : State) (v : Word) (early : Bool) (rest : List HostAct), s.host = ⟨.regWrite 0 v, early⟩ :: rest →
    (s.busy = true → ∃ t, step s = .next t ∧ t.host = s.host ∧ t.busy = false) ∧
    (s.busy = false → s.err = true → step s = .next { s with host := rest }) ∧
    (s.busy = false → s.err = false →
      step s = .next { s with host := rest, latch := ⟨v, s.params⟩, busy := true })

/-- R33: while `BUSY = 1`, a read of a register completes at once, `Reset` is not held, and every other
transaction waits until the core has completed the command, then takes effect on the state it finds. -/
def Obligations.TransactionsAreHeldWhileBusy : Prop :=
  ∀ (s : State) (act : HostAct) (rest : List HostAct), s.busy = true → s.host = act :: rest →
    (∀ n, n ≤ 15 → act = ⟨.regRead n, true⟩ →
      step s = .next { s with host := rest, replies := s.replies ++ [.register (s.register n)] }) ∧
    (act = ⟨.reset, true⟩ → step s = .next ({ s with host := rest } : State).resetBlock) ∧
    ((∀ n, act.txn ≠ .regRead n) → act.txn ≠ .reset →
      ∃ t, step s = coreStep s ∧ step s = .next t ∧ t.busy = false ∧ t.host = act :: rest ∧
        step t = perform act.txn { t with host := rest })

/-- R34, R35: the host writes and reads one whole word; patterns are stored unchanged, no other word and no
register changes, and reading is idempotent. -/
def Obligations.HostMemoryAccess : Prop :=
  ∀ (s : State) (a : Nat), a < Config.block.dmemWords →
    (∀ re im, ∃ t, perform (.memWrite a re im) s = .next t ∧ t.word a = ⟨re, im⟩ ∧
      (∀ x, x ≠ a → t.word x = s.word x) ∧ t = { s with dmem := t.dmem }) ∧
    ∃ t, perform (.memRead a) s = .next t ∧
      t = { s with replies := s.replies ++ [.memory (s.word a).re (s.word a).im] } ∧ t.word a = s.word a

/-- R36: a transaction that names no register or no word of DMEM is refused on the bus and has no step. -/
def Obligations.NonexistentIsRefused : Prop :=
  ∀ (s : State) (n a : Nat) (v : Word) (re im : F64),
    (15 < n → perform (.regWrite n v) s = .refused (.noSuchRegister n) ∧
      perform (.regRead n) s = .refused (.noSuchRegister n)) ∧
    (Config.block.dmemWords ≤ a → perform (.memWrite a re im) s = .refused (.noSuchAddress a) ∧
      perform (.memRead a) s = .refused (.noSuchAddress a))

/-- R190, R24, R200: reset is taken in any condition, abandons a running command, and leaves every register
zero. That a word of DMEM then reads as the free value of its address is the model's form of "unspecified"
(log 6). -/
def Obligations.ResetTransaction : Prop :=
  ∀ (s : State) (rest : List HostAct), s.host = ⟨.reset, true⟩ :: rest → ∃ t, step s = .next t ∧
    t.params = .zero ∧ t.latch = ⟨0#32, .zero⟩ ∧ t.busy = false ∧ t.err = false ∧ t.errCode = 0#8 ∧
    t.errInfo = 0#3 ∧ t.errCmd = 0#32 ∧ t.host = rest ∧
    ∀ a, t.word a = Config.unwritten (s.dmem.epoch + 1) a

/-- R24: the state after reset. That a word of DMEM reads as the free value of its address is the model's form
of "unspecified" (log 6). -/
def Obligations.ResetState : Prop :=
  State.reset.condition = .idle ∧ (∀ n, n ≤ 15 → State.reset.register n = 0#32) ∧
  State.reset.latch = ⟨0#32, .zero⟩ ∧ ∀ a, State.reset.word a = Config.unwritten State.reset.dmem.epoch a

/-! ## The core (10_state.md R19, R20; 60_exceptions.md; 70_reset_and_hazards.md) -/

/-- R13, R19, R20, R33: what a step is, in every state. While `BUSY = 0` the host's next transaction takes effect,
on the state without it; while `BUSY = 1` so does a register read or a `Reset` that the host issues before the
core completes (log 2). Else, while BUSY, the step is the meaning of the latched command and adds nothing
around it; while `BUSY = 0` nothing happens (log 4). -/
def Obligations.StepRunsTheLatchedCommand : Prop :=
  (∀ (s : State) (i : Instr), s.busy = true → s.hostTurn = none → decode s.latch = .ok i → step s = exec i s) ∧
  (∀ s : State, s.busy = true → (s.hostTurn = none ↔ ∀ act rest, s.host = act :: rest →
    act.early = true → (∀ n, act.txn ≠ .regRead n) ∧ act.txn ≠ .reset)) ∧
  (∀ (s : State) (act : HostAct) (rest : List HostAct), s.host = act :: rest →
    (s.busy = false → step s = perform act.txn { s with host := rest }) ∧
    (s.busy = true → act.early = true → ((∃ n, act.txn = .regRead n) ∨ act.txn = .reset) →
      step s = perform act.txn { s with host := rest })) ∧
  ∀ s : State, s.busy = false → s.host = [] → step s = .next s

/-- R19, R177, R171, R172: a command either runs, or is rejected with one of the errors the block raises. -/
def Obligations.CommandsRunOrAreRejected : Prop :=
  ∀ (i : Instr) (s : State), ∃ t, exec i s = .next t ∧ (s.Ran t ∨ ∃ r ∈ raisable, s.RejectedAs r t)

/-- R175, with R173, R176, R178, R179: an illegal word is found before anything else; then the first failing
check of the table decides; a command no check of which fails runs. -/
def Obligations.ChecksInOrder : Prop :=
  (∀ (s : State) (e : Illegal), s.busy = true → s.hostTurn = none → decode s.latch = .error e →
    ∃ t, step s = .next t ∧ s.RejectedAs ⟨.illegalCommand, 0⟩ t) ∧
  ∀ (i : Instr) (s : State), RejectsByTable i s ∧ (Passes Config.block i → ∃ t, exec i s = .next t ∧ s.Ran t)

/-- R198: while `BUSY = 1` the completion is enabled whenever the host does not move, and it clears `BUSY`;
only it and `Reset` do; so every accepted command completes once the host stops reading. -/
def Obligations.EveryCommandCompletes : Prop :=
  (∀ s : State, s.busy = true → s.hostTurn = none → ∃ t, step s = .next t ∧ t.busy = false ∧ t.host = s.host) ∧
  (∀ s t : State, s.busy = true → step s = .next t → t.busy = false →
    s.hostTurn = none ∨ ∃ s', s.hostTurn = some (.reset, s')) ∧
  (∀ s : State, s.busy = true → (∀ act ∈ s.host, ∀ n, act.txn = .regRead n → n ≤ 15) →
    ∃ k t, k ≤ s.host.length + 1 ∧ Host.Core.run Sys2Proof.core k s = .next t ∧ t.busy = false)

/-- R20: the conditions change only as R20 lists. -/
def Obligations.ConditionChanges : Prop :=
  ∀ s t : State, s.Inv → step s = .next t → s.condition ≠ t.condition →
    (s.condition = .idle ∧ t.condition = .busy ∧ ∃ v s', s.hostTurn = some (.regWrite 0 v, s')) ∨
    (s.condition = .busy ∧ s.hostTurn = none) ∨
    (s.condition = .error ∧ t.condition = .idle ∧ ∃ v s', s.hostTurn = some (.regWrite 12 v, s') ∧
      v.getLsbD 0 = true) ∨
    (t.condition = .idle ∧ ∃ s', s.hostTurn = some (.reset, s'))

/-- R38, R33: a command is atomic: until its completion no step of the host but `Reset` changes a word of DMEM,
a parameter register, the latched command or an error register. -/
def Obligations.NothingChangesUnderACommand : Prop :=
  ∀ s t : State, s.busy = true → step s = .next t → s.hostTurn ≠ none → (∀ s', s.hostTurn ≠ some (.reset, s')) →
    t = { s with host := t.host, replies := t.replies }

/-- R11, R168: only the host's `RegWrite` to it and `Reset` change a parameter register. -/
def Obligations.ParametersChangeOnlyByTheHost : Prop :=
  ∀ s t : State, step s = .next t → t.params ≠ s.params →
    (∃ n v s', 1 ≤ n ∧ n ≤ 7 ∧ s.hostTurn = some (.regWrite n v, s') ∧ t.params = s.params.set n v) ∨
    (∃ s', s.hostTurn = some (.reset, s') ∧ t.params = .zero)

/-- R181, R180: while an error is pending a write to `CMD` has no effect, and `ERR` and the error registers stay
until `CTRL.CLRERR` or a reset. -/
def Obligations.PendingErrorPersists : Prop :=
  ∀ s t : State, s.busy = false → s.err = true → step s = .next t →
    (∀ v s', s.hostTurn = some (.regWrite 0 v, s') → t = s') ∧
    ((∀ v s', s.hostTurn = some (.regWrite 12 v, s') → v.getLsbD 0 = false) →
      (∀ s', s.hostTurn ≠ some (.reset, s')) →
      t.err = true ∧ t.errCode = s.errCode ∧ t.errInfo = s.errInfo ∧ t.errCmd = s.errCmd ∧ t.busy = false) ∧
    (∀ v s', s.hostTurn = some (.regWrite 12 v, s') → v.getLsbD 0 = true →
      t.condition = .idle ∧ t.errCode = 0#8 ∧ t.errInfo = 0#3 ∧ t.errCmd = 0#32)

/-- R25, R16: the size of DMEM and the other constants are configuration. The machine is one instance,
`Config.block`; and for EVERY instance, of whatever size from 1 to 2^32 words, a command is rejected exactly by
the table of R175 for that size and else runs, the host reaches exactly the words of that size, and no step
writes a word outside it. So no other statement need rest on the number that `Config.block` has (log 8). -/
def Obligations.EveryInstanceKeepsToItsSize : Prop :=
  (∀ i s, exec i s = execOn Config.block i s) ∧ (∀ s, step s = stepOn Config.block s) ∧
  ∀ c : BlockConfig, 1 ≤ c.dmemWords ∧ c.dmemWords ≤ 2 ^ 32 ∧
    (∀ (i : Instr) (s : State) (r : Rejection), Decides (failureTable c.dmemWords i) (some r) →
      ∃ t, execOn c i s = .next t ∧ s.RejectedAs r t) ∧
    (∀ (i : Instr) (s : State), Passes c i → ∃ t, execOn c i s = .next t ∧ s.Ran t) ∧
    (∀ (s : State) (a : Nat) (re im : F64),
      (performOn c (.memWrite a re im) s = .refused (.noSuchAddress a) ↔ c.dmemWords ≤ a) ∧
      (performOn c (.memRead a) s = .refused (.noSuchAddress a) ↔ c.dmemWords ≤ a)) ∧
    ∀ s t : State, s.InvOn c → stepOn c s = .next t → t.InvOn c

/-- R13, R16, R17, R21, R45: the invariant of the block is kept by every step, from every state that has it. -/
def Obligations.StepKeepsTheInvariant : Prop :=
  ∀ s t : State, s.Inv → step s = .next t → t.Inv

/-- R24: the invariant holds after reset. -/
def Obligations.ResetHasTheInvariant : Prop := State.reset.Inv

/-! ## Binary64 (40_complex_arithmetic.md R70, R71, R74) -/

/-- R70: a sum or difference of finite values is the exact one rounded once. What that says of overflow is the
spec's table "from general knowledge" (log 15). -/
def Obligations.SumIsRoundedOnce : Prop :=
  ∀ (u : Fpu) (x y : F64), isFinite x = true → isFinite y = true →
    RoundedOnce (signedUnits x + signedUnits y) 1 (fadd u x y) ∧
    RoundedOnce (signedUnits x - signedUnits y) 1 (fsub u x y)

/-- R70: a product of finite values is the exact one rounded once (overflow: log 15). -/
def Obligations.ProductIsRoundedOnce : Prop :=
  ∀ (u : Fpu) (x y : F64), isFinite x = true → isFinite y = true →
    RoundedOnce (signedUnits x * signedUnits y) unitsPerOne (fmul u x y)

/-- R70: a quotient of finite values, by a nonzero one, is the exact one rounded once (overflow: log 15). -/
def Obligations.QuotientIsRoundedOnce : Prop :=
  ∀ (u : Fpu) (x y : F64), isFinite x = true → isFinite y = true → isZero y = false →
    RoundedOnce ((if signBit y then -1 else 1) * signedUnits x * (unitsPerOne : Int)) (units y) (fdiv u x y)

/-- The table of section 1 of 40_complex_arithmetic.md, which the spec gives "from general knowledge, not in
source" (log 15), with the IEEE 754 results for an infinite operand that the table leaves out (log 15): where
the result is a NaN, and where it is an infinity or a signed zero, with its sign. -/
def Obligations.SpecialResults : Prop :=
  ∀ (u : Fpu) (x y : F64),
    (isNaN x = true ∨ isNaN y = true → isNaN (fadd u x y) = true ∧ isNaN (fsub u x y) = true ∧
      isNaN (fmul u x y) = true ∧ isNaN (fdiv u x y) = true) ∧
    (isNaN x = false → isNaN y = false →
      fsub u x y = fadd u x (fneg y) ∧
      (isInfinite x = true → isInfinite y = true → signBit x ≠ signBit y → isNaN (fadd u x y) = true) ∧
      (isZero x = true → isInfinite y = true → isNaN (fmul u x y) = true ∧ isNaN (fmul u y x) = true) ∧
      (isZero x = true → isZero y = true → isNaN (fdiv u x y) = true) ∧
      (isInfinite x = true → isInfinite y = true → isNaN (fdiv u x y) = true) ∧
      (isInfinite x = true → isFinite y = true →
        fadd u x y = x ∧ fadd u y x = x ∧ isInfinite (fdiv u x y) = true ∧ isZero (fdiv u y x) = true) ∧
      (isInfinite x = true → isInfinite y = true → signBit x = signBit y → fadd u x y = x) ∧
      (isInfinite x = true → isZero y = false →
        isInfinite (fmul u x y) = true ∧ isInfinite (fmul u y x) = true) ∧
      (isFinite x = true → isZero x = false → isZero y = true →
        isInfinite (fdiv u x y) = true ∧ signBit (fdiv u x y) = (signBit x != signBit y)) ∧
      (isZero (fmul u x y) = true ∨ isInfinite (fmul u x y) = true →
        signBit (fmul u x y) = (signBit x != signBit y)) ∧
      (isZero (fdiv u x y) = true ∨ isInfinite (fdiv u x y) = true →
        signBit (fdiv u x y) = (signBit x != signBit y)) ∧
      (isFinite x = true → y = fneg x → isZero x = false → fadd u x y = 0#64)) ∧
    fadd u 0#64 (fneg 0#64) = 0#64 ∧ fadd u (fneg 0#64) (fneg 0#64) = fneg 0#64

/-- `cmul(x, y)` and `cmul(y, x)` have the same patterns whenever no NaN is involved: the spec's inference
"Because `fmul` and `fadd` are commutative on non-NaN values" (R74, "derived: from rule R70"). -/
def Obligations.MultiplicationCommutes : Prop :=
  ∀ (u : Fpu) (x y : CWord),
    isNaN (fmul u x.re y.re) = false → isNaN (fmul u x.im y.im) = false →
    isNaN (fmul u x.re y.im) = false → isNaN (fmul u x.im y.re) = false →
    isNaN (fsub u (fmul u x.re y.re) (fmul u x.im y.im)) = false →
    isNaN (fadd u (fmul u x.re y.im) (fmul u x.im y.re)) = false →
    cmul u x y = cmul u y x

/-! ## Control and complex arithmetic (46_control.md, 40_complex_arithmetic.md) -/

/-- R165: `NOP`. -/
def Obligations.NopRule : Prop :=
  ∀ s : State, Instr.nop.cmdw = 0x00000000#32 ∧ ∃ t, exec .nop s = .next t ∧ s.Ran t ∧ t.dmem = s.dmem

/-- R79, R78, R72: `CADD`. -/
def Obligations.CaddRule : Prop :=
  ∀ (s : State) (dst a b : Nat), (Instr.cadd dst a b).cmdw = 0x00000001#32 ∧ RejectsByTable (.cadd dst a b) s ∧
    (dst < Config.block.dmemWords → a < Config.block.dmemWords → b < Config.block.dmemWords →
      RunsTo (.cadd dst a b) s fun x z =>
      (x = dst → z = ⟨fadd s.fpu (s.word a).re (s.word b).re, fadd s.fpu (s.word a).im (s.word b).im⟩) ∧
      (x ≠ dst → z = s.word x))

/-- R80, R78, R73: `CSUB`. -/
def Obligations.CsubRule : Prop :=
  ∀ (s : State) (dst a b : Nat), (Instr.csub dst a b).cmdw = 0x00000002#32 ∧ RejectsByTable (.csub dst a b) s ∧
    (dst < Config.block.dmemWords → a < Config.block.dmemWords → b < Config.block.dmemWords →
      RunsTo (.csub dst a b) s fun x z =>
      (x = dst → z = ⟨fsub s.fpu (s.word a).re (s.word b).re, fsub s.fpu (s.word a).im (s.word b).im⟩) ∧
      (x ≠ dst → z = s.word x))

/-- R81, R78, R74: `CMUL`. -/
def Obligations.CmulRule : Prop :=
  ∀ (s : State) (dst a b : Nat), (Instr.cmul dst a b).cmdw = 0x00000003#32 ∧ RejectsByTable (.cmul dst a b) s ∧
    (dst < Config.block.dmemWords → a < Config.block.dmemWords → b < Config.block.dmemWords →
      RunsTo (.cmul dst a b) s fun x z =>
      (x = dst → z =
        ⟨fsub s.fpu (fmul s.fpu (s.word a).re (s.word b).re) (fmul s.fpu (s.word a).im (s.word b).im),
         fadd s.fpu (fmul s.fpu (s.word a).re (s.word b).im) (fmul s.fpu (s.word a).im (s.word b).re)⟩) ∧
      (x ≠ dst → z = s.word x))

/-- R82, R78, R75: `CDIV`. It is never rejected for its divisor; by a zero magnitude the word written is any
value (U2), so nothing is said of it. -/
def Obligations.CdivRule : Prop :=
  ∀ (s : State) (dst a b : Nat), (Instr.cdiv dst a b).cmdw = 0x00000004#32 ∧ RejectsByTable (.cdiv dst a b) s ∧
    (dst < Config.block.dmemWords → a < Config.block.dmemWords → b < Config.block.dmemWords →
      RunsTo (.cdiv dst a b) s fun x z =>
      (x = dst → ¬ (isZero (s.word b).re = true ∧ isZero (s.word b).im = true) →
        let den := fadd s.fpu (fmul s.fpu (s.word b).re (s.word b).re) (fmul s.fpu (s.word b).im (s.word b).im)
        z = ⟨fdiv s.fpu (fadd s.fpu (fmul s.fpu (s.word a).re (s.word b).re)
                (fmul s.fpu (s.word a).im (s.word b).im)) den,
             fdiv s.fpu (fsub s.fpu (fmul s.fpu (s.word a).im (s.word b).re)
                (fmul s.fpu (s.word a).re (s.word b).im)) den⟩) ∧
      (x ≠ dst → z = s.word x))

/-- R83, R78, R76: `CCONJ`; only the sign bit of `im` changes. -/
def Obligations.CconjRule : Prop :=
  ∀ (s : State) (dst a : Nat), (Instr.cconj dst a).cmdw = 0x00000005#32 ∧ RejectsByTable (.cconj dst a) s ∧
    (dst < Config.block.dmemWords → a < Config.block.dmemWords → RunsTo (.cconj dst a) s fun x z =>
      (x = dst → z.re = (s.word a).re ∧ signBit z.im = !signBit (s.word a).im ∧
        ∀ k, k < 63 → z.im.getLsbD k = (s.word a).im.getLsbD k) ∧
      (x ≠ dst → z = s.word x))

/-- R84, R78, R77: `CSCALE`. -/
def Obligations.CscaleRule : Prop :=
  ∀ (s : State) (dst a : Nat) (factor : F64),
    (Instr.cscale dst a factor).cmdw = 0x00000006#32 ∧ RejectsByTable (.cscale dst a factor) s ∧
    (dst < Config.block.dmemWords → a < Config.block.dmemWords → RunsTo (.cscale dst a factor) s fun x z =>
      (x = dst → z = ⟨fmul s.fpu (s.word a).re factor, fmul s.fpu (s.word a).im factor⟩) ∧
      (x ≠ dst → z = s.word x))

/-! ## Twiddle generator (41_twiddle.md) -/

/-- R93: `BASIS`. -/
def Obligations.BasisRule : Prop :=
  ∀ (s : State) (inv : Bool) (dst period size : Nat),
    (Instr.basis inv dst period size).cmdw = (if inv then 0x00000110#32 else 0x00000010#32) ∧
    RejectsByTable (.basis inv dst period size) s ∧
    (period ≠ 0 → dst + size ≤ Config.block.dmemWords → RunsTo (.basis inv dst period size) s fun x z =>
      (∀ k, k < size → x = dst + k → z = Config.tw inv period k) ∧
      (¬ InRegion dst size x → z = s.word x))

/-! ## Bit reversal, butterfly, normalisation, transform (42_fft.md) -/

/-- R3: bit `n - 1 - b` of `rev_n(i)` is bit `b` of `i`, and `rev_n(i)` is below `2^n`. -/
def Obligations.ReversalOfBits : Prop :=
  ∀ n i : Nat, i < 2 ^ n → rev n i < 2 ^ n ∧ (∀ b, b < n → (rev n i).testBit (n - 1 - b) = i.testBit b) ∧
    rev n (rev n i) = i

/-- `BITREV` (R101) by its net effect, `X'[i] = X[rev_n(i)]` for every `i`: the spec's inference from its loop
("Net effect", "derived: from rule R3"). -/
def Obligations.BitrevRule : Prop :=
  ∀ (s : State) (data len : Nat), (Instr.bitrev data len).cmdw = 0x00000020#32 ∧
    RejectsByTable (.bitrev data len) s ∧
    ∀ n, len = 2 ^ n → data + len ≤ Config.block.dmemWords → RunsTo (.bitrev data len) s fun x z =>
      (∀ i, i < len → x = data + i → z = s.word (data + rev n i)) ∧
      (¬ InRegion data len x → z = s.word x)

/-- R102: `BFLY`, block by block and pair by pair, in terms of DMEM before the command; element `i = 0` of an
upper half is not multiplied. -/
def Obligations.BflyRule : Prop :=
  ∀ (s : State) (data roots len depth : Nat), (Instr.bfly data roots len depth).cmdw = 0x00000021#32 ∧
    RejectsByTable (.bfly data roots len depth) s ∧
    ∀ n, len = 2 ^ n → depth < n → data + len ≤ Config.block.dmemWords →
      roots + len / 2 ≤ Config.block.dmemWords →
      ¬ Share data len roots (len / 2) →
      RunsTo (.bfly data roots len depth) s fun x z =>
        (∀ block i, block < len / (2 * 2 ^ depth) → i < 2 ^ depth →
          let lower := data + block * (2 * 2 ^ depth) + i
          let upper := lower + 2 ^ depth
          let a := s.word lower
          let b := if i = 0 then s.word upper
            else cmul s.fpu (s.word upper) (s.word (roots + i * (len / (2 * 2 ^ depth))))
          (x = lower → z = cadd s.fpu a b) ∧ (x = upper → z = csub s.fpu a b)) ∧
        (¬ InRegion data len x → z = s.word x)

/-- R103: `NORM`; the factor is exactly `1/L`. -/
def Obligations.NormRule : Prop :=
  ∀ (s : State) (data len : Nat), (Instr.norm data len).cmdw = 0x00000023#32 ∧
    RejectsByTable (.norm data len) s ∧
    ∀ n, len = 2 ^ n → data + len ≤ Config.block.dmemWords →
      ∃ f : F64, isFinite f = true ∧ signBit f = false ∧ units f * len = unitsPerOne ∧
        RunsTo (.norm data len) s fun x z =>
          (∀ i, i < len → x = data + i → z = cscale s.fpu (s.word x) f) ∧
          (¬ InRegion data len x → z = s.word x)

/-- R104: `FFT` is the Operation of `BITREV`, then of `BFLY` for each depth in ascending order, then of `NORM`
with the flag, on one region; no word outside the data region changes. -/
def Obligations.FftRule : Prop :=
  ∀ (s : State) (norm : Bool) (data roots len : Nat),
    (Instr.fft norm data roots len).cmdw = (if norm then 0x00000122#32 else 0x00000022#32) ∧
    RejectsByTable (.fft norm data roots len) s ∧
    ∀ n, len = 2 ^ n → data + len ≤ Config.block.dmemWords → roots + len / 2 ≤ Config.block.dmemWords →
      ¬ Share data len roots (len / 2) →
      ∃ t, exec (.fft norm data roots len) s = .next t ∧ s.Ran t ∧
        (∃ stages : Nat → Memory,
          stages 0 = (bitrevMeaning Config.block data len).operation s.dmem ∧
          (∀ d, d < n → stages (d + 1) =
            (bflyMeaning Config.block s.draws data roots len d).operation (stages d)) ∧
          t.dmem = if norm then (normMeaning Config.block s.draws data len).operation (stages n)
            else stages n) ∧
        ∀ x, ¬ InRegion data len x → t.word x = s.word x

/-! ## Filter masks (43_filter_mask.md) -/

/-- R125, R123, R124: `FLOW`. -/
def Obligations.FlowRule : Prop :=
  ∀ (s : State) (src dst h w t1 : Nat), (Instr.flow src dst h w t1).cmdw = 0x00000030#32 ∧
    RejectsByTable (.flow src dst h w t1) s ∧
    ((h * w ≠ 0 → h ≠ 1 ∧ w ≠ 1) → src + h * w ≤ Config.block.dmemWords → dst + h * w ≤ Config.block.dmemWords →
      (src = dst ∨ ¬ Share src (h * w) dst (h * w)) →
      RunsTo (.flow src dst h w t1) s
        (FilterWrites s src dst h w (Reached h w fun distSq => t1 ≤ distSq)))

/-- R126, R123, R124: `FHIGH`; with `PM` the coefficient at the reference origin is kept. -/
def Obligations.FhighRule : Prop :=
  ∀ (s : State) (pm : Bool) (src dst h w t1 : Nat),
    (Instr.fhigh pm src dst h w t1).cmdw = (if pm then 0x00000131#32 else 0x00000031#32) ∧
    RejectsByTable (.fhigh pm src dst h w t1) s ∧
    ((h * w ≠ 0 → h ≠ 1 ∧ w ≠ 1) → src + h * w ≤ Config.block.dmemWords → dst + h * w ≤ Config.block.dmemWords →
      (src = dst ∨ ¬ Share src (h * w) dst (h * w)) →
      RunsTo (.fhigh pm src dst h w t1) s
        (FilterWrites s src dst h w fun y x =>
          Reached h w (fun distSq => distSq < t1) y x ∧
          ¬ (pm = true ∧ y = (h + 1) / 2 ∧ x = (w + 1) / 2)))

/-- R127, R123, R124: `FBPASS`. -/
def Obligations.FbpassRule : Prop :=
  ∀ (s : State) (src dst h w t1 t2 : Nat), (Instr.fbpass src dst h w t1 t2).cmdw = 0x00000032#32 ∧
    RejectsByTable (.fbpass src dst h w t1 t2) s ∧
    ((h * w ≠ 0 → h ≠ 1 ∧ w ≠ 1) → src + h * w ≤ Config.block.dmemWords → dst + h * w ≤ Config.block.dmemWords →
      (src = dst ∨ ¬ Share src (h * w) dst (h * w)) →
      RunsTo (.fbpass src dst h w t1 t2) s
        (FilterWrites s src dst h w (Reached h w fun distSq => ¬ (t1 ≤ distSq ∧ distSq < t2))))

/-- R128, R123, R124: `FBSTOP`. -/
def Obligations.FbstopRule : Prop :=
  ∀ (s : State) (src dst h w t1 t2 : Nat), (Instr.fbstop src dst h w t1 t2).cmdw = 0x00000033#32 ∧
    RejectsByTable (.fbstop src dst h w t1 t2) s ∧
    ((h * w ≠ 0 → h ≠ 1 ∧ w ≠ 1) → src + h * w ≤ Config.block.dmemWords → dst + h * w ≤ Config.block.dmemWords →
      (src = dst ∨ ¬ Share src (h * w) dst (h * w)) →
      RunsTo (.fbstop src dst h w t1 t2) s
        (FilterWrites s src dst h w (Reached h w fun distSq => t1 ≤ distSq ∧ distSq < t2)))

/-- R129, R123, R124: `FDIR`, for whatever angular predicate the block has (R131). -/
def Obligations.FdirRule : Prop :=
  ∀ (s : State) (src dst h w t1 t2 cfg : Nat), (Instr.fdir src dst h w t1 t2 cfg).cmdw = 0x00000034#32 ∧
    RejectsByTable (.fdir src dst h w t1 t2 cfg) s ∧
    ((h * w ≠ 0 → h ≠ 1 ∧ w ≠ 1) → src + h * w ≤ Config.block.dmemWords →
      dst + h * w ≤ Config.block.dmemWords → cfg < Config.block.dmemWords →
      (src = dst ∨ ¬ Share src (h * w) dst (h * w)) → ¬ Share cfg 1 dst (h * w) →
      RunsTo (.fdir src dst h w t1 t2 cfg) s
        (FilterWrites s src dst h w fun y x =>
          ∃ sy sx, sy ≤ (h + 1) / 2 ∧ sx ≤ (w + 1) / 2 ∧
            let dy := (h + 1) / 2 - sy
            let dx := (w + 1) / 2 - sx
            let inAnn := t1 ≤ dy ^ 2 + dx ^ 2 ∧ dy ^ 2 + dx ^ 2 < t2
            let wedge pair := Config.dirPred pair dy dx (s.word cfg).re (s.word cfg).im = true
            (¬ (inAnn ∧ wedge .a) ∧ ((y = sy ∧ x = sx) ∨ (y = (h - sy) % h ∧ x = (w - sx) % w))) ∨
            (¬ (inAnn ∧ wedge .b) ∧ ((y = (h - sy) % h ∧ x = sx) ∨ (y = sy ∧ x = (w - sx) % w)))))

/-- R132: after `FLOW`, `FHIGH` without `PM`, `FBPASS` or `FBSTOP`, all four symmetric positions of a scanned
coordinate whose rule fired are zero. -/
def Obligations.FilterSymmetry : Prop :=
  ∀ (s : State) (i : Instr) (src dst h w t1 t2 : Nat) (fires : Nat → Prop),
    (i = .flow src dst h w t1 ∧ fires = (fun distSq => t1 ≤ distSq)) ∨
    (i = .fhigh false src dst h w t1 ∧ fires = (fun distSq => distSq < t1)) ∨
    (i = .fbpass src dst h w t1 t2 ∧ fires = (fun distSq => ¬ (t1 ≤ distSq ∧ distSq < t2))) ∨
    (i = .fbstop src dst h w t1 t2 ∧ fires = (fun distSq => t1 ≤ distSq ∧ distSq < t2)) →
    Passes Config.block i → h * w ≠ 0 →
    ∃ t, exec i s = .next t ∧
      ∀ sy sx, sy ≤ (h + 1) / 2 → sx ≤ (w + 1) / 2 → fires (((h + 1) / 2 - sy) ^ 2 + ((w + 1) / 2 - sx) ^ 2) →
        t.word (dst + sy * w + sx) = .zero ∧ t.word (dst + (h - sy) % h * w + sx) = .zero ∧
        t.word (dst + sy * w + (w - sx) % w) = .zero ∧ t.word (dst + (h - sy) % h * w + (w - sx) % w) = .zero

/-- R128: on grids with both dimensions even, `FBSTOP` zeroes exactly the coefficients `FBPASS` keeps. -/
def Obligations.BandFiltersAreComplements : Prop :=
  ∀ h w t1 t2 y x : Nat, h % 2 = 0 → w % 2 = 0 → y < h → x < w →
    ((y, x) ∈ zeroSet h w (stopZero h w t1 t2) ↔ (y, x) ∉ zeroSet h w (passZero h w t1 t2))

/-! ## Convolution multiplier (44_convolution_multiplier.md) -/

/-- R141: `SPMUL`. -/
def Obligations.SpmulRule : Prop :=
  ∀ (s : State) (cj : Bool) (dst a b n : Nat),
    (Instr.spmul cj dst a b n).cmdw = (if cj then 0x00000140#32 else 0x00000040#32) ∧
    RejectsByTable (.spmul cj dst a b n) s ∧
    (dst + n ≤ Config.block.dmemWords → a + n ≤ Config.block.dmemWords → b + n ≤ Config.block.dmemWords →
      (dst = a ∨ ¬ Share dst n a n) → (dst = b ∨ ¬ Share dst n b n) →
      RunsTo (.spmul cj dst a b n) s fun x z =>
        (∀ j, j < n → x = dst + j → z = if cj then cmul s.fpu (s.word (a + j)) (cconj (s.word (b + j)))
          else cmul s.fpu (s.word (a + j)) (s.word (b + j))) ∧
        (¬ InRegion dst n x → z = s.word x))

/-- R141: a value times its own conjugate has the imaginary part `+0.0` whenever the mixed product is finite. -/
def Obligations.PowerSpectrumIsReal : Prop :=
  ∀ (u : Fpu) (z : CWord), isFinite z.re = true → isFinite z.im = true → isFinite (fmul u z.re z.im) = true →
    (cmul u z (cconj z)).im = 0#64

/-! ## Overlap-add (45_overlap_add.md) -/

/-- R151: `OLACLR`. -/
def Obligations.OlaclrRule : Prop :=
  ∀ (s : State) (dst n : Nat), (Instr.olaclr dst n).cmdw = 0x00000050#32 ∧ RejectsByTable (.olaclr dst n) s ∧
    (dst + n ≤ Config.block.dmemWords → RunsTo (.olaclr dst n) s fun x z =>
      (InRegion dst n x → z = ⟨0#64, 0#64⟩) ∧ (¬ InRegion dst n x → z = s.word x))

/-- R152: `OLASEL`, in terms of DMEM before the command. -/
def Obligations.OlaselRule : Prop :=
  ∀ (s : State) (dst sig n off winLen padLen : Nat) (taper : Option Nat),
    (Instr.olasel dst sig n off winLen padLen taper).cmdw =
      (if taper.isSome then 0x00000151#32 else 0x00000051#32) ∧
    RejectsByTable (.olasel dst sig n off winLen padLen taper) s ∧
    (winLen ≤ padLen → dst + padLen ≤ Config.block.dmemWords → sig + n ≤ Config.block.dmemWords →
      (∀ t, taper = some t → t + winLen ≤ Config.block.dmemWords) → ¬ Share sig n dst padLen →
      (∀ t, taper = some t → ¬ Share t winLen dst padLen) →
      RunsTo (.olasel dst sig n off winLen padLen taper) s fun x z =>
        (∀ j, j < padLen → x = dst + j →
          (j < winLen → off + j < n → taper = none → z = s.word (sig + off + j)) ∧
          (∀ t, j < winLen → off + j < n → taper = some t →
            z = cscale s.fpu (s.word (sig + off + j)) (s.word (t + j)).re) ∧
          (winLen ≤ j ∨ n ≤ off + j → z = ⟨0#64, 0#64⟩)) ∧
        (¬ InRegion dst padLen x → z = s.word x))

/-- R153: `OLAACC`, in terms of DMEM before the command. -/
def Obligations.OlaaccRule : Prop :=
  ∀ (s : State) (re : Bool) (dst src n : Nat),
    (Instr.olaacc re dst src n).cmdw = (if re then 0x00000152#32 else 0x00000052#32) ∧
    RejectsByTable (.olaacc re dst src n) s ∧
    (dst + n ≤ Config.block.dmemWords → src + n ≤ Config.block.dmemWords → ¬ Share dst n src n →
      RunsTo (.olaacc re dst src n) s fun x z =>
        (∀ j, j < n → x = dst + j →
          z = cadd s.fpu (s.word (dst + j))
            (if re then ⟨(s.word (src + j)).re, 0#64⟩ else s.word (src + j))) ∧
        (¬ InRegion dst n x → z = s.word x))
end

