-- ==== Sys2Proof/Laws/Binary64.lean ====
section
/-! SUPPORT. Binary64 (40_complex_arithmetic.md R70): the fields of a pattern, and that rounding a quotient of
naturals gives a nearest value, with an even last place on a tie. -/

namespace Sys2Proof.Machine

/-! ## Fields -/

theorem exponentField_eq (x : F64) : exponentField x = x.toNat / 2 ^ 52 % 2 ^ 11 := by
  simp [exponentField, BitVec.extractLsb'_toNat, Nat.shiftRight_eq_div_pow]

theorem fractionField_eq (x : F64) : fractionField x = x.toNat % 2 ^ 52 := by
  simp [fractionField, BitVec.extractLsb'_toNat]

theorem signBit_eq (x : F64) : signBit x = decide (2 ^ 63 ≤ x.toNat) := by
  unfold signBit
  rw [← BitVec.testBit_toNat, Nat.testBit_eq_decide_div_mod_eq]
  have := x.isLt
  refine decide_eq_decide.2 ?_
  omega

/-- A pattern is its three fields. -/
theorem toNat_eq_fields (x : F64) :
    x.toNat = (signBit x).toNat * 2 ^ 63 + (exponentField x * 2 ^ 52 + fractionField x) := by
  have hx := x.isLt
  rw [exponentField_eq, fractionField_eq, signBit_eq]
  by_cases h : 2 ^ 63 ≤ x.toNat
  · simp only [h, decide_true, Bool.toNat_true]
    omega
  · simp only [h, decide_false, Bool.toNat_false]
    omega

/-- Two patterns with the same fields are the same. -/
theorem eq_of_fields {x y : F64} (hs : signBit x = signBit y) (he : exponentField x = exponentField y)
    (hf : fractionField x = fractionField y) : x = y := by
  refine BitVec.eq_of_toNat_eq ?_
  rw [toNat_eq_fields x, toNat_eq_fields y, hs, he, hf]

theorem exponentField_lt (x : F64) : exponentField x < 2048 := by
  rw [exponentField_eq]
  exact Nat.mod_lt _ (by decide)

theorem fractionField_lt (x : F64) : fractionField x < 2 ^ 52 := by
  rw [fractionField_eq]
  exact Nat.mod_lt _ (by decide)

theorem pack_toNat (neg : Bool) (m : Nat) : (pack neg m).toNat = neg.toNat * 2 ^ 63 + min m infinityField := by
  unfold pack
  rw [BitVec.toNat_ofNat]
  refine Nat.mod_eq_of_lt ?_
  have : infinityField = 2047 * 2 ^ 52 := rfl
  cases neg <;> simp only [Bool.toNat_true, Bool.toNat_false] <;> omega

theorem signBit_pack (neg : Bool) (m : Nat) : signBit (pack neg m) = neg := by
  rw [signBit_eq, pack_toNat]
  have : infinityField = 2047 * 2 ^ 52 := rfl
  cases neg
  · simp only [Bool.toNat_false, decide_eq_false_iff_not]
    omega
  · simp only [Bool.toNat_true, decide_eq_true_eq]
    omega

theorem exponentField_pack (neg : Bool) (m : Nat) : exponentField (pack neg m) = min m infinityField / 2 ^ 52 := by
  rw [exponentField_eq, pack_toNat]
  have : infinityField = 2047 * 2 ^ 52 := rfl
  cases neg <;> simp only [Bool.toNat_true, Bool.toNat_false] <;> omega

theorem fractionField_pack (neg : Bool) (m : Nat) : fractionField (pack neg m) = min m infinityField % 2 ^ 52 := by
  rw [fractionField_eq, pack_toNat]
  cases neg <;> simp only [Bool.toNat_true, Bool.toNat_false] <;> omega

theorem isFinite_pack (neg : Bool) (m : Nat) : isFinite (pack neg m) = decide (m < infinityField) := by
  unfold isFinite
  rw [exponentField_pack, bne, Bool.eq_iff_iff, decide_eq_true_iff, Bool.not_eq_true', beq_eq_false_iff_ne]
  have : infinityField = 2047 * 2 ^ 52 := rfl
  omega

theorem isInfinite_pack (neg : Bool) (m : Nat) : isInfinite (pack neg m) = decide (infinityField ≤ m) := by
  unfold isInfinite
  rw [exponentField_pack, fractionField_pack, Bool.eq_iff_iff, decide_eq_true_iff, Bool.and_eq_true, beq_iff_eq,
    beq_iff_eq]
  have : infinityField = 2047 * 2 ^ 52 := rfl
  omega

theorem isNaN_pack (neg : Bool) (m : Nat) : isNaN (pack neg m) = false := by
  unfold isNaN
  rw [exponentField_pack, fractionField_pack, Bool.and_eq_false_iff, beq_eq_false_iff_ne, bne_eq_false_iff_eq]
  have : infinityField = 2047 * 2 ^ 52 := rfl
  omega

theorem isNaN_nanResult (u : Fpu) (op : FOp) (x y : F64) : isNaN (nanResult u op x y) = true := by
  unfold nanResult
  split
  · assumption
  · rfl

theorem isNaN_of_isFinite {x : F64} (h : isFinite x = true) : isNaN x = false := by
  unfold isFinite at h
  unfold isNaN
  rw [bne_iff_ne] at h
  simp [h]

theorem isInfinite_of_isFinite {x : F64} (h : isFinite x = true) : isInfinite x = false := by
  unfold isFinite at h
  unfold isInfinite
  rw [bne_iff_ne] at h
  simp [h]

/-- A pattern is finite, infinite or a NaN. -/
theorem class_cases (x : F64) : isFinite x = true ∨ isInfinite x = true ∨ isNaN x = true := by
  unfold isFinite isInfinite isNaN
  by_cases h1 : exponentField x = 2047
  · by_cases h2 : fractionField x = 0 <;> simp [h1, h2]
  · simp [h1]

theorem isInfinite_not_isZero {x : F64} (h : isInfinite x = true) : isZero x = false := by
  unfold isInfinite at h
  unfold isZero
  rw [Bool.and_eq_true, beq_iff_eq, beq_iff_eq] at h
  simp [h.1]

theorem isInfinite_not_isNaN {x : F64} (h : isInfinite x = true) : isNaN x = false := by
  unfold isInfinite at h
  unfold isNaN
  rw [Bool.and_eq_true, beq_iff_eq, beq_iff_eq] at h
  simp [h.2]

theorem isZero_isFinite {x : F64} (h : isZero x = true) : isFinite x = true := by
  unfold isZero at h
  unfold isFinite
  rw [Bool.and_eq_true, beq_iff_eq, beq_iff_eq] at h
  simp [h.1]

theorem units_eq_zero_iff (x : F64) : units x = 0 ↔ isZero x = true := by
  unfold units isZero
  rw [Bool.and_eq_true, beq_iff_eq, beq_iff_eq]
  split
  · rename_i h; simp [h]
  · rename_i h
    simp only [h, false_and, iff_false]
    positivity

/-! ## `fneg` -/

theorem fneg_getLsbD (x : F64) (k : Nat) (hk : k < 63) : (fneg x).getLsbD k = x.getLsbD k := by
  unfold fneg
  rw [BitVec.getLsbD_xor]
  have h : (0x8000000000000000#64).getLsbD k = false := by interval_cases k <;> rfl
  rw [h, Bool.xor_false]

theorem signBit_fneg (x : F64) : signBit (fneg x) = !signBit x := by
  simp [fneg, signBit]

theorem exponentField_fneg (x : F64) : exponentField (fneg x) = exponentField x := by
  unfold exponentField
  congr 1
  refine BitVec.eq_of_getLsbD_eq fun k hk => ?_
  rw [BitVec.getLsbD_extractLsb', BitVec.getLsbD_extractLsb', fneg_getLsbD _ _ (by omega)]

theorem fractionField_fneg (x : F64) : fractionField (fneg x) = fractionField x := by
  unfold fractionField
  congr 1
  refine BitVec.eq_of_getLsbD_eq fun k hk => ?_
  rw [BitVec.getLsbD_extractLsb', BitVec.getLsbD_extractLsb', fneg_getLsbD _ _ (by omega)]

theorem units_fneg (x : F64) : units (fneg x) = units x := by
  unfold units
  rw [exponentField_fneg, fractionField_fneg]

theorem isFinite_fneg (x : F64) : isFinite (fneg x) = isFinite x := by
  unfold isFinite
  rw [exponentField_fneg]

theorem isNaN_fneg (x : F64) : isNaN (fneg x) = isNaN x := by
  unfold isNaN
  rw [exponentField_fneg, fractionField_fneg]

theorem signedUnits_fneg (x : F64) : signedUnits (fneg x) = -signedUnits x := by
  unfold signedUnits
  rw [signBit_fneg, units_fneg]
  cases signBit x <;> simp

/-! ## Values of magnitude fields -/

/-- The magnitude, in units, of a pattern without its sign, exponents unbounded. -/
def fieldUnits (m : Nat) : Nat :=
  if m / 2 ^ 52 = 0 then m % 2 ^ 52 else (2 ^ 52 + m % 2 ^ 52) * 2 ^ (m / 2 ^ 52 - 1)

theorem significand_carry (k : Nat) : (2 ^ 52 + (2 ^ 52 - 1)) * 2 ^ k < (2 ^ 52 + 0) * 2 ^ (k + 1) := by
  calc (2 ^ 52 + (2 ^ 52 - 1)) * 2 ^ k < 2 ^ 53 * 2 ^ k := Nat.mul_lt_mul_of_pos_right (by decide) (by positivity)
    _ = (2 ^ 52 + 0) * 2 ^ (k + 1) := by rw [pow_succ]; ring

theorem significand_max (k : Nat) : (2 ^ 52 + (2 ^ 52 - 1)) * 2 ^ (k + 1) = (2 ^ 54 - 2) * 2 ^ k := by
  rw [pow_succ]
  omega

theorem significand_min (k : Nat) : (2 ^ 52 + 0) * 2 ^ (k + 1 + 1) = 2 ^ 54 * 2 ^ k := by
  rw [pow_succ, pow_succ]
  omega

theorem fieldUnits_lt_succ (m : Nat) : fieldUnits m < fieldUnits (m + 1) := by
  unfold fieldUnits
  by_cases hc : m % 2 ^ 52 + 1 < 2 ^ 52
  · have h1 : (m + 1) / 2 ^ 52 = m / 2 ^ 52 := by omega
    have h2 : (m + 1) % 2 ^ 52 = m % 2 ^ 52 + 1 := by omega
    rw [h1, h2]
    split
    · omega
    · exact Nat.mul_lt_mul_of_pos_right (by omega) (by positivity)
  · have h1 : (m + 1) / 2 ^ 52 = m / 2 ^ 52 + 1 := by omega
    have h2 : (m + 1) % 2 ^ 52 = 0 := by omega
    have h3 : m % 2 ^ 52 = 2 ^ 52 - 1 := by omega
    rw [h1, h2, h3, if_neg (Nat.succ_ne_zero _), Nat.add_sub_cancel]
    split
    · rename_i h; rw [h]; decide
    · rename_i h
      obtain ⟨k, hk⟩ : ∃ k, m / 2 ^ 52 = k + 1 := ⟨m / 2 ^ 52 - 1, by omega⟩
      rw [hk, Nat.add_sub_cancel]
      exact significand_carry k

theorem fieldUnits_strictMono : StrictMono fieldUnits := strictMono_nat_of_lt_succ fieldUnits_lt_succ

theorem units_eq_fieldUnits (x : F64) : units x = fieldUnits (exponentField x * 2 ^ 52 + fractionField x) := by
  have hf := fractionField_lt x
  unfold units fieldUnits
  rw [show (exponentField x * 2 ^ 52 + fractionField x) / 2 ^ 52 = exponentField x by omega,
    show (exponentField x * 2 ^ 52 + fractionField x) % 2 ^ 52 = fractionField x by omega]

theorem units_pack (neg : Bool) (m : Nat) (h : m < infinityField) : units (pack neg m) = fieldUnits m := by
  rw [units_eq_fieldUnits, exponentField_pack, fractionField_pack, min_eq_left (Nat.le_of_lt h)]
  congr 1
  omega

/-! ## Rounding -/

/-- `nearestEven` is a nearest natural, and an even one on a tie. -/
theorem nearestEven_spec (n d : Nat) (hd : 0 < d) (j : Nat) :
    |(n : Int) - d * nearestEven n d| ≤ |(n : Int) - d * j| ∧
    (|(n : Int) - d * nearestEven n d| = |(n : Int) - d * j| → j ≠ nearestEven n d → nearestEven n d % 2 = 0) := by
  have hn : (n : Int) = d * (n / d : Nat) + (n % d : Nat) := by exact_mod_cast (Nat.div_add_mod n d).symm
  have hr : n % d < d := Nat.mod_lt _ hd
  unfold nearestEven
  dsimp only
  generalize n / d = q at *
  generalize n % d = r at *
  rw [hn]
  have hj : j + 1 ≤ q ∨ j = q ∨ j = q + 1 ∨ q + 2 ≤ j := by omega
  have e1 : ((d : Int) * ((q + 1 : Nat) : Int)) = d * q + d := by push_cast; ring
  have hcase : ∀ N : Nat, (N = q ∧ 2 * r ≤ d ∧ (2 * r = d → q % 2 = 0)) ∨
      (N = q + 1 ∧ d ≤ 2 * r ∧ (2 * r = d → q % 2 = 1)) →
      |(d : Int) * q + r - d * N| ≤ |(d : Int) * q + r - d * j| ∧
      (|(d : Int) * q + r - d * N| = |(d : Int) * q + r - d * j| → j ≠ N → N % 2 = 0) := by
    have hjs : (d : Int) * j ≤ d * q - d ∨ (j = q) ∨ (j = q + 1) ∨ (d : Int) * q + 2 * d ≤ d * j := by
      rcases hj with h | h | h | h
      · left
        have : (d : Int) * (j + 1 : Nat) ≤ d * q := by exact_mod_cast Nat.mul_le_mul_left d h
        push_cast at this
        linarith
      · exact .inr (.inl h)
      · exact .inr (.inr (.inl h))
      · right; right; right
        have : (d : Int) * (q + 2 : Nat) ≤ d * j := by exact_mod_cast Nat.mul_le_mul_left d h
        push_cast at this
        linarith
    intro N hN
    rcases hN with ⟨rfl, h1, h2⟩ | ⟨rfl, h1, h2⟩
    · rw [show (d : Int) * N + r - d * N = r by ring]
      rcases hjs with h | rfl | rfl | h
      · generalize (d : Int) * N = A at *
        generalize (d : Int) * j = B at *
        rw [abs_of_nonneg (by omega), abs_of_nonneg (by omega)]
        omega
      · rw [show (d : Int) * j + r - d * j = r by ring]
        exact ⟨le_rfl, fun _ h => absurd rfl h⟩
      · rw [e1, show (d : Int) * N + r - (d * N + d) = r - d by ring, abs_of_nonneg (by omega),
          abs_of_nonpos (by omega)]
        omega
      · generalize (d : Int) * N = A at *
        generalize (d : Int) * j = B at *
        rw [abs_of_nonneg (by omega), abs_of_nonpos (by omega)]
        omega
    · rw [e1, show (d : Int) * q + r - (d * q + d) = r - d by ring]
      rcases hjs with h | rfl | rfl | h
      · generalize (d : Int) * q = A at *
        generalize (d : Int) * j = B at *
        rw [abs_of_nonpos (by omega), abs_of_nonneg (by omega)]
        omega
      · rw [show (d : Int) * j + r - d * j = r by ring, abs_of_nonpos (by omega), abs_of_nonneg (by omega)]
        omega
      · rw [e1, show (d : Int) * q + r - (d * q + d) = r - d by ring]
        exact ⟨le_rfl, fun _ h => absurd rfl h⟩
      · generalize (d : Int) * q = A at *
        generalize (d : Int) * j = B at *
        rw [abs_of_nonpos (by omega), abs_of_nonpos (by omega)]
        omega
  apply hcase
  split
  · left; omega
  · split
    · right; omega
    · rename_i h1 h2
      by_cases hq : q % 2 = 0
      · left; omega
      · right; omega

theorem nearestEven_bounds (n d a b : Nat) (hd : 0 < d) (ha : d * a ≤ n) (hb : n ≤ d * b) :
    a ≤ nearestEven n d ∧ nearestEven n d ≤ b := by
  have h1 : a ≤ n / d := (Nat.le_div_iff_mul_le hd).2 (by rw [Nat.mul_comm]; exact ha)
  have h2 : n / d ≤ b := Nat.div_le_of_le_mul hb
  have h3 : n / d = b → n % d = 0 := by
    intro h
    have := Nat.div_add_mod n d
    rw [h] at this
    omega
  unfold nearestEven
  dsimp only
  split
  · omega
  · split
    · refine ⟨by omega, ?_⟩
      by_contra hc
      have := h3 (by omega)
      omega
    · rename_i h4 h5
      refine ⟨by omega, ?_⟩
      by_contra hc
      have := h3 (by omega)
      omega

/-- The last place of the rounded result, as a power of two of units. -/
def roundShift (n d : Nat) : Nat := Nat.log2 (n / d) - 52

/-- The rounded result has at most 53 bits above its last place, and 53 if it is not subnormal. -/
theorem significand_bounds (n d : Nat) (hd : 0 < d) :
    nearestEven n (d * 2 ^ roundShift n d) ≤ 2 ^ 53 ∧
    (0 < roundShift n d → 2 ^ 52 ≤ nearestEven n (d * 2 ^ roundShift n d) ∧
      d * 2 ^ roundShift n d * 2 ^ 52 ≤ n) := by
  have hD : 0 < d * 2 ^ roundShift n d := Nat.mul_pos hd (by positivity)
  have hup : n ≤ d * 2 ^ roundShift n d * 2 ^ 53 := by
    have h1 : n / d < 2 ^ (roundShift n d + 53) := by
      by_cases h0 : n / d = 0
      · rw [h0]; positivity
      · refine lt_of_lt_of_le ((Nat.log2_lt h0).1 (Nat.lt_succ_self _)) (Nat.pow_le_pow_right (by decide) ?_)
        unfold roundShift
        omega
    have h2 := (Nat.div_lt_iff_lt_mul hd).1 h1
    rw [pow_add] at h2
    calc n ≤ 2 ^ roundShift n d * 2 ^ 53 * d := Nat.le_of_lt h2
      _ = d * 2 ^ roundShift n d * 2 ^ 53 := by ring
  have hlow : 0 < roundShift n d → d * 2 ^ roundShift n d * 2 ^ 52 ≤ n := by
    intro hpos
    have h0 : n / d ≠ 0 := by
      intro h
      unfold roundShift at hpos
      rw [h] at hpos
      exact absurd hpos (by decide)
    have h1 : 2 ^ (roundShift n d + 52) ≤ n / d := by
      refine le_trans (Nat.pow_le_pow_right (by decide) ?_) (Nat.log2_self_le h0)
      unfold roundShift at *
      omega
    have h2 := (Nat.le_div_iff_mul_le hd).1 h1
    rw [pow_add] at h2
    calc d * 2 ^ roundShift n d * 2 ^ 52 = 2 ^ roundShift n d * 2 ^ 52 * d := by ring
      _ ≤ n := h2
  refine ⟨(nearestEven_bounds n _ 0 _ hD (by simp) hup).2, fun hpos => ⟨?_, hlow hpos⟩⟩
  exact (nearestEven_bounds n _ _ _ hD (hlow hpos) hup).1

theorem roundUnits_eq (n d : Nat) :
    roundUnits n d = roundShift n d * 2 ^ 52 + nearestEven n (d * 2 ^ roundShift n d) := rfl

/-- The value of the rounded pattern. -/
theorem fieldUnits_roundUnits (n d : Nat) (hd : 0 < d) :
    fieldUnits (roundUnits n d) = nearestEven n (d * 2 ^ roundShift n d) * 2 ^ roundShift n d := by
  obtain ⟨h1, h2⟩ := significand_bounds n d hd
  rw [roundUnits_eq]
  generalize nearestEven n (d * 2 ^ roundShift n d) = N at *
  generalize roundShift n d = e at *
  unfold fieldUnits
  by_cases he : e = 0
  · subst he
    by_cases hN : N = 2 ^ 53
    · subst hN; decide
    · split <;> rename_i h
      · omega
      · rw [show (0 * 2 ^ 52 + N) / 2 ^ 52 - 1 = 0 by omega]
        omega
  · have h3 := (h2 (by omega)).1
    by_cases hN : N = 2 ^ 53
    · subst hN
      rw [if_neg (by omega), show (e * 2 ^ 52 + 2 ^ 53) / 2 ^ 52 - 1 = e + 1 by omega,
        show (e * 2 ^ 52 + 2 ^ 53) % 2 ^ 52 = 0 by omega, pow_succ]
      ring
    · rw [if_neg (by omega), show (e * 2 ^ 52 + N) / 2 ^ 52 - 1 = e by omega]
      congr 1
      omega

/-- A field value is a multiple of a power of two, or small beside it. -/
theorem fieldUnits_multiple (k e : Nat) : (∃ j, fieldUnits k = j * 2 ^ e) ∨ (0 < e ∧ fieldUnits k < 2 ^ 52 * 2 ^ e) := by
  by_cases h0 : e = 0
  · subst h0; exact .inl ⟨_, (Nat.mul_one _).symm⟩
  by_cases h : e ≤ k / 2 ^ 52 - 1
  · left
    unfold fieldUnits
    rw [if_neg (by omega)]
    obtain ⟨t, ht⟩ := Nat.exists_eq_add_of_le h
    exact ⟨(2 ^ 52 + k % 2 ^ 52) * 2 ^ t, by rw [ht, pow_add]; ring⟩
  · right
    refine ⟨by omega, ?_⟩
    unfold fieldUnits
    have h1 : k % 2 ^ 52 < 2 ^ 52 := Nat.mod_lt _ (by decide)
    have h2 : 1 ≤ 2 ^ e := Nat.one_le_two_pow
    split
    · calc k % 2 ^ 52 < 2 ^ 52 * 1 := by omega
        _ ≤ 2 ^ 52 * 2 ^ e := Nat.mul_le_mul_left _ h2
    · calc (2 ^ 52 + k % 2 ^ 52) * 2 ^ (k / 2 ^ 52 - 1) < 2 ^ 53 * 2 ^ (k / 2 ^ 52 - 1) :=
          Nat.mul_lt_mul_of_pos_right (by omega) (by positivity)
        _ = 2 ^ 52 * 2 ^ (k / 2 ^ 52 - 1 + 1) := by rw [pow_succ]; ring
        _ ≤ 2 ^ 52 * 2 ^ e := Nat.mul_le_mul_left _ (Nat.pow_le_pow_right (by decide) (by omega))

/-- Rounding gives a nearest value of all, exponents unbounded, and an even pattern on a tie. -/
theorem roundUnits_nearest (n d : Nat) (hd : 0 < d) (k : Nat) :
    |(n : Int) - d * fieldUnits (roundUnits n d)| ≤ |(n : Int) - d * fieldUnits k| ∧
    (|(n : Int) - d * fieldUnits (roundUnits n d)| = |(n : Int) - d * fieldUnits k| →
      fieldUnits k ≠ fieldUnits (roundUnits n d) → roundUnits n d % 2 = 0) := by
  have hD : 0 < d * 2 ^ roundShift n d := Nat.mul_pos hd (by positivity)
  have hval : (d : Int) * fieldUnits (roundUnits n d) =
      (d * 2 ^ roundShift n d : Nat) * (nearestEven n (d * 2 ^ roundShift n d) : Nat) := by
    rw [fieldUnits_roundUnits n d hd]; push_cast; ring
  have hpar : nearestEven n (d * 2 ^ roundShift n d) % 2 = 0 → roundUnits n d % 2 = 0 := by
    rw [roundUnits_eq]; omega
  rcases fieldUnits_multiple k (roundShift n d) with ⟨j, hj⟩ | ⟨hpos, hlt⟩
  · have hk : (d : Int) * fieldUnits k = (d * 2 ^ roundShift n d : Nat) * (j : Nat) := by
      rw [hj]; push_cast; ring
    rw [hval, hk]
    obtain ⟨h1, h2⟩ := nearestEven_spec n _ hD j
    refine ⟨h1, fun he hne => hpar (h2 he fun h => hne ?_)⟩
    rw [hj, h, fieldUnits_roundUnits n d hd]
  · obtain ⟨-, h2⟩ := significand_bounds n d hd
    obtain ⟨h3, h4⟩ := h2 hpos
    obtain ⟨h5, -⟩ := nearestEven_spec n _ hD (2 ^ 52)
    have h6 : d * fieldUnits k < d * 2 ^ roundShift n d * 2 ^ 52 := by
      calc d * fieldUnits k < d * (2 ^ 52 * 2 ^ roundShift n d) := Nat.mul_lt_mul_of_pos_left hlt hd
        _ = d * 2 ^ roundShift n d * 2 ^ 52 := by ring
    rw [hval]
    have h7 : ((d * fieldUnits k : Nat) : Int) = d * fieldUnits k := by push_cast; rfl
    have h8 : ((d * 2 ^ roundShift n d * 2 ^ 52 : Nat) : Int) =
        (d * 2 ^ roundShift n d : Nat) * ((2 ^ 52 : Nat) : Int) := by push_cast; rfl
    rw [← h7]
    rw [← h8] at h5
    rw [abs_of_nonneg (a := (n : Int) - ((d * 2 ^ roundShift n d * 2 ^ 52 : Nat) : Int)) (by omega)] at h5
    rw [abs_of_nonneg (a := (n : Int) - ((d * fieldUnits k : Nat) : Int)) (by omega)]
    refine ⟨by omega, fun he => ?_⟩
    omega

/-- The largest finite value and the first that rounds away from it. -/
theorem fieldUnits_top : ∃ p, fieldUnits (infinityField - 1) = (2 ^ 54 - 2) * p ∧ overflowUnits = (2 ^ 54 - 1) * p ∧
    fieldUnits infinityField = 2 ^ 54 * p ∧ 0 < p := by
  refine ⟨2 ^ 2044, ?_, rfl, ?_, by positivity⟩
  · unfold fieldUnits infinityField
    rw [if_neg (by decide), show (2047 * 2 ^ 52 - 1) / 2 ^ 52 - 1 = 2044 + 1 by decide,
      show (2047 * 2 ^ 52 - 1) % 2 ^ 52 = 2 ^ 52 - 1 by decide]
    exact significand_max 2044
  · unfold fieldUnits infinityField
    rw [if_neg (by decide), show 2047 * 2 ^ 52 / 2 ^ 52 - 1 = 2044 + 1 + 1 by decide,
      show 2047 * 2 ^ 52 % 2 ^ 52 = 0 by decide]
    exact significand_min 2044

/-- The rounded pattern is beyond the finite ones exactly from `overflowUnits` on. -/
theorem roundUnits_overflow (n d : Nat) (hd : 0 < d) : infinityField ≤ roundUnits n d ↔ overflowUnits * d ≤ n := by
  obtain ⟨p, h1, h2, h3, hp⟩ := fieldUnits_top
  have hdp : 0 < d * p := Nat.mul_pos hd hp
  have hmax := roundUnits_nearest n d hd (infinityField - 1)
  have hinf := roundUnits_nearest n d hd infinityField
  have e1 : ((d : Int) * fieldUnits (infinityField - 1)) = ((2 ^ 54 - 2) * (d * p) : Nat) := by rw [h1]; push_cast; ring
  have e2 : overflowUnits * d = (2 ^ 54 - 1) * (d * p) := by rw [h2]; ring
  have e3 : ((d : Int) * fieldUnits infinityField) = (2 ^ 54 * (d * p) : Nat) := by rw [h3]; push_cast; ring
  have em : ((d : Int) * fieldUnits (roundUnits n d)) = (d * fieldUnits (roundUnits n d) : Nat) := by push_cast; rfl
  rw [e1, em] at hmax
  rw [e3, em] at hinf
  rw [e2]
  have hlow : roundUnits n d ≤ infinityField - 1 → d * fieldUnits (roundUnits n d) ≤ (2 ^ 54 - 2) * (d * p) := by
    intro h
    calc d * fieldUnits (roundUnits n d) ≤ d * fieldUnits (infinityField - 1) :=
          Nat.mul_le_mul_left _ (fieldUnits_strictMono.monotone h)
      _ = (2 ^ 54 - 2) * (d * p) := by rw [h1]; ring
  have hhigh : infinityField ≤ roundUnits n d → 2 ^ 54 * (d * p) ≤ d * fieldUnits (roundUnits n d) := by
    intro h
    calc 2 ^ 54 * (d * p) = d * fieldUnits infinityField := by rw [h3]; ring
      _ ≤ d * fieldUnits (roundUnits n d) := Nat.mul_le_mul_left _ (fieldUnits_strictMono.monotone h)
  have hodd : roundUnits n d ≤ infinityField - 1 → d * fieldUnits (roundUnits n d) = (2 ^ 54 - 2) * (d * p) →
      roundUnits n d % 2 = 1 := by
    intro h he
    have h4 : fieldUnits (roundUnits n d) = fieldUnits (infinityField - 1) := by
      refine Nat.eq_of_mul_eq_mul_left hd ?_
      rw [he, h1]; ring
    have h5 := fieldUnits_strictMono.injective h4
    rw [h5]
    decide
  have hne : roundUnits n d ≤ infinityField - 1 → fieldUnits infinityField ≠ fieldUnits (roundUnits n d) := by
    intro h he
    have := fieldUnits_strictMono.injective he
    have hi : 0 < infinityField := by decide
    omega
  generalize d * fieldUnits (roundUnits n d) = R at *
  generalize d * p = P at *
  constructor
  · intro h
    by_contra hc
    have h6 := hhigh h
    have h7 := hmax.1
    rw [abs_of_nonpos (by omega)] at h7
    rcases abs_cases ((n : Int) - ((2 ^ 54 - 2) * P : Nat)) with ⟨h8, _⟩ | ⟨h8, _⟩ <;> rw [h8] at h7 <;> omega
  · intro h
    by_contra hc
    have hle : roundUnits n d ≤ infinityField - 1 := by omega
    have h6 := hlow hle
    have h7 := hinf.1
    have h9 := hinf.2
    rw [abs_of_nonneg (a := (n : Int) - (R : Int)) (by omega)] at h7 h9
    rcases abs_cases ((n : Int) - (2 ^ 54 * P : Nat)) with ⟨h8, _⟩ | ⟨h8, _⟩ <;> rw [h8] at h7 h9
    · omega
    · have h10 := h9 (by omega) (hne hle)
      have h11 := hodd hle (by omega)
      omega

/-! ## The operations on finite values -/

/-- A magnitude rounded, with its sign, is the signed value rounded once. -/
theorem roundedOnce_pack (neg : Bool) (n d : Nat) (hd : 0 < d) :
    RoundedOnce (if neg then -(n : Int) else n) d (pack neg (roundUnits n d)) := by
  have habs : |(if neg then -(n : Int) else n)| = n := by cases neg <;> simp
  have hov := roundUnits_overflow n d hd
  have hpos : 0 < overflowUnits := by unfold overflowUnits; positivity
  unfold RoundedOnce
  rw [habs]
  generalize overflowUnits = limit at *
  have hcast : ((limit : Int) * (d : Int) ≤ (n : Int)) ↔ limit * d ≤ n := by
    rw [← Nat.cast_mul, Nat.cast_le]
  refine ⟨fun h => ?_, fun h => ?_⟩
  · rw [hcast] at h
    have hn : 0 < n := lt_of_lt_of_le (Nat.mul_pos hpos hd) h
    rw [isInfinite_pack, signBit_pack]
    refine ⟨decide_eq_true (hov.2 h), ?_⟩
    cases neg
    · exact (decide_eq_false (by simp)).symm
    · exact (decide_eq_true (by simpa using hn)).symm
  · rw [← not_le, hcast] at h
    have hlt : roundUnits n d < infinityField := not_le.1 fun hc => h (hov.1 hc)
    rw [isFinite_pack]
    refine ⟨decide_eq_true hlt, fun z _ => ?_⟩
    rw [fractionField_pack, min_eq_left (Nat.le_of_lt hlt)]
    have hzu := units_eq_fieldUnits z
    have hru := units_pack neg _ hlt
    have hrs := signBit_pack neg (roundUnits n d)
    have hnear := roundUnits_nearest n d hd (exponentField z * 2 ^ 52 + fractionField z)
    have hzero := roundUnits_nearest n d hd 0
    have h0 : fieldUnits 0 = 0 := by decide
    rw [h0] at hzero
    generalize exponentField z * 2 ^ 52 + fractionField z = k at *
    generalize pack neg (roundUnits n d) = r at *
    generalize roundUnits n d = m at *
    unfold signedUnits
    rw [hrs, hru, hzu]
    generalize fieldUnits m = M at *
    generalize fieldUnits k = K at *
    clear hov hcast h hlt h0 hzu hru hrs habs
    have hpar : m % 2 = 0 → m % 2 ^ 52 % 2 = 0 := by omega
    have hdK : (0 : Int) ≤ (d : Int) * K := by positivity
    have habsM : |(-(n : Int)) - d * -(M : Int)| = |(n : Int) - d * M| := by rw [← abs_neg]; congr 1; ring
    have habsK : |(-(n : Int)) - d * -(K : Int)| = |(n : Int) - d * K| := by rw [← abs_neg]; congr 1; ring
    have hopp : |(n : Int) - d * -(K : Int)| = n + d * K := by
      rw [mul_neg, sub_neg_eq_add, abs_of_nonneg (by omega)]
    have hopp' : |-(n : Int) - d * (K : Int)| = n + d * K := by
      rw [← abs_neg, abs_of_nonneg (by omega)]; ring
    simp only [Nat.cast_zero, mul_zero, sub_zero] at hzero
    rw [abs_of_nonneg (a := (n : Int)) (by omega)] at hzero
    have hcross : |(n : Int) - d * M| ≤ n + d * K ∧ (|(n : Int) - d * M| = n + d * K → M ≠ 0 → m % 2 = 0) := by
      refine ⟨by omega, fun he hne => hzero.2 (by omega) (Ne.symm hne)⟩
    have hK0 : |(n : Int) - d * M| = n + d * K → K = 0 := by
      intro he
      have : (d : Int) * K = 0 := by omega
      rcases mul_eq_zero.1 this with h | h <;> omega
    cases hs : signBit z <;> cases neg <;> simp only [if_true, if_false, Bool.false_eq_true]
    · exact ⟨hnear.1, fun he hne => hpar (hnear.2 he fun h => hne (by rw [h]))⟩
    · rw [habsM, hopp']
      exact ⟨hcross.1, fun he hne => hpar (hcross.2 he fun h => hne (by rw [hK0 he, h]; simp))⟩
    · rw [hopp]
      exact ⟨hcross.1, fun he hne => hpar (hcross.2 he fun h => hne (by rw [hK0 he, h]; simp))⟩
    · rw [habsM, habsK]
      exact ⟨hnear.1, fun he hne => hpar (hnear.2 he fun h => hne (by rw [h]))⟩

theorem roundUnits_zero (d : Nat) : roundUnits 0 d = 0 := by
  rw [roundUnits_eq]
  simp [roundShift, nearestEven]

theorem fadd_finite (u : Fpu) (x y : F64) (hx : isFinite x = true) (hy : isFinite y = true) :
    fadd u x y = addFinite x y := by
  unfold fadd
  simp [isNaN_of_isFinite hx, isNaN_of_isFinite hy, isInfinite_of_isFinite hx, isInfinite_of_isFinite hy]

theorem fmul_finite (u : Fpu) (x y : F64) (hx : isFinite x = true) (hy : isFinite y = true) :
    fmul u x y = pack (signBit x != signBit y) (roundUnits (units x * units y) unitsPerOne) := by
  unfold fmul
  simp [isNaN_of_isFinite hx, isNaN_of_isFinite hy, isInfinite_of_isFinite hx, isInfinite_of_isFinite hy]

theorem unitsPerOne_pos : 0 < unitsPerOne := by
  unfold unitsPerOne
  positivity

/-! ## One spec lemma per operation and case (R70's table, R71; log 15) -/

theorem fadd_nan (u : Fpu) (x y : F64) (h : (isNaN x || isNaN y) = true) : fadd u x y = nanResult u .add x y := by
  unfold fadd
  rw [if_pos h]

theorem fsub_eq_fadd (u : Fpu) (x y : F64) (h : isNaN y = false) : fsub u x y = fadd u x (fneg y) := by
  unfold fsub
  exact if_neg (by simp [h])

theorem fmul_nan (u : Fpu) (x y : F64) (h : (isNaN x || isNaN y) = true) : fmul u x y = nanResult u .mul x y := by
  unfold fmul
  dsimp only
  rw [if_pos h]

theorem fdiv_nan (u : Fpu) (x y : F64) (h : (isNaN x || isNaN y) = true) : fdiv u x y = nanResult u .div x y := by
  unfold fdiv
  dsimp only
  rw [if_pos h]

theorem fadd_infinities (u : Fpu) (x y : F64) (hx : isInfinite x = true) (hy : isInfinite y = true)
    (hs : signBit x ≠ signBit y) : isNaN (fadd u x y) = true := by
  unfold fadd
  split
  · exact isNaN_nanResult ..
  · rw [if_pos (by simp [hx, hy, hs])]
    exact isNaN_nanResult ..

theorem fmul_invalid (u : Fpu) (x y : F64) (h : (isInfinite x && isZero y || isZero x && isInfinite y) = true) :
    isNaN (fmul u x y) = true := by
  unfold fmul
  dsimp only
  rw [if_pos h, ite_self]
  exact isNaN_nanResult ..

theorem fdiv_invalid (u : Fpu) (x y : F64) (h : (isInfinite x && isInfinite y || isZero x && isZero y) = true) :
    isNaN (fdiv u x y) = true := by
  unfold fdiv
  dsimp only
  rw [if_pos h, ite_self]
  exact isNaN_nanResult ..

/-- A product is a NaN, or has the sign the table gives. -/
theorem fmul_cases (u : Fpu) (x y : F64) :
    isNaN (fmul u x y) = true ∨ ∃ m, fmul u x y = pack (signBit x != signBit y) m := by
  unfold fmul
  dsimp only
  split
  · exact .inl (isNaN_nanResult ..)
  · split
    · exact .inl (isNaN_nanResult ..)
    · split <;> exact .inr ⟨_, rfl⟩

/-- A quotient is a NaN, or has the sign the table gives. -/
theorem fdiv_cases (u : Fpu) (x y : F64) :
    isNaN (fdiv u x y) = true ∨ ∃ m, fdiv u x y = pack (signBit x != signBit y) m := by
  unfold fdiv
  dsimp only
  split
  · exact .inl (isNaN_nanResult ..)
  · split
    · exact .inl (isNaN_nanResult ..)
    · split
      · exact .inr ⟨_, rfl⟩
      · split <;> exact .inr ⟨_, rfl⟩

theorem fdiv_by_zero (u : Fpu) (x y : F64) (h1 : isFinite x = true) (h2 : isZero x = false) (h3 : isZero y = true) :
    fdiv u x y = pack (signBit x != signBit y) infinityField := by
  unfold fdiv
  dsimp only
  rw [isNaN_of_isFinite h1, isInfinite_of_isFinite h1, isNaN_of_isFinite (isZero_isFinite h3), h2, h3]
  rfl

/-- An infinity added to a finite value is that infinity. -/
theorem fadd_infinite_finite (u : Fpu) (x y : F64) (hx : isInfinite x = true) (hy : isFinite y = true) :
    fadd u x y = x ∧ fadd u y x = x := by
  simp [fadd, hx, isInfinite_not_isNaN hx, isNaN_of_isFinite hy, isInfinite_of_isFinite hy]

/-- Two infinities of one sign add to that infinity. -/
theorem fadd_infinities_same (u : Fpu) (x y : F64) (hx : isInfinite x = true) (hy : isInfinite y = true)
    (hs : signBit x = signBit y) : fadd u x y = x := by
  simp [fadd, hx, hy, isInfinite_not_isNaN hx, isInfinite_not_isNaN hy, hs]

/-- An infinity times a value that is neither zero nor a NaN is infinite. -/
theorem fmul_infinite (u : Fpu) (x y : F64) (hx : isInfinite x = true) (hn : isNaN y = false) (hz : isZero y = false) :
    fmul u x y = pack (signBit x != signBit y) infinityField ∧
      fmul u y x = pack (signBit y != signBit x) infinityField := by
  simp [fmul, hx, isInfinite_not_isNaN hx, isInfinite_not_isZero hx, hn, hz]

/-- An infinity divided by a finite value is infinite; a finite value divided by an infinity is zero. -/
theorem fdiv_infinite_finite (u : Fpu) (x y : F64) (hx : isInfinite x = true) (hy : isFinite y = true) :
    fdiv u x y = pack (signBit x != signBit y) infinityField ∧ fdiv u y x = pack (signBit y != signBit x) 0 := by
  simp [fdiv, hx, isInfinite_not_isNaN hx, isInfinite_not_isZero hx, isNaN_of_isFinite hy,
    isInfinite_of_isFinite hy]

/-- A sum of opposite finite values is `+0.0`. -/
theorem fadd_opposite (u : Fpu) (x y : F64) (hx : isFinite x = true) (hy : isFinite y = true)
    (hs : signBit x ≠ signBit y) (hu : units x = units y) : fadd u x y = 0#64 := by
  rw [fadd_finite u x y hx hy]
  unfold addFinite
  rw [if_neg hs, if_pos hu]
  decide

end Sys2Proof.Machine
end

