-- ==== Sys2Proof/Laws/State.lean ====
section
/-! SUPPORT. One lemma for each field of State and each update of it (true by computation), so that no proof
unfolds a record update. -/

namespace Sys2Proof.Machine

/-! ## `State.reject` (R177) -/

@[simp] theorem State.reject_params (s : State) (r : Rejection) : (s.reject r).params = s.params := rfl
@[simp] theorem State.reject_latch (s : State) (r : Rejection) : (s.reject r).latch = s.latch := rfl
@[simp] theorem State.reject_busy (s : State) (r : Rejection) : (s.reject r).busy = false := rfl
@[simp] theorem State.reject_err (s : State) (r : Rejection) : (s.reject r).err = true := rfl
@[simp] theorem State.reject_errCode (s : State) (r : Rejection) : (s.reject r).errCode = r.error.number := rfl
@[simp] theorem State.reject_errInfo (s : State) (r : Rejection) : (s.reject r).errInfo = r.info := rfl
@[simp] theorem State.reject_errCmd (s : State) (r : Rejection) : (s.reject r).errCmd = s.latch.cmd := rfl
@[simp] theorem State.reject_dmem (s : State) (r : Rejection) : (s.reject r).dmem = s.dmem := rfl
@[simp] theorem State.reject_draws (s : State) (r : Rejection) : (s.reject r).draws = s.draws := rfl
@[simp] theorem State.reject_host (s : State) (r : Rejection) : (s.reject r).host = s.host := rfl
@[simp] theorem State.reject_replies (s : State) (r : Rejection) : (s.reject r).replies = s.replies := rfl

/-! ## `State.finish` (R19) -/

@[simp] theorem State.finish_params (s : State) (m : Memory) : (s.finish m).params = s.params := rfl
@[simp] theorem State.finish_latch (s : State) (m : Memory) : (s.finish m).latch = s.latch := rfl
@[simp] theorem State.finish_busy (s : State) (m : Memory) : (s.finish m).busy = false := rfl
@[simp] theorem State.finish_err (s : State) (m : Memory) : (s.finish m).err = s.err := rfl
@[simp] theorem State.finish_errCode (s : State) (m : Memory) : (s.finish m).errCode = s.errCode := rfl
@[simp] theorem State.finish_errInfo (s : State) (m : Memory) : (s.finish m).errInfo = s.errInfo := rfl
@[simp] theorem State.finish_errCmd (s : State) (m : Memory) : (s.finish m).errCmd = s.errCmd := rfl
@[simp] theorem State.finish_dmem (s : State) (m : Memory) : (s.finish m).dmem = m := rfl
@[simp] theorem State.finish_draws (s : State) (m : Memory) : (s.finish m).draws = s.draws + 1 := rfl
@[simp] theorem State.finish_host (s : State) (m : Memory) : (s.finish m).host = s.host := rfl
@[simp] theorem State.finish_replies (s : State) (m : Memory) : (s.finish m).replies = s.replies := rfl

/-! ## `State.reply` (R199) -/

@[simp] theorem State.reply_params (s : State) (r : Reply) : (s.reply r).params = s.params := rfl
@[simp] theorem State.reply_latch (s : State) (r : Reply) : (s.reply r).latch = s.latch := rfl
@[simp] theorem State.reply_busy (s : State) (r : Reply) : (s.reply r).busy = s.busy := rfl
@[simp] theorem State.reply_err (s : State) (r : Reply) : (s.reply r).err = s.err := rfl
@[simp] theorem State.reply_errCode (s : State) (r : Reply) : (s.reply r).errCode = s.errCode := rfl
@[simp] theorem State.reply_errInfo (s : State) (r : Reply) : (s.reply r).errInfo = s.errInfo := rfl
@[simp] theorem State.reply_errCmd (s : State) (r : Reply) : (s.reply r).errCmd = s.errCmd := rfl
@[simp] theorem State.reply_dmem (s : State) (r : Reply) : (s.reply r).dmem = s.dmem := rfl
@[simp] theorem State.reply_draws (s : State) (r : Reply) : (s.reply r).draws = s.draws := rfl
@[simp] theorem State.reply_host (s : State) (r : Reply) : (s.reply r).host = s.host := rfl
@[simp] theorem State.reply_replies (s : State) (r : Reply) : (s.reply r).replies = s.replies ++ [r] := rfl

/-! ## `State.resetBlock` (R190) -/

@[simp] theorem State.resetBlock_params (s : State) : (s.resetBlock).params = .zero := rfl
@[simp] theorem State.resetBlock_latch (s : State) : (s.resetBlock).latch = ⟨0#32, .zero⟩ := rfl
@[simp] theorem State.resetBlock_busy (s : State) : (s.resetBlock).busy = false := rfl
@[simp] theorem State.resetBlock_err (s : State) : (s.resetBlock).err = false := rfl
@[simp] theorem State.resetBlock_errCode (s : State) : (s.resetBlock).errCode = 0#8 := rfl
@[simp] theorem State.resetBlock_errInfo (s : State) : (s.resetBlock).errInfo = 0#3 := rfl
@[simp] theorem State.resetBlock_errCmd (s : State) : (s.resetBlock).errCmd = 0#32 := rfl
@[simp] theorem State.resetBlock_dmem (s : State) : (s.resetBlock).dmem = s.dmem.forget := rfl
@[simp] theorem State.resetBlock_draws (s : State) : (s.resetBlock).draws = s.draws := rfl
@[simp] theorem State.resetBlock_host (s : State) : (s.resetBlock).host = s.host := rfl
@[simp] theorem State.resetBlock_replies (s : State) : (s.resetBlock).replies = s.replies := rfl

/-! ## `State.accept` (R18) and `State.clearError` (R22) -/

theorem State.accept_of_err (s : State) (v : Word) (h : s.err = true) : s.accept v = s := by
  simp [State.accept, h]

theorem State.accept_of_no_err (s : State) (v : Word) (h : s.err = false) :
    s.accept v = { s with latch := ⟨v, s.params⟩, busy := true } := by
  simp [State.accept, h]

theorem State.clearError_of_no_err (s : State) (h : s.err = false) : s.clearError = s := by
  simp [State.clearError, h]

theorem State.clearError_of_err (s : State) (h : s.err = true) :
    s.clearError = { s with err := false, errCode := 0#8, errInfo := 0#3, errCmd := 0#32 } := by
  simp [State.clearError, h]

@[simp] theorem State.accept_dmem (s : State) (v : Word) : (s.accept v).dmem = s.dmem := by
  unfold State.accept; split <;> rfl

@[simp] theorem State.accept_params (s : State) (v : Word) : (s.accept v).params = s.params := by
  unfold State.accept; split <;> rfl

@[simp] theorem State.clearError_dmem (s : State) : s.clearError.dmem = s.dmem := by
  unfold State.clearError; split <;> rfl

@[simp] theorem State.clearError_params (s : State) : s.clearError.params = s.params := by
  unfold State.clearError; split <;> rfl

@[simp] theorem State.clearError_busy (s : State) : s.clearError.busy = s.busy := by
  unfold State.clearError; split <;> rfl

/-! ## `State.writeRegister` (R31) -/

@[simp] theorem State.writeRegister_zero (s : State) (v : Word) : s.writeRegister 0 v = s.accept v := rfl

theorem State.writeRegister_control (s : State) (v : Word) :
    s.writeRegister 12 v = if v.getLsbD 0 then s.clearError else s := rfl

theorem State.writeRegister_other (s : State) (n : Nat) (v : Word) (h0 : n ≠ 0) (h12 : n ≠ 12) :
    s.writeRegister n v = { s with params := s.params.set n v } := by
  unfold State.writeRegister
  split <;> first | contradiction | rfl

/-- `RegWrite` to a number that is no parameter register leaves `P1..P7` (R31). -/
theorem params_set_of_not_param (p : Params) (n : Nat) (v : Word) (h : n = 0 ∨ 7 < n) : p.set n v = p := by
  unfold Params.set
  split <;> first | omega | rfl

@[simp] theorem State.writeRegister_dmem (s : State) (n : Nat) (v : Word) :
    (s.writeRegister n v).dmem = s.dmem := by
  unfold State.writeRegister
  split
  · exact State.accept_dmem s v
  · split <;> simp
  · rfl

/-! ## The words of DMEM -/

/-- `1 <= DMEM_WORDS <= 2^32`, of every block (R16). -/
theorem dmemWords_bounds (c : BlockConfig) : 1 ≤ c.dmemWords ∧ c.dmemWords ≤ 2 ^ 32 := by
  have := c.lastAddress.isLt
  unfold BlockConfig.dmemWords
  omega

@[simp] theorem State.finish_word (s : State) (m : Memory) (a : Nat) :
    (s.finish m).word a = m.read Config.block a := rfl

theorem State.word_eq (s : State) (a : Nat) : s.word a = s.dmem.read Config.block a := rfl

/-! ## What the two ends of a command say (R19, R177) -/

theorem State.rejectedAs_reject (s : State) (r : Rejection) : s.RejectedAs r (s.reject r) := by
  constructor <;> rfl

theorem State.ran_finish (s : State) (m : Memory)
    (he : m.epoch = s.dmem.epoch) : s.Ran (s.finish m) := by
  constructor <;> first | rfl | assumption

end Sys2Proof.Machine
end

