-- ==== Sys2Proof/Laws/Memory.lean ====
section
/-! SUPPORT. DMEM: read after write, the canonical form and the bounds of a memory, and loops. -/

namespace Sys2Proof.Machine

/-! ## Cells -/

theorem lookup_insert_same (a : Nat) (z : CWord) (l : List (Nat × CWord)) :
    lookupCell a (insertCell a z l) = some z := by
  induction l with
  | nil => simp [insertCell, lookupCell]
  | cons p rest ih =>
    obtain ⟨b, y⟩ := p
    unfold insertCell
    split
    · simp [lookupCell]
    · split
      · simp [lookupCell]
      · rename_i h
        simp [lookupCell, h, ih]

theorem lookup_insert_other (a b : Nat) (z : CWord) (l : List (Nat × CWord)) (h : b ≠ a) :
    lookupCell b (insertCell a z l) = lookupCell b l := by
  induction l with
  | nil => simp [insertCell, lookupCell, h]
  | cons p rest ih =>
    obtain ⟨c, y⟩ := p
    unfold insertCell
    split
    · simp [lookupCell, h]
    · split
      · rename_i hac
        subst hac
        simp [lookupCell, h]
      · simp [lookupCell, ih]

theorem rising_cons (p : Nat × CWord) (l : List (Nat × CWord)) :
    rising (p :: l) = true ↔ (∀ q ∈ l, p.1 < q.1) ∧ rising l = true := by
  induction l generalizing p with
  | nil => simp [rising]
  | cons q rest ih =>
    obtain ⟨a, x⟩ := p
    obtain ⟨b, z⟩ := q
    simp only [rising, Bool.and_eq_true, decide_eq_true_eq, List.mem_cons, forall_eq_or_imp]
    constructor
    · rintro ⟨hab, hr⟩
      refine ⟨⟨hab, fun q hq => ?_⟩, hr⟩
      have := ((ih (b, z)).1 hr).1 q hq
      exact lt_trans hab this
    · rintro ⟨⟨hab, _⟩, hr⟩
      exact ⟨hab, hr⟩

theorem mem_insert (a : Nat) (z : CWord) (l : List (Nat × CWord)) (q : Nat × CWord)
    (h : q ∈ insertCell a z l) : q = (a, z) ∨ q ∈ l := by
  induction l with
  | nil => exact .inl (by simpa [insertCell] using h)
  | cons p rest ih =>
    obtain ⟨b, y⟩ := p
    unfold insertCell at h
    split at h
    · simpa using h
    · split at h
      · rcases List.mem_cons.1 h with h | h
        · exact .inl h
        · exact .inr (List.mem_cons_of_mem _ h)
      · rcases List.mem_cons.1 h with h | h
        · exact .inr (by simp [h])
        · exact (ih h).imp_right (List.mem_cons_of_mem _)

theorem rising_insert (a : Nat) (z : CWord) (l : List (Nat × CWord)) (h : rising l = true) :
    rising (insertCell a z l) = true := by
  induction l with
  | nil => rfl
  | cons p rest ih =>
    obtain ⟨b, y⟩ := p
    have hc := (rising_cons (b, y) rest).1 h
    unfold insertCell
    split
    · rename_i hab
      refine (rising_cons _ _).2 ⟨fun q hq => ?_, h⟩
      rcases List.mem_cons.1 hq with rfl | hq
      · exact hab
      · exact lt_trans hab (hc.1 q hq)
    · split
      · rename_i hab
        subst hab
        exact (rising_cons _ _).2 ⟨hc.1, hc.2⟩
      · rename_i h1 h2
        refine (rising_cons _ _).2 ⟨fun q hq => ?_, ih hc.2⟩
        rcases mem_insert a z rest q hq with rfl | hq
        · simp only; omega
        · exact hc.1 q hq

/-! ## Read, write (R34, R35, R37) -/

@[simp] theorem Memory.write_epoch (m : Memory) (a : Nat) (z : CWord) : (m.write a z).epoch = m.epoch := rfl

@[simp] theorem Memory.read_write_same (c : BlockConfig) (m : Memory) (a : Nat) (z : CWord) :
    (m.write a z).read c a = z := by
  simp [Memory.read, Memory.write, lookup_insert_same]

theorem Memory.read_write_other (c : BlockConfig) (m : Memory) (a b : Nat) (z : CWord) (h : b ≠ a) :
    (m.write a z).read c b = m.read c b := by
  simp [Memory.read, Memory.write, Memory.unlisted, lookup_insert_other a b z m.cells h]

theorem Memory.read_write (c : BlockConfig) (m : Memory) (a b : Nat) (z : CWord) :
    (m.write a z).read c b = if b = a then z else m.read c b := by
  split
  · rename_i h; subst h; simp
  · rename_i h; exact Memory.read_write_other c m a b z h

theorem Memory.write_wf (m : Memory) (a : Nat) (z : CWord) (h : m.wf = true) : (m.write a z).wf = true :=
  rising_insert a z m.cells h

theorem Memory.write_inside (words : Nat) (m : Memory) (a : Nat) (z : CWord) (h : m.inside words = true)
    (ha : a < words) : (m.write a z).inside words = true := by
  simp only [Memory.inside, List.all_eq_true, decide_eq_true_eq] at *
  intro p hp
  rcases mem_insert a z m.cells p hp with rfl | hp
  · exact ha
  · exact h p hp

theorem Memory.forget_wf (m : Memory) : m.forget.wf = true := rfl

theorem Memory.forget_inside (words : Nat) (m : Memory) : m.forget.inside words = true := rfl

theorem Memory.read_forget (c : BlockConfig) (m : Memory) (a : Nat) :
    m.forget.read c a = c.unwritten (m.epoch + 1) a := rfl

/-! ## What a loop keeps

`Keeps p` is what every Operation of the block does besides changing words: it keeps the memory's
epoch, its canonical form, its bounds, and every word at an address without `p`. -/

/-- A change of memory that writes only at addresses with `p`. -/
structure Keeps (p : Nat → Prop) (m m' : Memory) : Prop where
  epoch : m'.epoch = m.epoch
  wf : m.wf = true → m'.wf = true
  inside : ∀ words, (∀ a, p a → a < words) → m.inside words = true → m'.inside words = true
  other : ∀ (c : BlockConfig) a, ¬ p a → m'.read c a = m.read c a

theorem Keeps.refl (p : Nat → Prop) (m : Memory) : Keeps p m m :=
  ⟨rfl, id, fun _ _ h => h, fun _ _ _ => rfl⟩

theorem Keeps.trans {p : Nat → Prop} {m m' m'' : Memory} (h : Keeps p m m') (h' : Keeps p m' m'') :
    Keeps p m m'' where
  epoch := h'.epoch.trans h.epoch
  wf := fun w => h'.wf (h.wf w)
  inside := fun words hp hi => h'.inside words hp (h.inside words hp hi)
  other := fun c a ha => (h'.other c a ha).trans (h.other c a ha)

theorem Keeps.mono {p q : Nat → Prop} {m m' : Memory} (h : Keeps p m m') (hpq : ∀ a, p a → q a) :
    Keeps q m m' where
  epoch := h.epoch
  wf := h.wf
  inside := fun words hq hi => h.inside words (fun a ha => hq a (hpq a ha)) hi
  other := fun c a ha => h.other c a (fun hp => ha (hpq a hp))

theorem Keeps.write (p : Nat → Prop) (m : Memory) (a : Nat) (z : CWord) (ha : p a) :
    Keeps p m (m.write a z) where
  epoch := rfl
  wf := Memory.write_wf m a z
  inside := fun words hp hi => Memory.write_inside words m a z hi (hp a ha)
  other := fun c b hb => Memory.read_write_other c m a b z (fun h => hb (h ▸ ha))

/-! ## Loops -/

@[simp] theorem forUp_zero (body : Nat → Memory → Memory) (m : Memory) : forUp 0 body m = m := rfl

theorem forUp_succ (n : Nat) (body : Nat → Memory → Memory) (m : Memory) :
    forUp (n + 1) body m = body n (forUp n body m) := rfl

/-- An invariant of a loop: it holds before the first turn and every turn advances it. -/
theorem forUp_induction {body : Nat → Memory → Memory} {m : Memory} (inv : Nat → Memory → Prop) (n : Nat)
    (h0 : inv 0 m) (hs : ∀ i m', i < n → inv i m' → inv (i + 1) (body i m')) : inv n (forUp n body m) := by
  induction n with
  | zero => exact h0
  | succ k ih =>
    rw [forUp_succ]
    exact hs k _ (Nat.lt_succ_self k) (ih fun i m' hi => hs i m' (Nat.lt_succ_of_lt hi))

theorem Keeps.forUp {p : Nat → Prop} {body : Nat → Memory → Memory} (n : Nat) (m : Memory)
    (h : ∀ i m', i < n → Keeps p m' (body i m')) : Keeps p m (forUp n body m) :=
  forUp_induction (fun _ m' => Keeps p m m') n (Keeps.refl p m) fun i m' hi hk => hk.trans (h i m' hi)

/-- A loop that writes one word a turn, at consecutive addresses, each from words the loop has not touched:
the words it writes, and the words it leaves. -/
theorem read_forUp_write {c : BlockConfig} (base n : Nat) (f : Nat → Memory → CWord) (m : Memory)
    (hf : ∀ j m', j < n → Keeps (InRegion base j) m m' → f j m' = f j m) :
    Keeps (InRegion base n) m (forUp n (fun j m' => m'.write (base + j) (f j m')) m) ∧
    ∀ j, j < n → (forUp n (fun j m' => m'.write (base + j) (f j m')) m).read c (base + j) = f j m := by
  induction n with
  | zero => exact ⟨Keeps.refl _ _, fun j hj => absurd hj (Nat.not_lt_zero j)⟩
  | succ n ih =>
    obtain ⟨hk, hr⟩ := ih fun j m' hj hm' => hf j m' (Nat.lt_succ_of_lt hj) hm'
    rw [forUp_succ]
    have hk' : Keeps (InRegion base (n + 1)) m (forUp n (fun j m' => m'.write (base + j) (f j m')) m) :=
      hk.mono fun a ha => ⟨ha.1, by have := ha.2; omega⟩
    refine ⟨hk'.trans (Keeps.write _ _ _ _ ⟨by omega, by omega⟩), fun j hj => ?_⟩
    rw [Memory.read_write]
    split
    · rename_i h
      have : j = n := by omega
      subst this
      exact hf j _ (Nat.lt_succ_self j) hk
    · rename_i h
      exact hr j (by omega)

/-- `MemWrite(a, n, v)`: the words written and the words left (00_scope.md section 5). -/
theorem Memory.store_spec (c : BlockConfig) (m : Memory) (a n : Nat) (v : Nat → CWord) :
    Keeps (InRegion a n) m (m.store a n v) ∧ ∀ j, j < n → (m.store a n v).read c (a + j) = v j :=
  read_forUp_write a n (fun j _ => v j) m fun _ _ _ _ => rfl

/-- A memory every operation keeps well-formed stays so through `MemWrite`. -/
theorem Memory.store_wf (m : Memory) (a n : Nat) (v : Nat → CWord) (h : m.wf = true) : (m.store a n v).wf = true :=
  (Memory.store_spec Config.block m a n v).1.wf h

end Sys2Proof.Machine
end

