-- ==== Sys2Proof/Laws/Commands.lean ====
section
/-! SUPPORT. One meaning for every command: `exec` is `execOn` of this block, a command ends in one of two ways,
and its checks say what the table of R175 says (60_exceptions.md R173 to R179). -/

namespace Sys2Proof.Machine

/-! ## `exec` and `step` are those of any block, on this block -/

theorem exec_eq_execOn (i : Instr) (s : State) : exec i s = execOn Config.block i s := by
  cases i <;> rfl

theorem coreStep_eq_coreStepOn (s : State) : coreStep s = coreStepOn Config.block s := by
  unfold coreStep coreStepOn
  cases decode s.latch with
  | ok i => exact exec_eq_execOn i s
  | error e => rfl

theorem step_eq_stepOn (s : State) : step s = stepOn Config.block s := by
  unfold step stepOn
  rw [coreStep_eq_coreStepOn]
  rfl

/-- The checks and the Operation of a command on this block, as a state runs it next. -/
abbrev State.meaning (s : State) (i : Instr) : Meaning := meaningOf Config.block s.draws i

theorem exec_eq_complete (i : Instr) (s : State) : exec i s = .next (s.complete (s.meaning i)) :=
  exec_eq_execOn i s

/-! ## The two ends of a command (R19) -/

theorem State.complete_of_failure (s : State) (f : Meaning) (r : Rejection) (h : firstFailure f.checks = some r) :
    s.complete f = s.reject r := by
  simp [State.complete, h]

theorem State.complete_of_pass (s : State) (f : Meaning) (h : firstFailure f.checks = none) :
    s.complete f = s.finish (f.operation s.dmem) := by
  simp [State.complete, h]

theorem State.complete_cases (s : State) (f : Meaning) :
    (∃ r, firstFailure f.checks = some r ∧ s.complete f = s.reject r) ∨
    (firstFailure f.checks = none ∧ s.complete f = s.finish (f.operation s.dmem)) := by
  cases h : firstFailure f.checks with
  | some r => exact .inl ⟨r, rfl, s.complete_of_failure f r h⟩
  | none => exact .inr ⟨rfl, s.complete_of_pass f h⟩

/-! ## Checks and the table of R175 -/

/-- A check of the machine and an entry of the table that say the same. -/
def Agrees (k : Check) (p : Prop × Rejection) : Prop := (k.passes = false ↔ p.1) ∧ k.rejection = p.2

/-- Two lists that say the same, entry for entry. -/
def AllAgree : List Check → List (Prop × Rejection) → Prop
  | [], [] => True
  | k :: ks, p :: ps => Agrees k p ∧ AllAgree ks ps
  | [], _ :: _ => False
  | _ :: _, [] => False

/-- The first failing check is what the table decides. -/
theorem decides_iff_firstFailure {ks : List Check} {ps : List (Prop × Rejection)} (h : AllAgree ks ps)
    (r : Option Rejection) : Decides ps r ↔ firstFailure ks = r := by
  induction ks generalizing ps with
  | nil =>
    cases ps with
    | nil => exact eq_comm
    | cons p ps => exact absurd h id
  | cons k ks ih =>
    cases ps with
    | nil => exact absurd h id
    | cons p ps =>
      obtain ⟨⟨hk, he⟩, hr⟩ := h
      obtain ⟨fails, e⟩ := p
      simp only at hk he
      subst he
      cases hp : k.passes with
      | true =>
        have : ¬ fails := fun hf => by simp [hk.2 hf] at hp
        simp [Decides, firstFailure, hp, this, ih hr]
      | false =>
        have : fails := hk.1 hp
        simp [Decides, firstFailure, hp, this, eq_comm]

/-! ## Each kind of check -/

/-- Two regions overlap exactly when they share an address (R2, R178). -/
theorem overlaps_iff_share (a m b n : Nat) : overlaps a m b n = true ↔ Share a m b n := by
  simp only [overlaps, Bool.and_eq_true, decide_eq_true_eq, Share, InRegion]
  constructor
  · rintro ⟨⟨⟨hm, hn⟩, h1⟩, h2⟩
    exact ⟨max a b, by omega, by omega⟩
  · rintro ⟨x, h1, h2⟩
    omega

theorem share_comm (a m b n : Nat) : Share a m b n ↔ Share b n a m :=
  ⟨fun ⟨x, h, h'⟩ => ⟨x, h', h⟩, fun ⟨x, h, h'⟩ => ⟨x, h', h⟩⟩

/-- `pow2(L)` holds exactly for 1, 2, 4, 8, ... (R3). -/
theorem pow2_iff_isPow2 (l : Nat) : pow2 l = true ↔ IsPow2 l := by
  constructor
  · intro h
    simp only [pow2, Bool.and_eq_true, decide_eq_true_eq, beq_iff_eq] at h
    obtain ⟨h0, h1⟩ := h
    by_contra hn
    have hlog := Nat.log2_lt (n := l) (k := Nat.log2 l + 1) h0
    have hle : 2 ^ Nat.log2 l ≤ l := Nat.log2_self_le h0
    have hlt : l < 2 ^ (Nat.log2 l + 1) := hlog.1 (Nat.lt_succ_self _)
    have hne : l ≠ 2 ^ Nat.log2 l := fun he => hn ⟨_, he⟩
    have ht1 : l.testBit (Nat.log2 l) = true := by
      rw [Nat.testBit_eq_decide_div_mod_eq, Nat.div_eq_of_lt_le (k := 1) (by omega) (by rw [pow_succ] at hlt; omega)]
      decide
    have ht2 : (l - 1).testBit (Nat.log2 l) = true := by
      rw [Nat.testBit_eq_decide_div_mod_eq, Nat.div_eq_of_lt_le (k := 1) (by omega) (by rw [pow_succ] at hlt; omega)]
      decide
    have hz : (l &&& (l - 1)).testBit (Nat.log2 l) = false := by rw [h1]; simp
    rw [Nat.testBit_and, ht1, ht2] at hz
    exact absurd hz (by decide)
  · rintro ⟨n, rfl⟩
    have h0 : 2 ^ n ≠ 0 := by positivity
    have h1 : 2 ^ n &&& (2 ^ n - 1) = 0 := by
      rw [Nat.and_two_pow_sub_one_eq_mod]
      simp
    simp [pow2, h1]

theorem log2_two_pow (n : Nat) : log2 (2 ^ n) = n := Nat.log2_two_pow

theorem agrees_length (l : Nat) (info : BitVec 3) :
    Agrees (lengthCheck l info) (¬ IsPow2 l, ⟨.invalidLength, info⟩) := by
  refine ⟨?_, rfl⟩
  rw [← pow2_iff_isPow2]
  simp [lengthCheck]

theorem agrees_operand (bad : Bool) (p : Prop) (info : BitVec 3) (h : bad = true ↔ p) :
    Agrees (operandCheck bad info) (p, ⟨.badOperand, info⟩) := by
  refine ⟨?_, rfl⟩
  rw [← h]
  simp [operandCheck]

theorem agrees_range (words b n : Nat) (info : BitVec 3) :
    Agrees (rangeCheck words b n info) (Outside words b n, ⟨.addrRange, info⟩) := by
  refine ⟨?_, rfl⟩
  simp [rangeCheck, inrange, Outside]

theorem agrees_disjoint (a m b n : Nat) (info : BitVec 3) :
    Agrees (disjointCheck a m b n info) (Share a m b n, ⟨.overlap, info⟩) := by
  refine ⟨?_, rfl⟩
  rw [← overlaps_iff_share]
  simp [disjointCheck]

theorem agrees_disjointOrSame (a b n : Nat) (info : BitVec 3) :
    Agrees (disjointOrSameCheck a b n info) (Share a n b n ∧ a ≠ b, ⟨.overlap, info⟩) := by
  refine ⟨?_, rfl⟩
  rw [← overlaps_iff_share]
  simp [disjointOrSameCheck]

theorem allAgree_grid (words src dst h w : Nat) :
    AllAgree (gridChecks words src dst h w)
      (gridFailures h w ++ gridRangeFailures words src dst h w ++ gridOverlapFailures src dst h w) :=
  ⟨agrees_operand _ _ _ (by simp), agrees_operand _ _ _ (by simp), agrees_range _ _ _ _, agrees_range _ _ _ _,
    agrees_disjointOrSame _ _ _ _, trivial⟩

/-- A length is at most `2^depth`, and `log2` of it at most `depth`, together when it is a power of two; when it
is not, the length check has failed before (R175), so the entries agree as a pair. -/
theorem decides_bfly (ks : List Check) (ps : List (Prop × Rejection)) (len depth : Nat) (h : AllAgree ks ps)
    (r : Option Rejection) :
    Decides ((¬ IsPow2 len, ⟨.invalidLength, 3⟩) :: (len ≤ 2 ^ depth, ⟨.badOperand, 4⟩) :: ps) r ↔
      firstFailure (lengthCheck len 3 :: operandCheck (decide (log2 len ≤ depth)) 4 :: ks) = r := by
  by_cases hp : IsPow2 len
  · refine decides_iff_firstFailure ?_ r
    refine And.intro (agrees_length _ _) (And.intro (agrees_operand _ _ _ ?_) h)
    obtain ⟨n, rfl⟩ := hp
    rw [log2_two_pow, decide_eq_true_eq, Nat.pow_le_pow_iff_right (by decide)]
  · have hl : (lengthCheck len 3).passes = false := (agrees_length len 3).1.2 hp
    rw [firstFailure, hl]
    simp [Decides, hp, lengthCheck, eq_comm]

/-- The first failing check of a command is what the table of R175 decides. -/
theorem decides_failureTable (c : BlockConfig) (k : Nat) (i : Instr) (r : Option Rejection) :
    Decides (failureTable c.dmemWords i) r ↔ firstFailure (meaningOf c k i).checks = r := by
  cases i with
  | nop =>
    refine decides_iff_firstFailure ?_ r
    exact trivial
  | cadd dst a b | csub dst a b | cmul dst a b | cdiv dst a b =>
    refine decides_iff_firstFailure ?_ r
    exact ⟨agrees_range _ _ _ _, agrees_range _ _ _ _, agrees_range _ _ _ _, trivial⟩
  | cconj dst a | cscale dst a factor =>
    refine decides_iff_firstFailure ?_ r
    exact ⟨agrees_range _ _ _ _, agrees_range _ _ _ _, trivial⟩
  | basis inv dst period size =>
    refine decides_iff_firstFailure ?_ r
    exact ⟨agrees_operand _ _ _ (by simp), agrees_range _ _ _ _, trivial⟩
  | bitrev data len | norm data len =>
    refine decides_iff_firstFailure ?_ r
    exact ⟨agrees_length _ _, agrees_range _ _ _ _, trivial⟩
  | bfly data roots len depth =>
    refine decides_bfly _ _ _ _ ?_ r
    exact ⟨agrees_range _ _ _ _, agrees_range _ _ _ _, agrees_disjoint _ _ _ _ _, trivial⟩
  | fft norm data roots len =>
    refine decides_iff_firstFailure ?_ r
    exact ⟨agrees_length _ _, agrees_range _ _ _ _, agrees_range _ _ _ _, agrees_disjoint _ _ _ _ _, trivial⟩
  | flow src dst h w t1 | fhigh pm src dst h w t1 | fbpass src dst h w t1 t2 | fbstop src dst h w t1 t2 =>
    refine decides_iff_firstFailure ?_ r
    exact allAgree_grid _ _ _ _ _
  | fdir src dst h w t1 t2 cfg =>
    refine decides_iff_firstFailure ?_ r
    exact ⟨agrees_operand _ _ _ (by simp), agrees_operand _ _ _ (by simp), agrees_range _ _ _ _,
      agrees_range _ _ _ _, agrees_range _ _ _ _, agrees_disjointOrSame _ _ _ _, agrees_disjoint _ _ _ _ _,
      trivial⟩
  | spmul cj dst a b n =>
    refine decides_iff_firstFailure ?_ r
    exact ⟨agrees_range _ _ _ _, agrees_range _ _ _ _, agrees_range _ _ _ _, agrees_disjointOrSame _ _ _ _,
        agrees_disjointOrSame _ _ _ _, trivial⟩
  | olaclr dst n =>
    refine decides_iff_firstFailure ?_ r
    exact ⟨agrees_range _ _ _ _, trivial⟩
  | olasel dst sig n off winLen padLen taper =>
    cases taper with
    | none =>
      refine decides_iff_firstFailure ?_ r
      exact ⟨agrees_operand _ _ _ (by simp), agrees_range _ _ _ _, agrees_range _ _ _ _, agrees_disjoint _ _ _ _ _,
          trivial⟩
    | some t =>
      refine decides_iff_firstFailure ?_ r
      exact ⟨agrees_operand _ _ _ (by simp), agrees_range _ _ _ _, agrees_range _ _ _ _, agrees_range _ _ _ _,
          agrees_disjoint _ _ _ _ _, agrees_disjoint _ _ _ _ _, trivial⟩
  | olaacc re dst src n =>
    refine decides_iff_firstFailure ?_ r
    exact ⟨agrees_range _ _ _ _, agrees_range _ _ _ _, agrees_disjoint _ _ _ _ _, trivial⟩

/-- Where the table decides a rejection, the command is rejected so. -/
theorem execOn_of_decides_some (c : BlockConfig) (i : Instr) (s : State) (r : Rejection)
    (h : Decides (failureTable c.dmemWords i) (some r)) : execOn c i s = .next (s.reject r) := by
  rw [execOn, State.complete_of_failure]
  exact (decides_failureTable c s.draws i _).1 h

/-- Where the table decides nothing, the command runs. -/
theorem execOn_of_passes (c : BlockConfig) (i : Instr) (s : State) (h : Passes c i) :
    execOn c i s = .next (s.finish ((meaningOf c s.draws i).operation s.dmem)) := by
  rw [execOn, State.complete_of_pass]
  exact (decides_failureTable c s.draws i _).1 h

theorem exec_of_decides_some (i : Instr) (s : State) (r : Rejection)
    (h : Decides (failureTable Config.block.dmemWords i) (some r)) : exec i s = .next (s.reject r) :=
  (exec_eq_execOn i s).trans (execOn_of_decides_some _ i s r h)

theorem exec_of_passes (i : Instr) (s : State) (h : Passes Config.block i) :
    exec i s = .next (s.finish ((s.meaning i).operation s.dmem)) :=
  (exec_eq_execOn i s).trans (execOn_of_passes _ i s h)

/-- The table always decides. -/
theorem decides_cases (c : BlockConfig) (i : Instr) :
    Passes c i ∨ ∃ r, Decides (failureTable c.dmemWords i) (some r) := by
  cases h : firstFailure (meaningOf c 0 i).checks with
  | none => exact .inl ((decides_failureTable c 0 i _).2 h)
  | some r => exact .inr ⟨r, (decides_failureTable c 0 i _).2 h⟩

/-- A list of failure conditions that all fail to hold decides nothing. -/
theorem decides_none_iff (l : List (Prop × Rejection)) : Decides l none ↔ ∀ p ∈ l, ¬ p.1 := by
  induction l with
  | nil => simp [Decides]
  | cons p l ih =>
    obtain ⟨q, e⟩ := p
    simp only [Decides, List.mem_cons, forall_eq_or_imp, reduceCtorEq, imp_false]
    constructor
    · rintro ⟨h1, h2⟩
      exact ⟨h1, ih.1 (h2 h1)⟩
    · rintro ⟨h1, h2⟩
      exact ⟨h1, fun _ => ih.2 h2⟩

/-- What a list decides is the rejection of one of its entries. -/
theorem decides_mem (l : List (Prop × Rejection)) (r : Rejection) (h : Decides l (some r)) :
    ∃ p ∈ l, p.1 ∧ r = p.2 := by
  induction l with
  | nil => exact absurd h (by simp [Decides])
  | cons p l ih =>
    obtain ⟨q, e⟩ := p
    by_cases hq : q
    · exact ⟨_, List.mem_cons_self .., hq, by simpa using h.1 hq⟩
    · obtain ⟨p', hp', h'⟩ := ih (h.2 hq)
      exact ⟨p', List.mem_cons_of_mem _ hp', h'⟩

end Sys2Proof.Machine
end

