-- ==== Sys2Proof/Laws/Encoding.lean ====
section
/-! SUPPORT. Which words the rows of the opcode table select, and what encoding writes into the registers
(30_encoding.md R51, R52, R56). -/

namespace Sys2Proof

/-! ## Rows (R52) -/

theorem selects_plain (name : String) (pattern w : Word) (build : Params → Instr) :
    (plainRow name pattern build).selects w = true ↔ w = pattern := by
  simp only [OpcodeRow.selects, plainRow, beq_iff_eq]
  rw [show w &&& 0xFFFFFFFF#32 = w from BitVec.and_allOnes]

/-- A word is its bits but bit 8, and bit 8. -/
theorem word_split_flag (w : Word) :
    w = (w &&& 0xFFFFFEFF#32) ||| (if flagField w then 0x100#32 else 0x000#32) := by
  refine BitVec.eq_of_getLsbD_eq fun i hi => ?_
  rw [BitVec.getLsbD_or, BitVec.getLsbD_and]
  by_cases h8 : i = 8
  · subst h8
    unfold flagField
    cases w.getLsbD 8 <;> rfl
  · have h1 : (0xFFFFFEFF#32).getLsbD i = true := by
      interval_cases i <;> first | rfl | exact absurd rfl h8
    have h2 : (if flagField w = true then 0x100#32 else 0x000#32).getLsbD i = false := by
      split
      · interval_cases i <;> first | rfl | exact absurd rfl h8
      · simp
    rw [h1, h2]
    simp

/-- A flagged row selects its pattern, and its pattern with bit 8. -/
theorem selects_flagged (name : String) (pattern w : Word) (build : Bool → Params → Instr)
    (hp : pattern &&& 0xFFFFFEFF#32 = pattern) :
    (flaggedRow name pattern build).selects w = true ↔
      w = pattern ||| (if flagField w then 0x100#32 else 0x000#32) := by
  simp only [OpcodeRow.selects, flaggedRow, beq_iff_eq]
  constructor
  · intro h
    conv_lhs => rw [word_split_flag w]
    rw [h]
  · intro h
    have hd : ∀ x y z : Word, (x ||| y) &&& z = x &&& z ||| y &&& z := fun x y z => by
      refine BitVec.eq_of_getLsbD_eq fun i _ => ?_
      simp only [BitVec.getLsbD_or, BitVec.getLsbD_and, Bool.and_or_distrib_right]
    rw [h, hd, hp]
    split <;> simp

theorem rowOf_eq_some {w : Word} {r : OpcodeRow} (h : rowOf w = some r) :
    r ∈ opcodeTable ∧ w &&& r.mask = r.pattern := by
  refine ⟨List.mem_of_find?_eq_some h, ?_⟩
  simpa [OpcodeRow.selects] using List.find?_some h

theorem rowOf_eq_none {w : Word} : rowOf w = none ↔ ∀ r ∈ opcodeTable, ¬ w &&& r.mask = r.pattern := by
  simp [rowOf, List.find?_eq_none, OpcodeRow.selects]

/-- The 27 legal command words (R52). -/
def legalWords : List Nat :=
  [0x00, 0x01, 0x02, 0x03, 0x04, 0x05, 0x06, 0x10, 0x110, 0x20, 0x21, 0x22, 0x122, 0x23,
   0x30, 0x31, 0x131, 0x32, 0x33, 0x34, 0x40, 0x140, 0x50, 0x51, 0x151, 0x52, 0x152]

theorem decode_ok_iff (m : Image) : (∃ i, decode m = .ok i) ↔ ∃ r ∈ opcodeTable, m.cmd &&& r.mask = r.pattern := by
  unfold decode
  cases h : rowOf m.cmd with
  | some r => exact ⟨fun _ => ⟨r, rowOf_eq_some h⟩, fun _ => ⟨_, rfl⟩⟩
  | none =>
    refine ⟨fun ⟨i, hi⟩ => by simp at hi, fun ⟨r, hr, h'⟩ => absurd h' (rowOf_eq_none.1 h r hr)⟩

theorem exists_row_iff_legal (w : Word) :
    (∃ r ∈ opcodeTable, w &&& r.mask = r.pattern) ↔ w.toNat ∈ legalWords := by
  constructor
  · rintro ⟨r, hr, h⟩
    have h' : r.selects w = true := by simpa [OpcodeRow.selects] using h
    simp only [opcodeTable, arithmeticRows, transformRows, filterRows, convolutionRows, List.cons_append,
      List.nil_append, List.mem_cons, List.not_mem_nil, or_false] at hr
    rcases hr with rfl | rfl | rfl | rfl | rfl | rfl | rfl | rfl | rfl | rfl | rfl | rfl | rfl | rfl | rfl |
      rfl | rfl | rfl | rfl | rfl | rfl <;>
    first
    | rw [selects_plain] at h'
      rw [h']
      decide
    | rw [selects_flagged _ _ _ _ (by decide)] at h'
      rw [h']
      split <;> decide
  · intro h
    have hw : w = BitVec.ofNat 32 w.toNat := by simp
    have key : ∀ n ∈ legalWords, ∃ r ∈ opcodeTable, BitVec.ofNat 32 n &&& r.mask = r.pattern := by
      intro n hn
      have : (rowOf (BitVec.ofNat 32 n)).isSome = true := by
        simp only [legalWords, List.mem_cons, List.not_mem_nil, or_false] at hn
        rcases hn with rfl | rfl | rfl | rfl | rfl | rfl | rfl | rfl | rfl | rfl | rfl | rfl | rfl | rfl | rfl |
          rfl | rfl | rfl | rfl | rfl | rfl | rfl | rfl | rfl | rfl | rfl | rfl <;> rfl
      obtain ⟨r, hr⟩ := Option.isSome_iff_exists.1 this
      exact ⟨r, rowOf_eq_some hr⟩
    rw [hw]
    exact key _ h

/-- Legal words are exactly these (R52, R54). -/
theorem decode_ok_iff_legal (m : Image) : (∃ i, decode m = .ok i) ↔ m.cmd.toNat ∈ legalWords :=
  (decode_ok_iff m).trans (exists_row_iff_legal m.cmd)

/-- The decoder is total: it gives a command or says illegal (R54). -/
theorem decode_total (m : Image) : (∃ i, decode m = .ok i) ∨ ∃ e, decode m = .error e := by
  cases decode m with
  | ok i => exact .inl ⟨i, rfl⟩
  | error e => exact .inr ⟨e, rfl⟩

theorem decode_error_iff (m : Image) : (∃ e, decode m = .error e) ↔ ¬ ∃ i, decode m = .ok i := by
  cases decode m with
  | ok i => simp
  | error e => simp

/-! ## Operands (R51, R58) -/

theorem zext_ofNat (n : Nat) (h : fitsRegister n = true) : zext (BitVec.ofNat 32 n) = n := by
  unfold fitsRegister at h
  rw [zext, BitVec.toNat_ofNat]
  exact Nat.mod_eq_of_lt (of_decide_eq_true h)

@[simp] theorem ofNat_zext (w : Word) : BitVec.ofNat 32 (zext w) = w := by simp [zext]

theorem fitsRegister_zext (w : Word) : fitsRegister (zext w) = true := by
  unfold fitsRegister
  exact decide_eq_true w.isLt

theorem factorOf_split (f : F64) : factorOf (f.extractLsb' 0 32) (f.extractLsb' 32 32) = f := by
  unfold factorOf
  refine BitVec.eq_of_getLsbD_eq fun i hi => ?_
  rw [BitVec.getLsbD_append]
  by_cases h : i < 32
  · simp [h]
  · have h' : i - 32 < 32 := by omega
    simp [h, h', show 32 + (i - 32) = i by omega]

theorem factorOf_low (p3 p4 : Word) : (factorOf p3 p4).extractLsb' 0 32 = p3 := by
  unfold factorOf
  refine BitVec.eq_of_getLsbD_eq fun i hi => ?_
  rw [BitVec.getLsbD_extractLsb', BitVec.getLsbD_append]
  simp [hi]

theorem factorOf_high (p3 p4 : Word) : (factorOf p3 p4).extractLsb' 32 32 = p4 := by
  unfold factorOf
  refine BitVec.eq_of_getLsbD_eq fun i hi => ?_
  rw [BitVec.getLsbD_extractLsb', BitVec.getLsbD_append]
  simp [hi]

theorem factorOf_toNat (p3 p4 : Word) : (factorOf p3 p4).toNat = p4.toNat * 2 ^ 32 + p3.toNat := by
  unfold factorOf
  rw [BitVec.toNat_append, Nat.shiftLeft_eq, Nat.mul_comm, ← Nat.two_pow_add_eq_or_of_lt p3.isLt]

/-! ## Registers (R31) -/

@[simp] theorem Params.set_p1 (p : Params) : p.set 1 p.p1 = p := rfl
@[simp] theorem Params.set_p2 (p : Params) : p.set 2 p.p2 = p := rfl
@[simp] theorem Params.set_p3 (p : Params) : p.set 3 p.p3 = p := rfl
@[simp] theorem Params.set_p4 (p : Params) : p.set 4 p.p4 = p := rfl
@[simp] theorem Params.set_p5 (p : Params) : p.set 5 p.p5 = p := rfl
@[simp] theorem Params.set_p6 (p : Params) : p.set 6 p.p6 = p := rfl
@[simp] theorem Params.set_p7 (p : Params) : p.set 7 p.p7 = p := rfl

theorem Params.setAll_append (p : Params) (l l' : List (Nat × Word)) :
    p.setAll (l ++ l') = (p.setAll l).setAll l' := by
  induction l generalizing p with
  | nil => rfl
  | cons a l ih => exact ih (p.set a.1 a.2)

/-- Every register an instruction uses is one of `P1..P7` (R51). -/
theorem usedRegisters_range (i : Instr) : ∀ r ∈ i.usedRegisters, 1 ≤ r.1 ∧ r.1 ≤ 7 := by
  cases i with
  | olasel dst sig n off winLen padLen taper => cases taper <;> simp [Instr.usedRegisters]
  | _ => simp [Instr.usedRegisters]

end Sys2Proof
end

