-- ==== Sys2Proof/Laws/FilterMask.lean ====
section
/-! SUPPORT. The filter mask unit: which positions a zero set holds (43_filter_mask.md R121, R122) and what the
common operation writes (R123). -/

namespace Sys2Proof.Machine

theorem mem_zeroSet (h w : Nat) (zero : Position → List Position) (p : Position) :
    p ∈ zeroSet h w zero ↔ ∃ sy sx, sy ≤ (h + 1) / 2 ∧ sx ≤ (w + 1) / 2 ∧ p ∈ zero (sy, sx) := by
  simp only [zeroSet, scanned, mid, List.mem_flatMap, List.mem_map, List.mem_range]
  constructor
  · rintro ⟨q, ⟨sy, hy, sx, hx, rfl⟩, hp⟩
    exact ⟨sy, sx, by omega, by omega, hp⟩
  · rintro ⟨sy, sx, hy, hx, hp⟩
    exact ⟨(sy, sx), ⟨sy, by omega, sx, by omega, rfl⟩, hp⟩

theorem mem_four (h w y x sy sx : Nat) :
    (y, x) ∈ four h w (sy, sx) ↔ (y = sy ∨ y = (h - sy) % h) ∧ (x = sx ∨ x = (w - sx) % w) := by
  simp only [four, mirror, List.mem_cons, List.not_mem_nil, or_false, Prod.mk.injEq]
  tauto

theorem mem_pairA (h w y x sy sx : Nat) :
    (y, x) ∈ pairA h w (sy, sx) ↔ (y = sy ∧ x = sx) ∨ (y = (h - sy) % h ∧ x = (w - sx) % w) := by
  simp [pairA, mirror]

theorem mem_pairB (h w y x sy sx : Nat) :
    (y, x) ∈ pairB h w (sy, sx) ↔ (y = (h - sy) % h ∧ x = sx) ∨ (y = sy ∧ x = (w - sx) % w) := by
  simp [pairB, mirror]

/-- A rule that fires on a squared distance zeroes the positions reached from a coordinate on which it fires. -/
theorem mem_zeroSet_fourIf (h w : Nat) (fires : Nat → Prop) (rule : Position → Bool) (y x : Nat)
    (hr : ∀ sy sx, rule (sy, sx) = true ↔ fires (((h + 1) / 2 - sy) ^ 2 + ((w + 1) / 2 - sx) ^ 2)) :
    (y, x) ∈ zeroSet h w (fun p => fourIf h w p (rule p)) ↔ Reached h w fires y x := by
  rw [mem_zeroSet]
  refine exists_congr fun sy => exists_congr fun sx => and_congr_right fun _ => and_congr_right fun _ => ?_
  rw [← hr sy sx]
  cases rule (sy, sx) <;> simp [fourIf, mem_four]

theorem inAnnulus_iff (h w t1 t2 : Nat) (p : Position) :
    inAnnulus h w t1 t2 p = true ↔ t1 ≤ distSq h w p ∧ distSq h w p < t2 := by
  unfold inAnnulus
  rw [Bool.and_eq_true, decide_eq_true_iff, decide_eq_true_iff]

theorem mem_lowZero (h w t1 y x : Nat) :
    (y, x) ∈ zeroSet h w (lowZero h w t1) ↔ Reached h w (fun d => t1 ≤ d) y x :=
  mem_zeroSet_fourIf h w _ (fun p => decide (t1 ≤ distSq h w p)) y x fun _ _ => decide_eq_true_iff

theorem mem_highZero (h w t1 y x : Nat) :
    (y, x) ∈ zeroSet h w (highZero h w t1) ↔ Reached h w (fun d => d < t1) y x :=
  mem_zeroSet_fourIf h w _ (fun p => decide (distSq h w p < t1)) y x fun _ _ => decide_eq_true_iff

theorem mem_passZero (h w t1 t2 y x : Nat) :
    (y, x) ∈ zeroSet h w (passZero h w t1 t2) ↔ Reached h w (fun d => ¬ (t1 ≤ d ∧ d < t2)) y x :=
  mem_zeroSet_fourIf h w _ (fun p => !inAnnulus h w t1 t2 p) y x fun sy sx => by
    rw [Bool.not_eq_true', ← Bool.not_eq_true, inAnnulus_iff]
    rfl

theorem mem_stopZero (h w t1 t2 y x : Nat) :
    (y, x) ∈ zeroSet h w (stopZero h w t1 t2) ↔ Reached h w (fun d => t1 ≤ d ∧ d < t2) y x :=
  mem_zeroSet_fourIf h w _ (inAnnulus h w t1 t2) y x fun sy sx => by
    rw [inAnnulus_iff]
    rfl

theorem positionOf_index (w y x : Nat) (hx : x < w) : positionOf w (y * w + x) = (y, x) := by
  have hw : 0 < w := by omega
  unfold positionOf
  rw [Nat.add_comm, Nat.add_mul_div_right _ _ hw, Nat.div_eq_of_lt hx, Nat.add_mul_mod_self_right,
    Nat.mod_eq_of_lt hx, Nat.zero_add]

theorem index_lt (h w y x : Nat) (hy : y < h) (hx : x < w) : y * w + x < h * w := by
  have : (y + 1) * w ≤ h * w := Nat.mul_le_mul_right _ hy
  rw [Nat.add_mul] at this
  omega

/-- The common operation: it writes the destination grid and nothing else (R123). -/
theorem filterGrid_spec (c : BlockConfig) (src dst h w : Nat) (z : List Position) (exempt : Position → Bool)
    (m : Memory) :
    Keeps (InRegion dst (h * w)) m (filterGrid c src dst h w z exempt m) ∧
    ∀ y x, y < h → x < w → (filterGrid c src dst h w z exempt m).read c (dst + y * w + x) =
      if (y, x) ∈ z ∧ exempt (y, x) = false then CWord.zero else m.read c (src + y * w + x) := by
  obtain ⟨hk, hr⟩ := Memory.store_spec c m dst (h * w) fun i =>
    if decide (positionOf w i ∈ z) && !exempt (positionOf w i) then CWord.zero else m.read c (src + i)
  refine ⟨hk, fun y x hy hx => ?_⟩
  have := hr (y * w + x) (index_lt h w y x hy hx)
  rw [Nat.add_assoc, Nat.add_assoc]
  unfold filterGrid
  rw [this, positionOf_index w y x hx]
  exact if_congr (by simp) rfl rfl

/-- The same as the claims say it: `ZERO` where the rule zeroes, the source word elsewhere, nothing outside. -/
theorem filterGrid_writes (s : State) (src dst h w : Nat) (z : List Position) (exempt : Position → Bool)
    (zeroed : Nat → Nat → Prop) (hz : ∀ y x, ((y, x) ∈ z ∧ exempt (y, x) = false) ↔ zeroed y x) (a : Nat) :
    FilterWrites s src dst h w zeroed a
      ((filterGrid Config.block src dst h w z exempt s.dmem).read Config.block a) := by
  obtain ⟨hk, hr⟩ := filterGrid_spec Config.block src dst h w z exempt s.dmem
  refine ⟨?_, hk.other _ _⟩
  rintro y x hy hx rfl
  have hyx := hr y x hy hx
  exact ⟨fun h1 => hyx.trans (if_pos ((hz y x).2 h1)), fun h1 => hyx.trans (if_neg fun h2 => h1 ((hz y x).1 h2))⟩

end Sys2Proof.Machine
end

