-- ==== Sys2Proof/Laws/Transform.lean ====
section
/-! SUPPORT. The transform family: bit reversal, the net effect of `BITREV`, one butterfly stage, `NORM`
(42_fft.md R101 to R104). -/

namespace Sys2Proof.Machine

/-! ## Bit reversal (R3) -/

theorem rev_lt (n i : Nat) : rev n i < 2 ^ n := by
  induction n generalizing i with
  | zero => simp [rev]
  | succ n ih =>
    have := ih (i / 2)
    have h2 : i % 2 < 2 := Nat.mod_lt _ (by decide)
    have : i % 2 * 2 ^ n ≤ 1 * 2 ^ n := Nat.mul_le_mul_right _ (by omega)
    rw [rev, pow_succ]
    omega

theorem rev_testBit (n i b : Nat) (h : b < n) : (rev n i).testBit (n - 1 - b) = i.testBit b := by
  induction n generalizing i b with
  | zero => exact absurd h (Nat.not_lt_zero b)
  | succ n ih =>
    have hlt := rev_lt n (i / 2)
    have hor : rev (n + 1) i = 2 ^ n * (i % 2) + rev n (i / 2) := by rw [rev, Nat.mul_comm]
    rw [hor, Nat.testBit_two_pow_mul_add _ hlt]
    cases b with
    | zero =>
      rw [if_neg (by omega), show n + 1 - 1 - 0 - n = 0 by omega]
      simp [Nat.testBit_zero]
    | succ b =>
      rw [if_pos (by omega), show n + 1 - 1 - (b + 1) = n - 1 - b by omega, ih (i / 2) b (by omega),
        Nat.testBit_succ]

theorem rev_rev (n i : Nat) (h : i < 2 ^ n) : rev n (rev n i) = i := by
  refine Nat.eq_of_testBit_eq fun k => ?_
  by_cases hk : k < n
  · have h1 := rev_testBit n (rev n i) (n - 1 - k) (by omega)
    have h2 := rev_testBit n i k hk
    rw [show n - 1 - (n - 1 - k) = k by omega] at h1
    rw [h1, h2]
  · have hp : 2 ^ n ≤ 2 ^ k := Nat.pow_le_pow_right (by decide) (by omega)
    rw [Nat.testBit_lt_two_pow (lt_of_lt_of_le (rev_lt n _) hp), Nat.testBit_lt_two_pow (lt_of_lt_of_le h hp)]

/-! ## `BITREV` (R101) -/

/-- What the loop has done before turn `k`: the pairs whose larger index is below `k` have been swapped. -/
def Swapped (c : BlockConfig) (data bits k : Nat) (m m' : Memory) : Prop :=
  Keeps (InRegion data (2 ^ bits)) m m' ∧
  ∀ i, i < 2 ^ bits → m'.read c (data + i) =
    m.read c (data + if max i (rev bits i) < k then rev bits i else i)

theorem reverseTurn_spec (c : BlockConfig) (data bits k : Nat) (m m' : Memory) (hk : k < 2 ^ bits)
    (h : Swapped c data bits k m m') : Swapped c data bits (k + 1) m (reverseTurn c data bits k m') := by
  obtain ⟨hkeep, hread⟩ := h
  have hr := rev_lt bits k
  have hrr := rev_rev bits k hk
  unfold reverseTurn
  dsimp only
  split
  · rename_i hlt
    refine ⟨(hkeep.trans (Keeps.write _ _ _ _ ⟨by omega, by omega⟩)).trans
      (Keeps.write _ _ _ _ ⟨by omega, by omega⟩), fun i hi => ?_⟩
    have hii := rev_rev bits i hi
    rw [Memory.read_write, Memory.read_write]
    by_cases h1 : i = rev bits k
    · subst h1
      rw [if_pos rfl, hread k hk, if_neg (by omega), if_pos (by omega), hrr]
    · rw [if_neg (by omega)]
      by_cases h2 : i = k
      · subst h2
        rw [if_pos rfl, hread _ hr, if_neg (by omega), if_pos (by omega)]
      · have h3 : rev bits i ≠ k := fun he => h1 (by rw [← he, hii])
        rw [if_neg (by omega), hread i hi]
        congr 2
        exact if_congr (by omega) rfl rfl
  · rename_i hge
    refine ⟨hkeep, fun i hi => ?_⟩
    have hii := rev_rev bits i hi
    rw [hread i hi]
    by_cases h2 : i = k ∧ rev bits k = k
    · obtain ⟨rfl, h2⟩ := h2
      simp [h2]
    · congr 2
      refine if_congr ?_ rfl rfl
      have h3 : rev bits i = k → i = rev bits k := fun he => by rw [← he, hii]
      have h4 : i = k → rev bits i = rev bits k := fun he => by rw [he]
      by_cases h5 : i = k
      · have := h4 h5; omega
      · by_cases h6 : rev bits i = k
        · have := h3 h6; omega
        · omega

/-- The net effect of R101: `X'[i] = X[rev_n(i)]`. -/
theorem bitReverse_spec (c : BlockConfig) (data n : Nat) (m : Memory) :
    Keeps (InRegion data (2 ^ n)) m (bitReverse c data (2 ^ n) m) ∧
    ∀ i, i < 2 ^ n → (bitReverse c data (2 ^ n) m).read c (data + i) = m.read c (data + rev n i) := by
  have h : Swapped c data n (2 ^ n) m (bitReverse c data (2 ^ n) m) := by
    unfold bitReverse
    rw [log2_two_pow]
    exact forUp_induction (Swapped c data n · m) (2 ^ n) ⟨Keeps.refl _ _, fun i _ => by simp⟩
      fun k m' hk h => reverseTurn_spec c data n k m m' hk h
  refine ⟨h.1, fun i hi => ?_⟩
  have hr := rev_lt n i
  rw [h.2 i hi, if_pos (by omega)]

/-! ## One butterfly stage (R102) -/

/-- The first inner loop: the upper half but for its element 0, multiplied by roots it does not reach. -/
theorem twiddleLoop_spec (c : BlockConfig) (u : Fpu) (upper roots half rootStep : Nat) (m : Memory)
    (hroots : ∀ i, 0 < i → i < half → ¬ InRegion upper half (roots + i * rootStep)) :
    Keeps (InRegion upper half) m (twiddleLoop c u upper roots half rootStep m) ∧
    ∀ i, i < half → (twiddleLoop c u upper roots half rootStep m).read c (upper + i) =
      if i = 0 then m.read c (upper + i)
      else cmul u (m.read c (upper + i)) (m.read c (roots + i * rootStep)) := by
  have h : ∀ k, k ≤ half - 1 → ∀ m', m' = forUp k (fun j m' =>
      m'.write (upper + (j + 1)) (cmul u (m'.read c (upper + (j + 1))) (m'.read c (roots + (j + 1) * rootStep)))) m →
      Keeps (InRegion upper half) m m' ∧ ∀ i, i < half → m'.read c (upper + i) =
        if i = 0 ∨ k < i then m.read c (upper + i)
        else cmul u (m.read c (upper + i)) (m.read c (roots + i * rootStep)) := by
    intro k
    induction k with
    | zero =>
      rintro - m' rfl
      refine ⟨Keeps.refl _ _, fun i _ => ?_⟩
      rw [if_pos (by omega)]
    | succ k ih =>
      rintro hk m' rfl
      obtain ⟨hkeep, hread⟩ := ih (by omega) _ rfl
      rw [forUp_succ]
      refine ⟨hkeep.trans (Keeps.write _ _ _ _ ⟨by omega, by omega⟩), fun i hi => ?_⟩
      rw [Memory.read_write]
      by_cases hik : i = k + 1
      · subst hik
        rw [if_pos rfl, hread (k + 1) hi, if_pos (by omega), if_neg (by omega),
          hkeep.other c _ (hroots (k + 1) (by omega) hi)]
      · rw [if_neg (by omega), hread i hi]
        exact if_congr (by omega) rfl rfl
  obtain ⟨hkeep, hread⟩ := h (half - 1) (Nat.le_refl _) _ rfl
  refine ⟨hkeep, fun i hi => ?_⟩
  show Memory.read c (forUp (half - 1) _ m) (upper + i) = _
  rw [hread i hi]
  exact if_congr (by omega) rfl rfl

/-- The second inner loop: every pair becomes its sum and difference. -/
theorem combineLoop_spec (c : BlockConfig) (u : Fpu) (lower half : Nat) (m : Memory) :
    Keeps (InRegion lower (2 * half)) m (combineLoop c u lower (lower + half) half m) ∧
    ∀ i, i < half →
      (combineLoop c u lower (lower + half) half m).read c (lower + i) =
        cadd u (m.read c (lower + i)) (m.read c (lower + half + i)) ∧
      (combineLoop c u lower (lower + half) half m).read c (lower + half + i) =
        csub u (m.read c (lower + i)) (m.read c (lower + half + i)) := by
  have h : ∀ k, k ≤ half → ∀ m', m' = forUp k (fun i m' =>
      (m'.write (lower + i) (cadd u (m'.read c (lower + i)) (m'.read c (lower + half + i)))).write
        (lower + half + i) (csub u (m'.read c (lower + i)) (m'.read c (lower + half + i)))) m →
      Keeps (InRegion lower (2 * half)) m m' ∧ ∀ i, i < half →
        m'.read c (lower + i) = (if i < k then cadd u (m.read c (lower + i)) (m.read c (lower + half + i))
          else m.read c (lower + i)) ∧
        m'.read c (lower + half + i) = (if i < k then csub u (m.read c (lower + i)) (m.read c (lower + half + i))
          else m.read c (lower + half + i)) := by
    intro k
    induction k with
    | zero =>
      rintro - m' rfl
      exact ⟨Keeps.refl _ _, fun i _ => by simp⟩
    | succ k ih =>
      rintro hk m' rfl
      obtain ⟨hkeep, hread⟩ := ih (by omega) _ rfl
      rw [forUp_succ]
      obtain ⟨ha, hb⟩ := hread k (by omega)
      rw [if_neg (Nat.lt_irrefl k)] at ha hb
      refine ⟨(hkeep.trans (Keeps.write _ _ _ _ ⟨by omega, by omega⟩)).trans
        (Keeps.write _ _ _ _ ⟨by omega, by omega⟩), fun i hi => ⟨?_, ?_⟩⟩
      · rw [Memory.read_write, if_neg (by omega), Memory.read_write]
        by_cases hik : i = k
        · subst hik
          rw [if_pos rfl, if_pos (by omega), ha, hb]
        · rw [if_neg (by omega), (hread i hi).1]
          exact if_congr (by omega) rfl rfl
      · rw [Memory.read_write]
        by_cases hik : i = k
        · subst hik
          rw [if_pos rfl, if_pos (by omega), ha, hb]
        · rw [if_neg (by omega), Memory.read_write, if_neg (by omega), (hread i hi).2]
          exact if_congr (by omega) rfl rfl
  obtain ⟨hkeep, hread⟩ := h half (Nat.le_refl _) _ rfl
  refine ⟨hkeep, fun i hi => ?_⟩
  have := hread i hi
  rw [if_pos hi, if_pos hi] at this
  exact this

/-- One block of a stage. -/
def blockTurn (c : BlockConfig) (u : Fpu) (data roots half rootStep block : Nat) (m : Memory) : Memory :=
  combineLoop c u (data + block * (2 * half)) (data + block * (2 * half) + half) half
    (twiddleLoop c u (data + block * (2 * half) + half) roots half rootStep m)

/-- The second operand of a pair, as R102 forms it from memory before the stage. -/
def upperOperand (c : BlockConfig) (u : Fpu) (m : Memory) (upper roots rootStep i : Nat) : CWord :=
  if i = 0 then m.read c (upper + i) else cmul u (m.read c (upper + i)) (m.read c (roots + i * rootStep))

theorem blockTurn_spec (c : BlockConfig) (u : Fpu) (data roots half rootStep block : Nat) (m : Memory)
    (hroots : ∀ i, 0 < i → i < half → ¬ InRegion (data + block * (2 * half)) (2 * half) (roots + i * rootStep)) :
    Keeps (InRegion (data + block * (2 * half)) (2 * half)) m (blockTurn c u data roots half rootStep block m) ∧
    ∀ i, i < half →
      (blockTurn c u data roots half rootStep block m).read c (data + block * (2 * half) + i) =
        cadd u (m.read c (data + block * (2 * half) + i))
          (upperOperand c u m (data + block * (2 * half) + half) roots rootStep i) ∧
      (blockTurn c u data roots half rootStep block m).read c (data + block * (2 * half) + half + i) =
        csub u (m.read c (data + block * (2 * half) + i))
          (upperOperand c u m (data + block * (2 * half) + half) roots rootStep i) := by
  generalize hl : data + block * (2 * half) = lower at *
  obtain ⟨hk1, hr1⟩ := twiddleLoop_spec c u (lower + half) roots half rootStep m
    fun i h0 hi hin => hroots i h0 hi ⟨by have := hin.1; omega, by have := hin.2; omega⟩
  obtain ⟨hk2, hr2⟩ := combineLoop_spec c u lower half (twiddleLoop c u (lower + half) roots half rootStep m)
  simp only [blockTurn, hl]
  refine ⟨(hk1.mono fun a ha => ⟨by have := ha.1; omega, by have := ha.2; omega⟩).trans hk2, fun i hi => ?_⟩
  have hlow := hk1.other c (lower + i) fun hin => by have := hin.1; omega
  have hup := hr1 i hi
  obtain ⟨ha, hb⟩ := hr2 i hi
  rw [ha, hb, hlow, hup]
  exact ⟨rfl, rfl⟩

/-- One stage: each pair `(a, b)` of a block becomes `(a + b, a - b)`, `b` multiplied by its root but for `i = 0`,
all in terms of memory before the stage. -/
theorem butterflyStage_spec (c : BlockConfig) (u : Fpu) (data roots n depth : Nat) (m : Memory) (hd : depth < n)
    (hroots : ∀ x, InRegion roots (2 ^ n / 2) x → ¬ InRegion data (2 ^ n) x) :
    Keeps (InRegion data (2 ^ n)) m (butterflyStage c u data roots (2 ^ n) depth m) ∧
    ∀ block i, block < 2 ^ n / (2 * 2 ^ depth) → i < 2 ^ depth →
      (butterflyStage c u data roots (2 ^ n) depth m).read c (data + block * (2 * 2 ^ depth) + i) =
        cadd u (m.read c (data + block * (2 * 2 ^ depth) + i))
          (upperOperand c u m (data + block * (2 * 2 ^ depth) + 2 ^ depth) roots (2 ^ n / (2 * 2 ^ depth)) i) ∧
      (butterflyStage c u data roots (2 ^ n) depth m).read c (data + block * (2 * 2 ^ depth) + 2 ^ depth + i) =
        csub u (m.read c (data + block * (2 * 2 ^ depth) + i))
          (upperOperand c u m (data + block * (2 * 2 ^ depth) + 2 ^ depth) roots (2 ^ n / (2 * 2 ^ depth)) i) := by
  have hstep : 2 ^ n / (2 * 2 ^ depth) = 2 ^ (n - depth - 1) := by
    rw [← pow_succ', Nat.pow_div (by omega) (by decide)]
    rfl
  have hprod : 2 ^ (n - depth - 1) * (2 * 2 ^ depth) = 2 ^ n := by
    rw [← pow_succ', ← pow_add]
    congr 1
    omega
  unfold butterflyStage
  simp only [hstep]
  generalize hh : 2 ^ depth = half at *
  generalize hq : 2 ^ (n - depth - 1) = count at *
  have hin : ∀ b, b < count → ∀ x, InRegion (data + b * (2 * half)) (2 * half) x → InRegion data (2 ^ n) x := by
    intro b hb x hx
    have h1 : (b + 1) * (2 * half) ≤ count * (2 * half) := Nat.mul_le_mul_right _ hb
    rw [Nat.add_mul] at h1
    exact ⟨by have := hx.1; omega, by have := hx.2; omega⟩
  have hroot : ∀ i, 0 < i → i < half → InRegion roots (2 ^ n / 2) (roots + i * count) := by
    intro i h0 hi
    have h1 : i * count < half * count := Nat.mul_lt_mul_of_pos_right hi (by rw [← hq]; positivity)
    have h2 : 2 ^ n / 2 = half * count := by
      rw [← hprod, show count * (2 * half) = 2 * (half * count) by ring]
      simp
    exact ⟨by omega, by omega⟩
  show Keeps _ m (forUp count (blockTurn c u data roots half count) m) ∧ ∀ block i, _ → _ →
    Memory.read c (forUp count (blockTurn c u data roots half count) m) _ = _ ∧
    Memory.read c (forUp count (blockTurn c u data roots half count) m) _ = _
  have key : ∀ k, k ≤ count → ∀ m', m' = forUp k (blockTurn c u data roots half count) m →
      Keeps (InRegion data (k * (2 * half))) m m' ∧ ∀ block i, block < k → i < half →
        m'.read c (data + block * (2 * half) + i) = cadd u (m.read c (data + block * (2 * half) + i))
          (upperOperand c u m (data + block * (2 * half) + half) roots count i) ∧
        m'.read c (data + block * (2 * half) + half + i) = csub u (m.read c (data + block * (2 * half) + i))
          (upperOperand c u m (data + block * (2 * half) + half) roots count i) := by
    intro k
    induction k with
    | zero =>
      rintro - m' rfl
      exact ⟨Keeps.refl _ _, fun b _ hb => absurd hb (Nat.not_lt_zero b)⟩
    | succ k ih =>
      rintro hk m' rfl
      obtain ⟨hkeep, hread⟩ := ih (by omega) _ rfl
      rw [forUp_succ]
      obtain ⟨hk1, hr1⟩ := blockTurn_spec c u data roots half count k
        (forUp k (blockTurn c u data roots half count) m)
        fun i h0 hi hx => hroots _ (hroot i h0 hi) (hin k (by omega) _ hx)
      have hexp : (k + 1) * (2 * half) = k * (2 * half) + 2 * half := Nat.succ_mul _ _
      refine ⟨(hkeep.mono fun a ha => ⟨ha.1, by have := ha.2; omega⟩).trans
        (hk1.mono fun a ha => ⟨by have := ha.1; omega, by have := ha.2; omega⟩), fun block i hb hi => ?_⟩
      by_cases hbk : block = k
      · subst hbk
        have h1 : ∀ x, data + block * (2 * half) ≤ x →
            (forUp block (blockTurn c u data roots half count) m).read c x = m.read c x :=
          fun x hx => hkeep.other c x fun h => by have := h.2; omega
        have h2 : i ≠ 0 → (forUp block (blockTurn c u data roots half count) m).read c (roots + i * count) =
            m.read c (roots + i * count) := fun h0 =>
          hkeep.other c _ fun h => hroots _ (hroot i (by omega) hi) ⟨h.1, by
            have h3 : block * (2 * half) ≤ count * (2 * half) := Nat.mul_le_mul_right _ (by omega)
            have := h.2
            omega⟩
        have h3 : upperOperand c u (forUp block (blockTurn c u data roots half count) m)
            (data + block * (2 * half) + half) roots count i =
            upperOperand c u m (data + block * (2 * half) + half) roots count i := by
          unfold upperOperand
          split
          · exact h1 _ (by omega)
          · rename_i h0
            rw [h1 _ (by omega), h2 h0]
        have := hr1 i hi
        rw [h3, h1 _ (by omega)] at this
        exact this
      · have hlt : (block + 1) * (2 * half) ≤ k * (2 * half) := Nat.mul_le_mul_right _ (by omega)
        rw [Nat.add_mul] at hlt
        rw [hk1.other c _ fun h => by have := h.1; omega, hk1.other c _ fun h => by have := h.1; omega]
        exact hread block i (by omega) hi
  obtain ⟨hkeep, hread⟩ := key count (Nat.le_refl _) _ rfl
  rw [hprod] at hkeep
  exact ⟨hkeep, hread⟩

/-- The stages of R104, in ascending depth. -/
theorem stages_keep (c : BlockConfig) (u : Fpu) (data roots n : Nat) (m : Memory)
    (hroots : ∀ x, InRegion roots (2 ^ n / 2) x → ¬ InRegion data (2 ^ n) x) (k : Nat) (hk : k ≤ n) :
    Keeps (InRegion data (2 ^ n)) m (forUp k (fun d m' => butterflyStage c u data roots (2 ^ n) d m') m) :=
  Keeps.forUp k m fun d m' hd => (butterflyStage_spec c u data roots n d m' (by omega) hroots).1

/-! ## `NORM` (R103) and `FFT` (R104) -/

theorem normalise_spec (c : BlockConfig) (u : Fpu) (data len : Nat) (m : Memory) :
    Keeps (InRegion data len) m (normalise c u data len m) ∧
    ∀ i, i < len → (normalise c u data len m).read c (data + i) =
      cscale u (m.read c (data + i)) (powerOfHalf (log2 len)) :=
  read_forUp_write data len (fun i m' => cscale u (m'.read c (data + i)) (powerOfHalf (log2 len))) m
    fun i m' _ hm => by rw [hm.other c _ fun h => by have := h.2; omega]

theorem transform_keeps (c : BlockConfig) (u : Fpu) (norm : Bool) (data roots n : Nat) (m : Memory)
    (hroots : ∀ x, InRegion roots (2 ^ n / 2) x → ¬ InRegion data (2 ^ n) x) :
    Keeps (InRegion data (2 ^ n)) m (transform c u norm data roots (2 ^ n) m) := by
  have h1 := (bitReverse_spec c data n m).1.trans
    (stages_keep c u data roots n (bitReverse c data (2 ^ n) m) hroots n (Nat.le_refl n))
  unfold transform
  simp only [log2_two_pow]
  split
  · exact h1.trans (normalise_spec c u data (2 ^ n) _).1
  · exact h1

end Sys2Proof.Machine
end

