-- ==== Sys2Proof/Laws/Operations.lean ====
section
/-! SUPPORT. What the Operations of the remaining families write, and for every command the region it writes
(20_memory.md R45). -/

namespace Sys2Proof.Machine

/-! ## Families of one loop -/

theorem basis_spec (c : BlockConfig) (inv : Bool) (dst period size : Nat) (m : Memory) :
    Keeps (InRegion dst size) m ((basisMeaning c inv dst period size).operation m) ∧
    ∀ k, k < size → ((basisMeaning c inv dst period size).operation m).read c (dst + k) = c.tw inv period k :=
  read_forUp_write dst size (fun k _ => c.tw inv period k) m fun _ _ _ _ => rfl

theorem spmul_spec (c : BlockConfig) (k : Nat) (cj : Bool) (dst a b n : Nat) (m : Memory) :
    Keeps (InRegion dst n) m ((spmulMeaning c k cj dst a b n).operation m) ∧
    ∀ j, j < n → ((spmulMeaning c k cj dst a b n).operation m).read c (dst + j) =
      spectralProduct (c.fpu k) cj (m.read c (a + j)) (m.read c (b + j)) :=
  Memory.store_spec c m dst n _

theorem olaclr_spec (c : BlockConfig) (dst n : Nat) (m : Memory) :
    Keeps (InRegion dst n) m ((olaclrMeaning c dst n).operation m) ∧
    ∀ j, j < n → ((olaclrMeaning c dst n).operation m).read c (dst + j) = CWord.zero :=
  read_forUp_write dst n (fun _ _ => CWord.zero) m fun _ _ _ _ => rfl

theorem olasel_keeps (c : BlockConfig) (k dst sig n off winLen padLen : Nat) (taper : Option Nat) (m : Memory) :
    Keeps (InRegion dst padLen) m ((olaselMeaning c k dst sig n off winLen padLen taper).operation m) :=
  Keeps.forUp padLen m fun _ _ hj => Keeps.write _ _ _ _ ⟨by omega, by omega⟩

/-- R152 with the signal and the taper off the window. -/
theorem olasel_spec (c : BlockConfig) (k dst sig n off winLen padLen : Nat) (taper : Option Nat) (m : Memory)
    (hsig : ∀ x, InRegion sig n x → ¬ InRegion dst padLen x)
    (htaper : ∀ t, taper = some t → ∀ x, InRegion t winLen x → ¬ InRegion dst padLen x) (j : Nat) (hj : j < padLen) :
    ((olaselMeaning c k dst sig n off winLen padLen taper).operation m).read c (dst + j) =
      windowWord c (c.fpu k) sig n off winLen taper j m := by
  refine (read_forUp_write dst padLen (windowWord c (c.fpu k) sig n off winLen taper) m ?_).2 j hj
  intro i m' hi hm
  unfold windowWord
  split
  · rename_i hin
    have h1 : m'.read c (sig + off + i) = m.read c (sig + off + i) :=
      hm.other c _ fun h => hsig (sig + off + i) ⟨by omega, by omega⟩ ⟨h.1, by have := h.2; omega⟩
    cases taper with
    | none => exact h1
    | some t =>
      have h2 : m'.read c (t + i) = m.read c (t + i) :=
        hm.other c _ fun h => htaper t rfl (t + i) ⟨by omega, by omega⟩ ⟨h.1, by have := h.2; omega⟩
      simp only [h1, h2]
  · rfl

theorem olaacc_keeps (c : BlockConfig) (k : Nat) (re : Bool) (dst src n : Nat) (m : Memory) :
    Keeps (InRegion dst n) m ((olaaccMeaning c k re dst src n).operation m) :=
  Keeps.forUp n m fun _ _ hj => Keeps.write _ _ _ _ ⟨by omega, by omega⟩

/-- R153 with the window off the buffer. -/
theorem olaacc_spec (c : BlockConfig) (k : Nat) (re : Bool) (dst src n : Nat) (m : Memory)
    (hsrc : ∀ x, InRegion src n x → ¬ InRegion dst n x) (j : Nat) (hj : j < n) :
    ((olaaccMeaning c k re dst src n).operation m).read c (dst + j) =
      cadd (c.fpu k) (m.read c (dst + j)) (addend re (m.read c (src + j))) := by
  refine (read_forUp_write dst n
    (fun j m' => cadd (c.fpu k) (m'.read c (dst + j)) (addend re (m'.read c (src + j)))) m ?_).2 j hj
  intro i m' hi hm
  rw [hm.other c (dst + i) fun h => by have := h.2; omega,
    hm.other c (src + i) fun h => hsrc (src + i) ⟨by omega, by omega⟩ ⟨h.1, by have := h.2; omega⟩]

/-! ## The region a command writes -/

/-- Base and length of the region a command's Operation writes. -/
def writtenRegion : Instr → Nat × Nat
  | .nop => (0, 0)
  | .cadd dst _ _ | .csub dst _ _ | .cmul dst _ _ | .cdiv dst _ _ | .cconj dst _ | .cscale dst _ _ => (dst, 1)
  | .basis _ dst _ size => (dst, size)
  | .bitrev data len | .bfly data _ len _ | .fft _ data _ len | .norm data len => (data, len)
  | .flow _ dst h w _ | .fhigh _ _ dst h w _ | .fbpass _ dst h w _ _ | .fbstop _ dst h w _ _
  | .fdir _ dst h w _ _ _ => (dst, h * w)
  | .spmul _ dst _ _ n => (dst, n)
  | .olaclr dst n => (dst, n)
  | .olasel dst _ _ _ _ padLen _ => (dst, padLen)
  | .olaacc _ dst _ n => (dst, n)

theorem not_share_iff (a m b n : Nat) : ¬ Share a m b n ↔ ∀ x, InRegion b n x → ¬ InRegion a m x := by
  unfold Share
  push Not
  exact forall_congr' fun x => ⟨fun h h1 h2 => h h2 h1, fun h h1 h2 => h h2 h1⟩

/-- Every entry of the table that a passing command avoids. -/
theorem Passes.not {c : BlockConfig} {i : Instr} (h : Passes c i) (p : Prop × Rejection)
    (hp : p ∈ failureTable c.dmemWords i) : ¬ p.1 :=
  (decides_none_iff _).1 h p hp

/-- A command whose checks pass writes a region inside DMEM (R45). -/
theorem Passes.inside {c : BlockConfig} {i : Instr} (h : Passes c i) :
    (writtenRegion i).1 + (writtenRegion i).2 ≤ c.dmemWords := by
  rw [Passes, decides_none_iff] at h
  cases i with
  | olasel dst sig n off winLen padLen taper =>
    cases taper <;> simp [failureTable, Outside] at h <;> simp only [writtenRegion] <;> omega
  | flow src dst h w t1 | fhigh pm src dst h w t1 | fbpass src dst h w t1 t2 | fbstop src dst h w t1 t2
  | fdir src dst h w t1 t2 cfg =>
    simp [failureTable, gridFailures, gridRangeFailures, gridOverlapFailures, Outside] at h
    simp only [writtenRegion]
    omega
  | nop => simp [writtenRegion]
  | _ =>
    simp [failureTable, Outside] at h
    simp only [writtenRegion]
    omega

/-- A command whose checks pass writes nothing outside its region. -/
theorem operation_keeps (c : BlockConfig) (i : Instr) (k : Nat) (m : Memory) (hp : Passes c i) :
    Keeps (InRegion (writtenRegion i).1 (writtenRegion i).2) m ((meaningOf c k i).operation m) := by
  cases i with
  | nop => exact Keeps.refl _ m
  | cadd dst a b | csub dst a b | cmul dst a b | cdiv dst a b | cconj dst a | cscale dst a factor =>
    exact Keeps.write _ m _ _ ⟨Nat.le_refl _, Nat.lt_succ_self _⟩
  | basis inv dst period size => exact (basis_spec c inv dst period size m).1
  | bitrev data len =>
    obtain ⟨n, rfl⟩ := not_not.1 (hp.not (¬ IsPow2 len, ⟨.invalidLength, 3⟩) (by simp [failureTable]))
    exact (bitReverse_spec c data n m).1
  | bfly data roots len depth =>
    obtain ⟨n, rfl⟩ := not_not.1 (hp.not (¬ IsPow2 len, ⟨.invalidLength, 3⟩) (by simp [failureTable]))
    have hd : ¬ 2 ^ n ≤ 2 ^ depth := hp.not (2 ^ n ≤ 2 ^ depth, ⟨.badOperand, 4⟩) (by simp [failureTable])
    rw [Nat.pow_le_pow_iff_right (by decide)] at hd
    have hs := hp.not (Share data (2 ^ n) roots (2 ^ n / 2), ⟨.overlap, 1⟩) (by simp [failureTable])
    exact (butterflyStage_spec c _ data roots n depth m (by omega) ((not_share_iff _ _ _ _).1 hs)).1
  | fft norm data roots len =>
    obtain ⟨n, rfl⟩ := not_not.1 (hp.not (¬ IsPow2 len, ⟨.invalidLength, 3⟩) (by simp [failureTable]))
    have hs := hp.not (Share data (2 ^ n) roots (2 ^ n / 2), ⟨.overlap, 1⟩) (by simp [failureTable])
    exact transform_keeps c _ norm data roots n m ((not_share_iff _ _ _ _).1 hs)
  | norm data len => exact (normalise_spec c _ data len m).1
  | flow src dst h w t1 | fhigh pm src dst h w t1 | fbpass src dst h w t1 t2 | fbstop src dst h w t1 t2
  | fdir src dst h w t1 t2 cfg => exact (filterGrid_spec c src dst h w _ _ m).1
  | spmul cj dst a b n => exact (spmul_spec c k cj dst a b n m).1
  | olaclr dst n => exact (olaclr_spec c dst n m).1
  | olasel dst sig n off winLen padLen taper => exact olasel_keeps c k dst sig n off winLen padLen taper m
  | olaacc re dst src n => exact olaacc_keeps c k re dst src n m

/-- How a command ends, whatever it is: it runs, with its writes in its region, or it is rejected with an
error of the table and nothing else happens (R19). -/
theorem execOn_cases (c : BlockConfig) (i : Instr) (s : State) :
    (Passes c i ∧ ∃ m, execOn c i s = .next (s.finish m) ∧
      Keeps (InRegion (writtenRegion i).1 (writtenRegion i).2) s.dmem m) ∨
    ∃ r, Decides (failureTable c.dmemWords i) (some r) ∧ execOn c i s = .next (s.reject r) := by
  rcases decides_cases c i with h | ⟨r, h⟩
  · exact .inl ⟨h, _, execOn_of_passes c i s h, operation_keeps c i _ _ h⟩
  · exact .inr ⟨r, h, execOn_of_decides_some c i s r h⟩

theorem exec_cases (i : Instr) (s : State) :
    (Passes Config.block i ∧ ∃ m, exec i s = .next (s.finish m) ∧
      Keeps (InRegion (writtenRegion i).1 (writtenRegion i).2) s.dmem m) ∨
    ∃ r, Decides (failureTable Config.block.dmemWords i) (some r) ∧ exec i s = .next (s.reject r) := by
  rw [exec_eq_execOn]
  exact execOn_cases Config.block i s

/-- The errors of the table are those the block raises (R171, R172). -/
theorem raisable_of_decides (words : Nat) (i : Instr) (r : Rejection)
    (h : Decides (failureTable words i) (some r)) : r ∈ raisable := by
  obtain ⟨p, hp, -, rfl⟩ := decides_mem _ _ h
  have key : ∀ q ∈ (failureTable words i).map Prod.snd, q ∈ raisable := by
    cases i with
    | olasel dst sig n off winLen padLen taper =>
      cases taper <;>
        simp only [failureTable, List.map_cons, List.map_nil, List.forall_mem_cons, List.not_mem_nil,
          false_imp_iff, implies_true, and_true] <;> decide
    | _ =>
      simp only [failureTable, gridFailures, gridRangeFailures, gridOverlapFailures, List.cons_append,
        List.nil_append, List.map_cons, List.map_nil, List.forall_mem_cons, List.not_mem_nil, false_imp_iff,
        implies_true, and_true]
      try decide
  exact key _ (List.mem_map_of_mem hp)

/-- A command whose checks pass runs, and DMEM is then the result of its Operation. -/
theorem runsTo_of_passes {i : Instr} {s : State} {after : Nat → CWord → Prop} (hp : Passes Config.block i)
    (h : ∀ x, after x (((s.meaning i).operation s.dmem).read Config.block x)) : RunsTo i s after := by
  have hk := operation_keeps Config.block i s.draws s.dmem hp
  exact ⟨_, exec_of_passes i s hp, State.ran_finish s _ hk.epoch, h⟩

/-- An address of a region is the base plus an index below the length. -/
theorem InRegion.index {b n x : Nat} (h : InRegion b n x) : ∃ j, j < n ∧ x = b + j :=
  ⟨x - b, by have := h.1; have := h.2; omega, by have := h.1; omega⟩

end Sys2Proof.Machine
end

