-- ==== Sys2Proof/Laws/Step.lean ====
section
/-! SUPPORT. What one step can do, said once: the host's turn, the transactions, the core's completion
(10_state.md R18 to R20, 20_memory.md R31 to R35). -/

namespace Sys2Proof.Machine

/-! ## Whose turn it is (R20, R33) -/

/-- The host moves exactly when it has a transaction and that one is not held. -/
theorem hostTurn_eq_some_iff (s s' : State) (t : Transaction) :
    s.hostTurn = some (t, s') ↔ ∃ early rest, s.host = ⟨t, early⟩ :: rest ∧ s' = { s with host := rest } ∧
      (s.busy = true → early = true ∧ t.neverHeld = true) := by
  unfold State.hostTurn
  cases hh : s.host with
  | nil => simp
  | cons a rest =>
    obtain ⟨txn, e⟩ := a
    simp only
    split
    · rename_i hc
      simp only [Bool.and_eq_true, Bool.not_eq_true', Bool.and_eq_false_iff] at hc
      constructor
      · intro h; cases h
      · rintro ⟨early, rest', heq, -, hb⟩
        cases heq
        have := hb hc.1
        simp [this.1, this.2] at hc
    · rename_i hc
      constructor
      · intro h
        cases h
        refine ⟨e, rest, rfl, rfl, fun hb => ?_⟩
        simpa [hb] using hc
      · rintro ⟨early, rest', heq, rfl, -⟩
        cases heq
        rfl

theorem hostTurn_idle (s : State) (t : Transaction) (early : Bool) (rest : List HostAct) (hb : s.busy = false)
    (hh : s.host = ⟨t, early⟩ :: rest) : s.hostTurn = some (t, { s with host := rest }) :=
  (hostTurn_eq_some_iff s _ t).2 ⟨early, rest, hh, rfl, fun h => by rw [hb] at h; cases h⟩

theorem hostTurn_neverHeld (s : State) (t : Transaction) (rest : List HostAct) (ht : t.neverHeld = true)
    (hh : s.host = ⟨t, true⟩ :: rest) : s.hostTurn = some (t, { s with host := rest }) :=
  (hostTurn_eq_some_iff s _ t).2 ⟨true, rest, hh, rfl, fun _ => ⟨rfl, ht⟩⟩

theorem hostTurn_held (s : State) (t : Transaction) (early : Bool) (rest : List HostAct) (hb : s.busy = true)
    (ht : t.neverHeld = false) (hh : s.host = ⟨t, early⟩ :: rest) : s.hostTurn = none := by
  unfold State.hostTurn
  rw [hh]
  simp [hb, ht]

theorem hostTurn_nil (s : State) (hh : s.host = []) : s.hostTurn = none := by
  unfold State.hostTurn
  rw [hh]

/-! ## A step by whose turn it is -/

theorem step_of_hostTurn (s s' : State) (t : Transaction) (h : s.hostTurn = some (t, s')) : step s = perform t s' := by
  unfold step
  rw [h]

theorem step_of_core (s : State) (h : s.hostTurn = none) (hb : s.busy = true) : step s = coreStep s := by
  unfold step
  rw [h]
  simp [hb]

theorem step_of_wait (s : State) (h : s.hostTurn = none) (hb : s.busy = false) : step s = .next s := by
  unfold step
  rw [h]
  simp [hb]

/-! ## The core's completion (R19) -/

theorem coreStep_of_decode (s : State) (i : Instr) (h : decode s.latch = .ok i) : coreStep s = exec i s := by
  unfold coreStep
  rw [h]

theorem coreStep_of_illegal (s : State) (e : Illegal) (h : decode s.latch = .error e) :
    coreStep s = .next (s.reject illegalCommand) := by
  unfold coreStep
  rw [h]

/-- The completion always answers a next state: the command has run, its writes in a region inside DMEM, or it
has been rejected with an error the block raises. -/
theorem coreStepOn_cases (c : BlockConfig) (s : State) :
    (∃ i m, decode s.latch = .ok i ∧ Passes c i ∧ coreStepOn c s = .next (s.finish m) ∧
      Keeps (InRegion (writtenRegion i).1 (writtenRegion i).2) s.dmem m) ∨
    ∃ r ∈ raisable, coreStepOn c s = .next (s.reject r) := by
  unfold coreStepOn
  rcases decode_total s.latch with ⟨i, h⟩ | ⟨e, h⟩
  · rw [h]
    rcases execOn_cases c i s with ⟨hp, m, he, hk⟩ | ⟨r, hd, he⟩
    · exact .inl ⟨i, m, rfl, hp, he, hk⟩
    · exact .inr ⟨r, raisable_of_decides _ i r hd, he⟩
  · rw [h]
    exact .inr ⟨illegalCommand, by decide, rfl⟩

theorem coreStep_cases (s : State) :
    (∃ i m, decode s.latch = .ok i ∧ Passes Config.block i ∧ coreStep s = .next (s.finish m) ∧
      Keeps (InRegion (writtenRegion i).1 (writtenRegion i).2) s.dmem m) ∨
    ∃ r ∈ raisable, coreStep s = .next (s.reject r) := by
  rw [coreStep_eq_coreStepOn]
  exact coreStepOn_cases Config.block s

theorem coreStep_next (s : State) :
    ∃ t, coreStep s = .next t ∧ t.busy = false ∧ t.host = s.host ∧ t.params = s.params ∧ t.latch = s.latch ∧
      t.replies = s.replies ∧ t.dmem.epoch = s.dmem.epoch := by
  rcases coreStep_cases s with ⟨i, m, -, -, h, hk⟩ | ⟨r, -, h⟩
  · exact ⟨_, h, rfl, rfl, rfl, rfl, rfl, hk.epoch⟩
  · exact ⟨_, h, rfl, rfl, rfl, rfl, rfl, rfl⟩

/-! ## Transactions (R31 to R35, R190) -/

/-- A transaction refused on the bus unless `p` holds (R36): if it has a step, `p` holds. -/
theorem next_of_ite {p : Prop} [Decidable p] {s t : State} {r : Refusal}
    (h : (if p then .next s else .refused r : Outcome) = .next t) : p ∧ t = s := by
  split at h
  · injection h with h
    exact ⟨‹p›, h.symm⟩
  · cases h

theorem perform_regWrite (n : Nat) (v : Word) (s : State) (h : n ≤ 15) :
    perform (.regWrite n v) s = .next (s.writeRegister n v) := if_pos h

theorem perform_regRead (n : Nat) (s : State) (h : n ≤ 15) :
    perform (.regRead n) s = .next (s.reply (.register (s.register n))) := if_pos h

theorem perform_memWrite (a : Nat) (re im : F64) (s : State) (h : a < Config.block.dmemWords) :
    perform (.memWrite a re im) s = .next { s with dmem := s.dmem.write a ⟨re, im⟩ } := if_pos h

theorem perform_memRead (a : Nat) (s : State) (h : a < Config.block.dmemWords) :
    perform (.memRead a) s = .next (s.reply (.memory (s.word a).re (s.word a).im)) := if_pos h

theorem perform_reset (s : State) : perform .reset s = .next s.resetBlock := rfl

/-- What a register write can do: nothing, start a command, clear a pending error, or set a parameter register. -/
theorem writeRegister_cases (s : State) (n : Nat) (v : Word) :
    s.writeRegister n v = s ∨
    (n = 0 ∧ s.err = false ∧ s.writeRegister n v = { s with latch := ⟨v, s.params⟩, busy := true }) ∨
    (n = 12 ∧ v.getLsbD 0 = true ∧ s.err = true ∧
      s.writeRegister n v = { s with err := false, errCode := 0#8, errInfo := 0#3, errCmd := 0#32 }) ∨
    (1 ≤ n ∧ n ≤ 7 ∧ s.writeRegister n v = { s with params := s.params.set n v }) := by
  by_cases h0 : n = 0
  · subst h0
    rw [State.writeRegister_zero]
    cases he : s.err with
    | true => exact .inl (State.accept_of_err s v he)
    | false => exact .inr (.inl ⟨rfl, rfl, by rw [State.accept_of_no_err s v he]; simp [he]⟩)
  · by_cases h12 : n = 12
    · subst h12
      rw [State.writeRegister_control]
      cases hv : v.getLsbD 0 with
      | false => exact .inl rfl
      | true =>
        rw [if_pos rfl]
        cases he : s.err with
        | false => exact .inl (State.clearError_of_no_err s he)
        | true => exact .inr (.inr (.inl ⟨rfl, rfl, rfl, State.clearError_of_err s he⟩))
    · rw [State.writeRegister_other s n v h0 h12]
      by_cases h7 : n ≤ 7
      · exact .inr (.inr (.inr ⟨by omega, h7, rfl⟩))
      · exact .inl (by rw [params_set_of_not_param s.params n v (by omega)])

/-- What a transaction that has a step can do. -/
theorem performOn_cases {c : BlockConfig} {txn : Transaction} {s t : State} (h : performOn c txn s = .next t) :
    (∃ n v, txn = .regWrite n v ∧ n ≤ 15 ∧ t = s.writeRegister n v) ∨
    (∃ n, txn = .regRead n ∧ n ≤ 15 ∧ t = s.reply (.register (s.register n))) ∨
    (∃ a re im, txn = .memWrite a re im ∧ a < c.dmemWords ∧ t = { s with dmem := s.dmem.write a ⟨re, im⟩ }) ∨
    (∃ a, txn = .memRead a ∧ a < c.dmemWords ∧
      t = s.reply (.memory (s.dmem.read c a).re (s.dmem.read c a).im)) ∨
    (txn = .reset ∧ t = s.resetBlock) := by
  cases txn with
  | regWrite n v =>
    obtain ⟨hn, h⟩ := next_of_ite h
    exact .inl ⟨n, v, rfl, hn, h⟩
  | regRead n =>
    obtain ⟨hn, h⟩ := next_of_ite h
    exact .inr (.inl ⟨n, rfl, hn, h⟩)
  | memWrite a re im =>
    obtain ⟨ha, h⟩ := next_of_ite h
    exact .inr (.inr (.inl ⟨a, re, im, rfl, ha, h⟩))
  | memRead a =>
    obtain ⟨ha, h⟩ := next_of_ite h
    exact .inr (.inr (.inr (.inl ⟨a, rfl, ha, h⟩)))
  | reset =>
    injection h with h
    exact .inr (.inr (.inr (.inr ⟨rfl, h.symm⟩)))

theorem perform_cases {txn : Transaction} {s t : State} (h : perform txn s = .next t) :
    (∃ n v, txn = .regWrite n v ∧ n ≤ 15 ∧ t = s.writeRegister n v) ∨
    (∃ n, txn = .regRead n ∧ n ≤ 15 ∧ t = s.reply (.register (s.register n))) ∨
    (∃ a re im, txn = .memWrite a re im ∧ a < Config.block.dmemWords ∧
      t = { s with dmem := s.dmem.write a ⟨re, im⟩ }) ∨
    (∃ a, txn = .memRead a ∧ a < Config.block.dmemWords ∧
      t = s.reply (.memory (s.word a).re (s.word a).im)) ∨
    (txn = .reset ∧ t = s.resetBlock) := performOn_cases h

/-- What a step can do. -/
theorem stepOn_cases {c : BlockConfig} {s t : State} (h : stepOn c s = .next t) :
    (∃ txn s', s.hostTurn = some (txn, s') ∧ performOn c txn s' = .next t) ∨
    (s.hostTurn = none ∧ s.busy = true ∧
      ((∃ i m, decode s.latch = .ok i ∧ Passes c i ∧ t = s.finish m ∧
        Keeps (InRegion (writtenRegion i).1 (writtenRegion i).2) s.dmem m) ∨
      ∃ r ∈ raisable, t = s.reject r)) ∨
    (s.hostTurn = none ∧ s.busy = false ∧ t = s) := by
  unfold stepOn at h
  split at h
  · exact .inl ⟨_, _, ‹_›, h⟩
  · split at h
    · refine .inr (.inl ⟨‹_›, ‹_›, ?_⟩)
      rcases coreStepOn_cases c s with ⟨i, m, hd, hp, hc, hk⟩ | ⟨r, hr, hc⟩ <;>
        rw [hc] at h <;> injection h with h
      · exact .inl ⟨i, m, hd, hp, h.symm, hk⟩
      · exact .inr ⟨r, hr, h.symm⟩
    · injection h with h
      exact .inr (.inr ⟨‹_›, by simpa using ‹¬ s.busy = true›, h.symm⟩)

theorem step_cases {s t : State} (h : step s = .next t) :
    (∃ txn s', s.hostTurn = some (txn, s') ∧ perform txn s' = .next t) ∨
    (s.hostTurn = none ∧ s.busy = true ∧
      ((∃ i m, decode s.latch = .ok i ∧ Passes Config.block i ∧ t = s.finish m ∧
        Keeps (InRegion (writtenRegion i).1 (writtenRegion i).2) s.dmem m) ∨
      ∃ r ∈ raisable, t = s.reject r)) ∨
    (s.hostTurn = none ∧ s.busy = false ∧ t = s) :=
  stepOn_cases ((step_eq_stepOn s).symm.trans h)

/-! ## Runs -/

theorem run_zero (s : State) : Host.Core.run Sys2Proof.core 0 s = .next s := rfl

theorem run_succ (k : Nat) (s s' : State) (h : step s = .next s') :
    Host.Core.run Sys2Proof.core (k + 1) s = Host.Core.run Sys2Proof.core k s' := by
  have h' : Sys2Proof.core.step s = .next s' := h
  simp only [Host.Core.run, h']

theorem run_add (j k : Nat) (s t : State) (h : Host.Core.run Sys2Proof.core j s = .next t) :
    Host.Core.run Sys2Proof.core (j + k) s = Host.Core.run Sys2Proof.core k t := by
  induction j generalizing s with
  | zero =>
    rw [run_zero] at h
    injection h with h
    rw [Nat.zero_add, h]
  | succ j ih =>
    cases hs : step s with
    | next s' =>
      rw [run_succ j s s' hs] at h
      rw [Nat.succ_add, run_succ _ s s' hs, ih s' h]
    | fault f => cases f
    | refused r =>
      have h' : Sys2Proof.core.step s = .refused r := hs
      simp only [Host.Core.run, h'] at h
      cases h

/-! ## The host's transactions in IDLE and ERROR -/

/-- While `BUSY = 0` the host's next transaction takes effect. -/
theorem step_idle (s : State) (t : Transaction) (early : Bool) (rest : List HostAct) (hb : s.busy = false)
    (hh : s.host = ⟨t, early⟩ :: rest) : step s = perform t { s with host := rest } :=
  step_of_hostTurn _ _ _ (hostTurn_idle s t early rest hb hh)

/-- A list of writes to parameter registers, issued while `BUSY = 0`, sets them in order (R31, R39). -/
theorem run_writes (l : List (Nat × Word)) (s : State) (rest : List HostAct) (hl : ∀ r ∈ l, 1 ≤ r.1 ∧ r.1 ≤ 7)
    (hb : s.busy = false) (hh : s.host = l.map (fun r => later (.regWrite r.1 r.2)) ++ rest) :
    Host.Core.run Sys2Proof.core l.length s = .next { s with params := s.params.setAll l, host := rest } := by
  induction l generalizing s with
  | nil =>
    have h : s.host = rest := hh
    rw [← h]
    rfl
  | cons r l ih =>
    obtain ⟨n, v⟩ := r
    obtain ⟨h1, h7⟩ := hl _ (List.mem_cons_self ..)
    have hs := step_idle s (.regWrite n v) false (l.map (fun r => later (.regWrite r.1 r.2)) ++ rest) hb hh
    rw [perform_regWrite n v _ (by omega), State.writeRegister_other _ n v (by omega) (by omega)] at hs
    rw [List.length_cons, run_succ _ s _ hs]
    exact ih { s with params := s.params.set n v, host := l.map (fun r => later (.regWrite r.1 r.2)) ++ rest }
      (fun r hr => hl r (List.mem_cons_of_mem _ hr)) hb rfl

end Sys2Proof.Machine
end

