-- ==== Sys2Proof/Laws/Procedures.lean ====
section
/-! SUPPORT. What the host obtains when it reads a result (the last step of R142, R144, R146 and R154), and what
a legal overlap-add plan says (R154 step 1). -/

namespace Sys2Proof.Machine

/-- The transactions of a read of `n` words: one `HostMemRead` a word, in ascending address (R35). -/
theorem readWords_acts (s : State) (a n : Nat) :
    (readWords a n).flatMap (stepActs s) = (List.range n).map fun j => later (.memRead (a + j)) := by
  rw [List.map_eq_flatMap, readWords, List.flatMap_map]
  rfl

/-- While `BUSY = 0` a read of `n` words of DMEM returns them in order and changes nothing else (R35, R39). -/
theorem run_readWords (a n : Nat) (s : State) (rest : List HostAct) (hb : s.busy = false)
    (ha : a + n ≤ Config.block.dmemWords) (hh : s.host = (readWords a n).flatMap (stepActs s) ++ rest) :
    Host.Core.run Sys2Proof.core n s = .next { s with
      host := rest
      replies := s.replies ++ (List.range n).map fun j => .memory (s.word (a + j)).re (s.word (a + j)).im } := by
  rw [readWords_acts] at hh
  induction n generalizing rest with
  | zero =>
    have h : s.host = rest := hh
    rw [run_zero, ← h]
    simp
  | succ n ih =>
    rw [List.range_succ, List.map_append, List.append_assoc] at hh
    have hs := step_idle { s with
        host := later (.memRead (a + n)) :: rest
        replies := s.replies ++ (List.range n).map fun j => .memory (s.word (a + j)).re (s.word (a + j)).im }
      (.memRead (a + n)) false rest hb rfl
    rw [perform_memRead _ _ (by omega)] at hs
    rw [run_add n 1 _ _ (ih (later (.memRead (a + n)) :: rest) (by omega) hh), run_succ 0 _ _ hs, run_zero,
      List.range_succ, List.map_append, ← List.append_assoc]
    rfl

/-- The real parts of the words read are their `re` halves (R145). -/
theorem realParts_words (f : Nat → CWord) (n : Nat) :
    realParts ((List.range n).map fun j => .memory (f j).re (f j).im) = (List.range n).map fun j => (f j).re := by
  simp [realParts, List.filterMap_map]

/-- A legal plan is what R154 asks of the host's choices. -/
theorem OverlapAddPlan.legal_iff (p : OverlapAddPlan) :
    p.legal = true ↔ 1 ≤ p.winLen ∧ 1 ≤ p.hop ∧ IsPow2 p.padLen ∧ p.winLen + p.taps.length - 1 ≤ p.padLen := by
  simp [OverlapAddPlan.legal, pow2_iff_isPow2, and_assoc]

/-- The windows start at every multiple of the hop below `N`, and nowhere else (R154 step 4). -/
theorem OverlapAddPlan.mem_offsets (p : OverlapAddPlan) (hop : 1 ≤ p.hop) (off : Nat) :
    off ∈ p.offsets ↔ off < p.n ∧ ∃ i, off = i * p.hop := by
  simp only [OverlapAddPlan.offsets, List.mem_filter, List.mem_map, List.mem_range, decide_eq_true_eq]
  constructor
  · rintro ⟨⟨i, -, rfl⟩, h⟩
    exact ⟨h, i, rfl⟩
  · rintro ⟨h, i, rfl⟩
    exact ⟨⟨i, lt_of_le_of_lt (Nat.le_mul_of_pos_right i hop) h, rfl⟩, h⟩

end Sys2Proof.Machine
end

