-- ==== Sys2Proof/Machine/DefaultParameters.lean ====
section
/-! DEFINITION. The spec's DEFAULT instances of the open parameters (41_twiddle.md R91, 43_filter_mask.md
R131, 40_complex_arithmetic.md R71), which its test vectors use. The machine does not use them: `exec` and
`step` take the parameters of `Config.block`, of which nothing is known (logs 8 to 11). Real numbers are
natural numbers of units of `2^-p`; log 16 says how close that is. -/

namespace Sys2Proof.Machine

/-! ## Pi and the arc tangent -/

/-- `t / n - t / (m^2 (n + 2)) + ...`, the tail of the series of `arctan (1 / m)`. -/
def arctanTail (m : Nat) : Nat → Nat → Nat → Nat
  | 0, _, _ => 0
  | fuel + 1, n, t => t / n - arctanTail m fuel (n + 2) (t / (m * m))

/-- `pi * 2^p`, by Machin's formula with 64 guard bits. -/
def piUnits (p : Nat) : Nat :=
  let q := p + 64
  (16 * arctanTail 5 q 1 (2 ^ q / 5) - 4 * arctanTail 239 q 1 (2 ^ q / 239)) / 2 ^ 64

/-- Euler's series of `arctan (y / x)`: each term is the last one times `2 n / (2 n + 1) * y^2 / (x^2 + y^2)`. -/
def arctanSum (y x : Nat) : Nat → Nat → Nat → Nat
  | 0, _, t => t
  | fuel + 1, n, t => t + arctanSum y x fuel (n + 1) (t * (2 * n) * (y * y) / ((2 * n + 1) * (x * x + y * y)))

/-- `arctan (y / x) * 2^p` for `0 <= y <= x`, `0 < x`. -/
def arctanUnits (p y x : Nat) : Nat := arctanSum y x p 1 (2 ^ p * (y * x) / (x * x + y * y))

/-- `atan2(dy, dx) * 2^p` for naturals, 0 for the origin (R131). -/
def angleUnits (p dy dx : Nat) : Nat :=
  if dy = 0 then 0
  else if dy ≤ dx then arctanUnits p dy dx
  else piUnits p / 2 - arctanUnits p dx dy

/-! ## The default twiddle ROM (R91) -/

/-- `t - t x^2 / ((n + 1) (n + 2)) + ...`: the series of cosine (`n = 0`) and of sine (`n = 1`). -/
def trigTail (p x2 : Nat) : Nat → Nat → Nat → Nat
  | 0, _, _ => 0
  | fuel + 1, n, t => t - trigTail p x2 fuel (n + 2) (t * x2 / 2 ^ p / ((n + 1) * (n + 2)))

/-- The precision the default ROM is computed with. -/
def romBits : Nat := 320

/-- Cosine and sine of `(pi / 2) * (r / period)`, for `2 r <= period`, in units of `2^-romBits`. -/
def cosSinUnits (r period : Nat) : Nat × Nat :=
  let x := piUnits romBits * r / (2 * period)
  let x2 := x * x / 2 ^ romBits
  (trigTail romBits x2 80 0 (2 ^ romBits), trigTail romBits x2 80 1 x)

/-- Cosine and sine of `(pi / 2) * (r / period)` for `0 <= r < period`. -/
def quadrantUnits (r period : Nat) : Nat × Nat :=
  if r = 0 then (2 ^ romBits, 0)
  else if 2 * r ≤ period then cosSinUnits r period
  else ((cosSinUnits (period - r) period).2, (cosSinUnits (period - r) period).1)

/-- A real number of `romBits` units rounded once to binary64; zero is `+0.0` (R91). -/
def roundReal (negative : Bool) (v : Nat) : F64 :=
  pack (negative && v != 0) (roundUnits (v * 2 ^ (1074 - romBits)) 1)

/-- The default `TW` (R90, R91). -/
def defaultTw (inv : Bool) (period k : Nat) : CWord :=
  let turns := 4 * (k % period)
  let v := quadrantUnits (turns % period) period
  match turns / period with
  | 0 => ⟨roundReal false v.1, roundReal (!inv) v.2⟩
  | 1 => ⟨roundReal true v.2, roundReal (!inv) v.1⟩
  | 2 => ⟨roundReal true v.1, roundReal inv v.2⟩
  | _ => ⟨roundReal false v.2, roundReal inv v.1⟩

/-! ## The default angular predicate (R131) -/

/-- The precision of angles: every binary64 value is a whole number of these units. -/
def angleBits : Nat := 2400

/-- The precision the arc tangent is computed with. -/
def arctanBits : Nat := 400

/-- A finite binary64 value in units of `2^-angleBits`. -/
def angleOf (x : F64) : Int :=
  let v : Int := (units x * 2 ^ (angleBits - 1074) : Nat)
  if signBit x then -v else v

/-- The distance of an angle from the nearest multiple of pi. -/
def distanceModPi (v : Int) : Int :=
  let halfTurn : Int := piUnits angleBits
  min (v % halfTurn) (halfTurn - v % halfTurn)

/-- The default `DIR_PRED` (R131): some integer `m` has `|phi - dir + m pi| <= half`; `phi_B` is `-phi_A`
modulo pi. -/
def defaultDirPred (pair : QuadrantPair) (dy dx : Nat) (dir half : F64) : Bool :=
  let phiA : Int := (angleUnits arctanBits dy dx * 2 ^ (angleBits - arctanBits) : Nat)
  let phi := match pair with
    | .a => phiA
    | .b => -phiA
  isFinite dir && isFinite half && decide (distanceModPi (phi - angleOf dir) ≤ angleOf half)

/-! ## The block of the test vectors -/

/-- The parameters of 95_test_vectors.md: 65536 words of DMEM, the default `TW`, `DIR_PRED` and `NAN_POLICY`.
The free values the vectors do not involve are `ZERO`, and a quotient by a zero magnitude is the
`(NaN, NaN)` of R75. -/
def vectorBlock : BlockConfig where
  lastAddress := 65535#32
  tw := defaultTw
  dirPred := defaultDirPred
  nan := fun _ _ _ _ => canonicalNaN
  quotientByZero := fun _ _ _ => ⟨canonicalNaN, canonicalNaN⟩
  unwritten := fun _ _ => CWord.zero

end Sys2Proof.Machine
end

