-- ==== Sys2Proof/Tests/Slice0.lean ====
section
/-! SUPPORT. The model's own tests. Expected values are those of 95_test_vectors.md, named by their ids, or
written out from the rule named. Then, for every statement with hypotheses, what meets them. -/

namespace Sys2Proof.Machine.Tests

/- One theorem after another: in the package as one text, every kernel decision would wait in a thread of its own. -/
set_option Elab.async false

/-! ## Small states and what a command leaves -/

/-- A block after reset whose DMEM holds these words (rising addresses). -/
def given (cells : List (Nat × CWord)) : State := { State.reset with dmem := ⟨0, cells⟩ }

/-- `DMEM_WORDS` of this block. -/
abbrev words : Nat := Config.block.dmemWords

/-- A real number as a word. -/
def real (x : F64) : CWord := ⟨x, 0#64⟩

/-- A word told apart from others by its number; no value is meant. -/
def label (k : Nat) : CWord := ⟨BitVec.ofNat 64 k, BitVec.ofNat 64 (k + 100)⟩

/-- Labelled words `1, 2, ...` from an address on. -/
def labels (base n : Nat) : List (Nat × CWord) := (List.range n).map fun i => (base + i, label (i + 1))

/-- The words at some addresses after a command that runs. -/
def wordsAfter (c : BlockConfig) (i : Instr) (s : State) (addresses : List Nat) : Option (List CWord) :=
  match execOn c i s with
  | .next t => if t.err then none else some (addresses.map fun a => t.dmem.read c a)
  | _ => none

/-- The same on this block. -/
def leaves (i : Instr) (s : State) (addresses : List Nat) : Option (List CWord) :=
  wordsAfter Config.block i s addresses

/-- `ERRCODE` and `ERRINFO` after a command that is rejected. -/
def rejection (i : Instr) : Option (Nat × Nat) :=
  match exec i (given []) with
  | .next t => if t.err then some (t.errCode.toNat, t.errInfo.toNat) else none
  | _ => none

/-- The destination grid after a filter from the labelled grid at `0x500` to `0x600`: the label kept, or 0. -/
def gridAfter (c : BlockConfig) (i : Instr) (n : Nat) : Option (List Nat) :=
  (wordsAfter c i (given (labels 0x500 n ++ [(0x700, real 0#64)])) ((List.range n).map (0x600 + ·))).map
    fun zs => zs.map fun z => z.re.toNat

def one : F64 := 0x3FF0000000000000#64
def two : F64 := 0x4000000000000000#64
def three : F64 := 0x4008000000000000#64
def four : F64 := 0x4010000000000000#64
def seven : F64 := 0x401C000000000000#64
def ten : F64 := 0x4024000000000000#64
def minusZero : F64 := 0x8000000000000000#64
def minusOne : F64 := 0xBFF0000000000000#64
def minusTwo : F64 := 0xC000000000000000#64
def minusFour : F64 := 0xC010000000000000#64

/-! ## Well-formedness: a number of 33 bits is refused in every register operand (R51) -/

def wide : Nat := 2 ^ 32

theorem test_illformed_arithmetic : ∀ i ∈ [Instr.cadd wide 0 0, .cadd 0 wide 0, .cadd 0 0 wide, .csub wide 0 0,
    .csub 0 wide 0, .csub 0 0 wide, .cmul wide 0 0, .cmul 0 wide 0, .cmul 0 0 wide, .cdiv wide 0 0,
    .cdiv 0 wide 0, .cdiv 0 0 wide, .cconj wide 0, .cconj 0 wide, .cscale wide 0 one, .cscale 0 wide one],
    i.wellFormed = false := by decide

theorem test_illformed_transform : ∀ i ∈ [Instr.basis true wide 0 0, .basis true 0 wide 0, .basis true 0 0 wide,
    .bitrev wide 0, .bitrev 0 wide, .bfly wide 0 0 0, .bfly 0 wide 0 0, .bfly 0 0 wide 0, .bfly 0 0 0 wide,
    .fft true wide 0 0, .fft true 0 wide 0, .fft true 0 0 wide, .norm wide 0, .norm 0 wide],
    i.wellFormed = false := by decide

theorem test_illformed_filter : ∀ i ∈ [Instr.flow wide 0 0 0 0, .flow 0 0 0 0 wide, .fhigh true 0 wide 0 0 0,
    .fhigh true 0 0 0 0 wide, .fbpass 0 0 wide 0 0 0, .fbpass 0 0 0 0 0 wide, .fbstop 0 0 0 wide 0 0,
    .fbstop 0 0 0 0 0 wide, .fdir 0 0 0 0 wide 0 0, .fdir 0 0 0 0 0 wide 0, .fdir 0 0 0 0 0 0 wide],
    i.wellFormed = false := by decide

theorem test_illformed_convolution : ∀ i ∈ [Instr.spmul true wide 0 0 0, .spmul true 0 0 0 wide, .olaclr wide 0,
    .olaclr 0 wide, .olasel wide 0 0 0 0 0 none, .olasel 0 0 0 0 0 wide none, .olasel 0 0 0 0 0 0 (some wide),
    .olaacc true wide 0 0, .olaacc true 0 0 wide], i.wellFormed = false := by decide

/-! ## Decoding: words written out from R52, operands from R51; 9 stands in registers not read -/

theorem test_decode_nop : decode ⟨0x00000000#32, ⟨9#32, 9#32, 9#32, 9#32, 9#32, 9#32, 9#32⟩⟩ = .ok .nop := rfl
theorem test_decode_cadd : decode ⟨0x00000001#32, ⟨0x20#32, 0x10#32, 0x11#32, 9#32, 9#32, 9#32, 9#32⟩⟩ =
    .ok (.cadd 0x20 0x10 0x11) := rfl
theorem test_decode_csub : decode ⟨0x00000002#32, ⟨0x20#32, 0x10#32, 0x11#32, 9#32, 9#32, 9#32, 9#32⟩⟩ =
    .ok (.csub 0x20 0x10 0x11) := rfl
theorem test_decode_cmul : decode ⟨0x00000003#32, ⟨0x20#32, 0x10#32, 0x11#32, 9#32, 9#32, 9#32, 9#32⟩⟩ =
    .ok (.cmul 0x20 0x10 0x11) := rfl
theorem test_decode_cdiv : decode ⟨0x00000004#32, ⟨0x20#32, 0x10#32, 0x11#32, 9#32, 9#32, 9#32, 9#32⟩⟩ =
    .ok (.cdiv 0x20 0x10 0x11) := rfl
/-- CA24: `P3` is not read. -/
theorem test_decode_cconj : decode ⟨0x00000005#32, ⟨0#32, 1#32, 0xFFFFFFFF#32, 9#32, 9#32, 9#32, 9#32⟩⟩ =
    .ok (.cconj 0 1) := rfl
/-- CA17: `0.25` from `P4` (high) and `P3` (low). -/
theorem test_decode_cscale : decode ⟨0x00000006#32, ⟨1#32, 2#32, 0x00000000#32, 0x3FD00000#32, 9#32, 9#32, 9#32⟩⟩ =
    .ok (.cscale 1 2 0x3FD0000000000000#64) := rfl
/-- TW1 and TW2. -/
theorem test_decode_basis :
    decode ⟨0x00000010#32, ⟨0x200#32, 8#32, 4#32, 9#32, 9#32, 9#32, 9#32⟩⟩ = .ok (.basis false 0x200 8 4) ∧
    decode ⟨0x00000110#32, ⟨0x200#32, 8#32, 4#32, 9#32, 9#32, 9#32, 9#32⟩⟩ = .ok (.basis true 0x200 8 4) :=
  ⟨rfl, rfl⟩
/-- BR1: `P2` is not read. -/
theorem test_decode_bitrev : decode ⟨0x00000020#32, ⟨7#32, 9#32, 8#32, 9#32, 9#32, 9#32, 9#32⟩⟩ =
    .ok (.bitrev 7 8) := rfl
theorem test_decode_bfly : decode ⟨0x00000021#32, ⟨0x100#32, 0x200#32, 4#32, 1#32, 9#32, 9#32, 9#32⟩⟩ =
    .ok (.bfly 0x100 0x200 4 1) := rfl
theorem test_decode_fft :
    decode ⟨0x00000022#32, ⟨0x100#32, 0x200#32, 4#32, 9#32, 9#32, 9#32, 9#32⟩⟩ = .ok (.fft false 0x100 0x200 4) ∧
    decode ⟨0x00000122#32, ⟨0x100#32, 0x200#32, 4#32, 9#32, 9#32, 9#32, 9#32⟩⟩ = .ok (.fft true 0x100 0x200 4) :=
  ⟨rfl, rfl⟩
theorem test_decode_norm : decode ⟨0x00000023#32, ⟨0x10#32, 9#32, 4#32, 9#32, 9#32, 9#32, 9#32⟩⟩ =
    .ok (.norm 0x10 4) := rfl
/-- FM2. -/
theorem test_decode_flow : decode ⟨0x00000030#32, ⟨0x500#32, 0x600#32, 4#32, 5#32, 1#32, 9#32, 9#32⟩⟩ =
    .ok (.flow 0x500 0x600 4 5 1) := rfl
/-- FM14. -/
theorem test_decode_fhigh :
    decode ⟨0x00000031#32, ⟨0x500#32, 0x600#32, 4#32, 5#32, 2#32, 9#32, 9#32⟩⟩ =
      .ok (.fhigh false 0x500 0x600 4 5 2) ∧
    decode ⟨0x00000131#32, ⟨0x500#32, 0x600#32, 4#32, 5#32, 2#32, 9#32, 9#32⟩⟩ =
      .ok (.fhigh true 0x500 0x600 4 5 2) := ⟨rfl, rfl⟩
/-- FM17. -/
theorem test_decode_fbpass : decode ⟨0x00000032#32, ⟨0x500#32, 0x600#32, 4#32, 3#32, 1#32, 5#32, 9#32⟩⟩ =
    .ok (.fbpass 0x500 0x600 4 3 1 5) := rfl
theorem test_decode_fbstop : decode ⟨0x00000033#32, ⟨0x500#32, 0x600#32, 4#32, 3#32, 1#32, 5#32, 9#32⟩⟩ =
    .ok (.fbstop 0x500 0x600 4 3 1 5) := rfl
/-- FD1. -/
theorem test_decode_fdir : decode ⟨0x00000034#32, ⟨0x500#32, 0x600#32, 4#32, 3#32, 1#32, 9#32, 0x700#32⟩⟩ =
    .ok (.fdir 0x500 0x600 4 3 1 9 0x700) := rfl
/-- SP1 and SP2. -/
theorem test_decode_spmul :
    decode ⟨0x00000040#32, ⟨0x20#32, 0#32, 0x10#32, 2#32, 9#32, 9#32, 9#32⟩⟩ = .ok (.spmul false 0x20 0 0x10 2) ∧
    decode ⟨0x00000140#32, ⟨0x20#32, 0#32, 0x10#32, 2#32, 9#32, 9#32, 9#32⟩⟩ = .ok (.spmul true 0x20 0 0x10 2) :=
  ⟨rfl, rfl⟩
/-- OC1. -/
theorem test_decode_olaclr : decode ⟨0x00000050#32, ⟨0x400#32, 7#32, 9#32, 9#32, 9#32, 9#32, 9#32⟩⟩ =
    .ok (.olaclr 0x400 7) := rfl
/-- OS2 and OS1: `P7` is read only with the flag. -/
theorem test_decode_olasel :
    decode ⟨0x00000051#32, ⟨0x300#32, 0x100#32, 4#32, 1#32, 2#32, 5#32, 0xFFFF#32⟩⟩ =
      .ok (.olasel 0x300 0x100 4 1 2 5 none) ∧
    decode ⟨0x00000151#32, ⟨0x300#32, 0x100#32, 4#32, 3#32, 2#32, 5#32, 0x180#32⟩⟩ =
      .ok (.olasel 0x300 0x100 4 3 2 5 (some 0x180)) := ⟨rfl, rfl⟩
/-- OC3. -/
theorem test_decode_olaacc :
    decode ⟨0x00000052#32, ⟨0x400#32, 0x300#32, 1#32, 9#32, 9#32, 9#32, 9#32⟩⟩ = .ok (.olaacc false 0x400 0x300 1) ∧
    decode ⟨0x00000152#32, ⟨0x400#32, 0x300#32, 1#32, 9#32, 9#32, 9#32, 9#32⟩⟩ = .ok (.olaacc true 0x400 0x300 1) :=
  ⟨rfl, rfl⟩

/-- IL1 to IL7, with the reason of each. -/
theorem test_decode_illegal :
    (([0x00000100, 0x00000007, 0x00000222, 0x00010022, 0x000000FF, 0x00000120, 0x80000000] : List Word).map
      fun w => match decode ⟨w, .zero⟩ with | .ok _ => none | .error e => some e) =
    [some .flagWithoutMeaning, some .unassignedOpcode, some .reservedBits, some .reservedBits,
      some .unassignedOpcode, some .flagWithoutMeaning, some .reservedBits] := by decide

/-- The edges of the unassigned opcode ranges of R52: the word on each side of every edge. -/
theorem test_decode_range_edges :
    (([0x06, 0x07, 0x0F, 0x10, 0x11, 0x1F, 0x20, 0x23, 0x24, 0x2F, 0x30, 0x34, 0x35, 0x3F, 0x40, 0x41, 0x4F, 0x50,
        0x52, 0x53, 0xFF] : List Word).map
      fun w => match decode ⟨w, .zero⟩ with | .ok _ => true | .error _ => false) =
    [true, false, false, true, false, false, true, true, false, false, true, true, false, false, true, false, false,
      true, true, false, false] := by decide

/-- R56: `SPMUL.CJ 0x20, 0, 0x10, 2` and a command that skips a register. -/
theorem test_assemble :
    assemble (.spmul true 0x20 0 0x10 2) =
      [.regWrite 1 0x20#32, .regWrite 2 0#32, .regWrite 3 0x10#32, .regWrite 4 2#32, .regWrite 0 0x140#32] ∧
    assemble (.norm 0x600 8) = [.regWrite 1 0x600#32, .regWrite 3 8#32, .regWrite 0 0x23#32] := by decide

/-! ## Commands -/

def twoWords : State := given [(0x10, ⟨one, two⟩), (0x11, ⟨three, minusFour⟩)]
def tenths : State := given [(0x10, ⟨0x3FB999999999999A#64, 0x3FC999999999999A#64⟩),
  (0x11, ⟨0x3FD3333333333333#64, 0x3FD999999999999A#64⟩)]

/-- R165. -/
theorem test_nop : leaves .nop twoWords [0x10] = some [⟨one, two⟩] := by decide +kernel

/-- CA1. -/
theorem test_cadd : leaves (.cadd 0x20 0x10 0x11) twoWords [0x20, 0x10] =
    some [⟨0x4010000000000000#64, 0xC000000000000000#64⟩, ⟨one, two⟩] := by decide +kernel
/-- CA20: one word for all three operands. -/
theorem test_cadd_aliased : leaves (.cadd 0x10 0x10 0x10) twoWords [0x10] = some [⟨two, four⟩] := by decide +kernel
/-- CA6. -/
theorem test_csub : leaves (.csub 0x20 0x10 0x11) tenths [0x20] =
    some [⟨0xBFC9999999999999#64, 0xBFC999999999999A#64⟩] := by decide +kernel
/-- CA7. -/
theorem test_cmul : leaves (.cmul 0x20 0x10 0x11) tenths [0x20] =
    some [⟨0xBFA999999999999C#64, 0x3FB999999999999A#64⟩] := by decide +kernel
/-- CA9: multiplication by one is no copy. -/
theorem test_cmul_by_one : leaves (.cmul 0 0 1) (given [(0, ⟨minusZero, minusOne⟩), (1, real one)]) [0] =
    some [⟨0#64, minusOne⟩] := by decide +kernel
/-- CA8. -/
theorem test_cdiv : leaves (.cdiv 0x20 0x10 0x11) tenths [0x20] =
    some [⟨0x3FDC28F5C28F5C2A#64, 0x3FB47AE147AE1478#64⟩] := by decide +kernel
/-- CA12: no rejection for the divisor; the word is the block's. -/
theorem test_cdiv_by_zero : leaves (.cdiv 2 0 1) (given [(0, ⟨one, one⟩), (1, ⟨0#64, minusZero⟩)]) [2] =
    some [Config.quotientByZero 0 ⟨one, one⟩ ⟨0#64, minusZero⟩] := by rfl
/-- CA16: the payload stays. -/
theorem test_cconj : leaves (.cconj 1 0) (given [(0, ⟨one, 0x7FF8000000000001#64⟩)]) [1] =
    some [⟨one, 0xFFF8000000000001#64⟩] := by decide +kernel
/-- CA19: below the smallest subnormal. -/
theorem test_cscale : leaves (.cscale 1 0 0x3FD0000000000000#64) (given [(0, ⟨1#64, 0#64⟩)]) [1] =
    some [⟨0#64, 0#64⟩] := by decide +kernel
/-- CA18. -/
theorem test_cscale_sign : leaves (.cscale 0 0 minusZero) (given [(0, ⟨one, two⟩)]) [0] =
    some [⟨minusZero, minusZero⟩] := by decide +kernel

/-- A ROM whose words are told apart by period and exponent. -/
def labelBlock : BlockConfig :=
  { vectorBlock with
    tw := fun inv period k => ⟨BitVec.ofNat 64 (100 * period + k), BitVec.ofNat 64 inv.toNat⟩
    dirPred := fun pair dy dx _ _ => pair == .a && dy == dx }

/-- R93: word `k` is ROM entry `k`; the word after the last is not written. -/
theorem test_basis : wordsAfter labelBlock (.basis true 0x200 4 3) (given [(0x203, label 7)]) [0x200, 0x202, 0x203] =
    some [⟨400#64, 1#64⟩, ⟨402#64, 1#64⟩, label 7] := by decide +kernel
/-- TW6 and TW10, the default ROM of R91. -/
theorem test_default_rom : defaultTw false 3 1 = ⟨0xBFE0000000000000#64, 0xBFEBB67AE8584CAA#64⟩ ∧
    defaultTw false 32 1 = ⟨0x3FEF6297CFF75CB0#64, 0xBFC8F8B83C69A60B#64⟩ := by decide +kernel

/-- BR1. -/
theorem test_bitrev : leaves (.bitrev 0 8) (given (labels 0 8)) (List.range 8) =
    some [label 1, label 5, label 3, label 7, label 2, label 6, label 4, label 8] := by decide +kernel
/-- R102's example, depth 0: no root is read. (BF1 prints this result for another input; log 19.) -/
theorem test_bfly : leaves (.bfly 0x100 0x200 4 0)
      (given [(0x100, real one), (0x101, real two), (0x102, real three), (0x103, real four)])
      [0x100, 0x101, 0x102, 0x103] =
    some [real three, real minusOne, real seven, real minusOne] := by decide +kernel

/-- R102's example, depth 1; BF2. -/
theorem test_bfly_roots : leaves (.bfly 0x100 0x200 4 1)
      (given [(0x100, real three), (0x101, real minusOne), (0x102, real seven), (0x103, real minusOne),
        (0x200, real one), (0x201, ⟨0#64, minusOne⟩)])
      [0x100, 0x101, 0x102, 0x103] =
    some [real ten, ⟨minusOne, one⟩, real minusFour, ⟨minusOne, minusOne⟩] := by decide +kernel

/-- FT4, with the roots of `BASIS 0x200, 4, 2` in DMEM. -/
theorem test_fft : leaves (.fft false 0x100 0x200 4)
      (given [(0x100, real one), (0x101, real two), (0x102, real three), (0x103, real four),
        (0x200, real one), (0x201, ⟨0#64, minusOne⟩)]) [0x100, 0x101, 0x102, 0x103] =
    some [real ten, ⟨minusTwo, two⟩, real minusTwo, ⟨minusTwo, minusTwo⟩] := by decide +kernel
/-- S1, backwards: `FFT.N` of `[4, 0, 0, 0]` with the inverse roots. -/
theorem test_fft_norm : leaves (.fft true 0x100 0x200 4)
      (given [(0x100, real four), (0x101, real 0#64), (0x102, real 0#64), (0x103, real 0#64),
        (0x200, real one), (0x201, ⟨0#64, one⟩)]) [0x100, 0x101, 0x102, 0x103] =
    some [real one, real one, real one, real one] := by decide +kernel
/-- NM2: ties to even among subnormals. -/
theorem test_norm : leaves (.norm 0x20 2)
      (given [(0x20, ⟨1#64, minusZero⟩), (0x21, ⟨0x7FF0000000000000#64, 0x8000000000000003#64⟩)]) [0x20, 0x21] =
    some [⟨0#64, minusZero⟩, ⟨0x7FF0000000000000#64, 0x8000000000000002#64⟩] := by decide +kernel

/-- FM3. -/
theorem test_flow : gridAfter Config.block (.flow 0x500 0x600 4 4 2) 16 =
    some [0, 0, 0, 0, 0, 0, 7, 0, 0, 10, 11, 12, 0, 0, 15, 0] := by decide +kernel
/-- FM42: reached through its mirror. -/
theorem test_flow_odd : gridAfter Config.block (.flow 0x500 0x600 2 3 2) 6 = some [0, 0, 0, 0, 5, 6] := by
  decide +kernel
/-- FM10. -/
theorem test_fhigh : gridAfter Config.block (.fhigh false 0x500 0x600 4 4 2) 16 =
    some [1, 2, 3, 4, 5, 6, 0, 8, 9, 0, 0, 0, 13, 14, 0, 16] := by decide +kernel
/-- FM28: only the origin itself is exempt. -/
theorem test_fhigh_mean : gridAfter Config.block (.fhigh true 0x500 0x600 3 3 1) 9 =
    some [1, 2, 3, 4, 0, 0, 7, 0, 9] := by decide +kernel
/-- FM17. -/
theorem test_fbpass : gridAfter Config.block (.fbpass 0x500 0x600 4 4 1 5) 16 =
    some [0, 0, 3, 0, 0, 6, 7, 8, 9, 10, 0, 12, 0, 14, 15, 16] := by decide +kernel
/-- FM21. -/
theorem test_fbstop : gridAfter Config.block (.fbstop 0x500 0x600 4 4 1 5) 16 =
    some [1, 2, 0, 4, 5, 0, 0, 0, 0, 0, 11, 0, 13, 0, 0, 0] := by decide +kernel
/-- FD2: inside this annulus the default predicate of R131 keeps pair `A` exactly where `dy = dx`. -/
theorem test_fdir : gridAfter labelBlock (.fdir 0x500 0x600 4 4 1 9 0x700) 16 =
    some [0, 0, 0, 0, 0, 6, 0, 0, 0, 0, 0, 0, 0, 0, 0, 16] := by decide +kernel

def spectra : State := given [(0, ⟨one, two⟩), (1, ⟨two, minusOne⟩), (0x10, ⟨three, minusFour⟩), (0x11, ⟨two, minusOne⟩)]

/-- SP1. -/
theorem test_spmul : leaves (.spmul false 0x20 0 0x10 2) spectra [0x20, 0x21] =
    some [⟨0x4026000000000000#64, two⟩, ⟨three, minusFour⟩] := by decide +kernel
/-- SP2. -/
theorem test_spmul_conjugated : leaves (.spmul true 0x20 0 0x10 2) spectra [0x20, 0x21] =
    some [⟨0xC014000000000000#64, ten⟩, real 0x4014000000000000#64] := by decide +kernel
/-- OC1. -/
theorem test_olaclr : leaves (.olaclr 0x400 2) (given (labels 0x400 3)) [0x400, 0x401, 0x402] =
    some [.zero, .zero, label 3] := by decide +kernel
/-- OS1. -/
theorem test_olasel_taper : leaves (.olasel 0x300 0x100 4 3 2 4 (some 0x180))
      (given [(0x103, ⟨one, 0x4014000000000000#64⟩), (0x180, ⟨0x3FE0000000000000#64, 0x4022000000000000#64⟩)])
      [0x300, 0x301, 0x302, 0x303] =
    some [⟨0x3FE0000000000000#64, 0x4004000000000000#64⟩, .zero, .zero, .zero] := by decide +kernel
/-- OS2. -/
theorem test_olasel : leaves (.olasel 0x300 0x100 4 1 2 4 none)
      (given [(0x100, label 1), (0x101, label 2), (0x102, label 3), (0x103, label 4)]) [0x300, 0x301, 0x302, 0x303] =
    some [label 2, label 3, .zero, .zero] := by decide +kernel

def buffers : State := given [(0x300, ⟨0xC000000000000001#64, 0x3C670EF54646D497#64⟩), (0x400, real three)]

/-- OC3. -/
theorem test_olaacc_re : leaves (.olaacc true 0x400 0x300 1) buffers [0x400] =
    some [real 0x3FEFFFFFFFFFFFFC#64] := by decide +kernel
/-- OC4. -/
theorem test_olaacc : leaves (.olaacc false 0x400 0x300 1) buffers [0x400] =
    some [⟨0x3FEFFFFFFFFFFFFC#64, 0x3C670EF54646D497#64⟩] := by decide +kernel

/-- The open values of the arithmetic in the vectors' block. -/
def vectorFpu : Fpu := vectorBlock.fpu 0

/-- CA10 (`1e308` times 2) and the NaN in CA11's `re` (NaN). -/
theorem test_overflow_and_nan :
    cmul vectorFpu ⟨0x7FE1CCF385EBC8A0#64, 0x7FE1CCF385EBC8A0#64⟩ (real two) =
      ⟨0x7FF0000000000000#64, 0x7FF0000000000000#64⟩ ∧
    cmul vectorFpu (real 0x7FF0000000000000#64) ⟨0#64, one⟩ = ⟨canonicalNaN, 0x7FF0000000000000#64⟩ := by
  decide +kernel

/-! ## Rejections -/

/-- CA21 to CA23. -/
theorem test_reject_cadd : [Instr.cadd 0x10000 0 0, .cadd 0 0x10000 0x10000, .cadd 0 0 0x10000].map rejection =
    [some (6, 1), some (6, 2), some (6, 3)] := by decide +kernel
/-- TW11, TW13 to TW15. -/
theorem test_reject_basis : [Instr.basis false 0x200 0 4, .basis false 0x10001 8 0, .basis false 0xFFFE 8 3,
    .basis false 0x200 0 0].map rejection = [some (5, 2), some (6, 1), some (6, 1), some (5, 2)] := by
  decide +kernel
/-- BR6 to BR8, NM4, NM6. -/
theorem test_reject_bitrev_norm : [Instr.bitrev 0 12, .bitrev 0 0, .bitrev 0xFFFC 8, .norm 0x10000 1,
    .norm 0 3].map rejection = [some (1, 3), some (1, 3), some (6, 1), some (6, 1), some (1, 3)] := by
  decide +kernel
/-- BF7 to BF10, ER9. -/
theorem test_reject_bfly : [Instr.bfly 0 8 8 3, .bfly 0 8 1 0, .bfly 0 8 0 0, .bfly 0 4 8 0,
    .bfly 0xFFFFFFFF 0 8 3].map rejection = [some (5, 4), some (5, 4), some (1, 3), some (7, 1), some (5, 4)] := by
  decide +kernel
/-- ER1, ER2, ER4, ER5, ER8. -/
theorem test_reject_fft : [Instr.fft false 0xFFFFFFFF 0 3, .fft false 0xFFF9 0 8, .fft false 0 0xFFFD 8,
    .fft false 0 4 8, .fft false 0xFFFFFFFF 0xFFFFFFFF 8].map rejection =
    [some (1, 3), some (6, 1), some (6, 2), some (7, 1), some (6, 1)] := by decide +kernel
/-- FM48 to FM50, FM52, FM53, FM55. -/
theorem test_reject_filter : [Instr.flow 0 0x20 1 4 2, .flow 0 0x20 4 1 2, .flow 0 0x20 1 1 2,
    .flow 0xFFFFFFFF 0xFFFFFFFF 0 7 2, .flow 0 8 4 4 2, .flow 0 0x10 65536 65536 2].map rejection =
    [some (5, 3), some (5, 4), some (5, 3), some (6, 1), some (7, 1), some (6, 1)] := by decide +kernel
/-- FM56, FM57. -/
theorem test_reject_fdir : [Instr.fdir 0 0x10 4 4 1 9 0x12, .fdir 0 0x10 4 4 1 9 0x10000].map rejection =
    [some (7, 7), some (6, 7)] := by decide +kernel
/-- SP5, SP6, SP8. -/
theorem test_reject_spmul : [Instr.spmul false 0 4 0x20 8, .spmul false 0 0 4 8,
    .spmul false 0x10 0 0 0xFFFFFFFF].map rejection = [some (7, 2), some (7, 3), some (6, 1)] := by decide +kernel
/-- OS6 to OS9, OC2, OC5, ER11. -/
theorem test_reject_overlap_add : [Instr.olasel 0x20 0 8 0 9 8 none, .olasel 4 0 8 0 2 8 none,
    .olasel 0x20 0 8 0 2 8 (some 0x27), .olasel 0x20 0 8 0 2 8 (some 0xFFFF), .olaclr 0xFFFF 2, .olaacc false 0 0 4,
    .olasel 0x20 0x1FFFF 8 0 2 8 (some 0x27)].map rejection =
    [some (5, 5), some (7, 2), some (7, 7), some (6, 7), some (6, 1), some (7, 2), some (6, 2)] := by decide +kernel

/-! ## The host port and the step -/

/-- A state with something in every register, in ERROR. -/
def pending : State :=
  { given [(0x40, label 1)] with
    params := ⟨1#32, 2#32, 3#32, 4#32, 5#32, 6#32, 7#32⟩
    latch := ⟨0x00000007#32, .zero⟩
    err := true
    errCode := 4#8
    errCmd := 0x00000007#32 }

/-- A state that runs a command. -/
def running (m : Image) (acts : List HostAct) : State :=
  { given [] with params := m.p, latch := m, busy := true, host := acts }

/-- R23, R32: every register number. -/
theorem test_reads : (List.range 16).map (fun n => (pending.register n).toNat) =
    [0, 1, 2, 3, 4, 5, 6, 7, 2, 4, 0, 7, 0, 0, 0, 0] := by decide
/-- CT8, CT9, CT6: registers are written in ERROR, `CLRERR` returns, a clear bit 0 does not. -/
theorem test_writes :
    (pending.writeRegister 2 0x1234#32).params.p2 = 0x1234#32 ∧
    ((pending.writeRegister 12 0xFFFFFFFF#32).status, (pending.writeRegister 12 0xFFFFFFFF#32).errCode,
      (pending.writeRegister 12 0xFFFFFFFF#32).errCmd) = (0#32, 0#8, 0#32) ∧
    pending.writeRegister 12 0xFFFFFFFE#32 = pending ∧ pending.writeRegister 8 0xFFFFFFFF#32 = pending := by decide
/-- CT12. -/
theorem test_nonexistent : perform (.memRead 0x10000) State.reset = .refused (.noSuchAddress 0x10000) ∧
    perform (.regRead 16) State.reset = .refused (.noSuchRegister 16) := ⟨rfl, rfl⟩
/-- CT5: an accepted illegal word is rejected with its own bits in `ERRCMD`. -/
theorem test_illegal_command : coreStep (running ⟨0x00000221#32, .zero⟩ []) =
    .next { running ⟨0x00000221#32, .zero⟩ [] with
      busy := false, err := true, errCode := 4#8, errCmd := 0x00000221#32 } := rfl
/-- CT11: what reset leaves; DMEM word `0x40` is the block's free value again. -/
theorem test_reset_transaction : pending.resetBlock.params = .zero ∧ pending.resetBlock.err = false ∧
    pending.resetBlock.word 0x40 = Config.unwritten 1 0x40 := ⟨rfl, rfl, rfl⟩
/-- A word placed where the core takes its next command runs. -/
theorem test_withFetchWord : step (State.reset.withFetchWord 32 0x00000000) =
    .next { State.reset with draws := 1 } := rfl

/-! ## The host's procedures -/

/-- The regions and lengths of program P3. -/
def planP3 : OverlapAddPlan where
  out := 0x400
  window := 0x300
  sig := 0x100
  kernel := 0x110
  forwardRoots := 0x200
  inverseRoots := 0x210
  taper := none
  n := 4
  taps := [two, one, one, three]
  winLen := 2
  hop := 2
  padLen := 8

/-- P3 from its first `FFT` on, then step 5 of R154: words 0 to `N + M - 2 = 6` are read. -/
theorem test_overlapAdd : (overlapAdd planP3).map (fun steps => steps.drop 3) = some (
    [.fft false 0x110 0x200 8, .olaclr 0x400 7,
     .olasel 0x300 0x100 4 0 2 8 none, .fft false 0x300 0x200 8, .spmul false 0x300 0x300 0x110 8,
     .fft true 0x300 0x210 8, .olaacc true 0x400 0x300 5,
     .olasel 0x300 0x100 4 2 2 8 none, .fft false 0x300 0x200 8, .spmul false 0x300 0x300 0x110 8,
     .fft true 0x300 0x210 8, .olaacc true 0x402 0x300 5].map (fun i => .line (.command i)) ++
    [0x400, 0x401, 0x402, 0x403, 0x404, 0x405, 0x406].map (fun a => .line (.rd a))) := by decide +kernel

/-- R154 step 1: `Lp` must be a power of two, at least `Wn + M - 1 = 5`; `Wn` and `h` at least 1. -/
theorem test_overlapAdd_illegal : ∀ p ∈ [{ planP3 with padLen := 4 }, { planP3 with padLen := 6 },
    { planP3 with winLen := 0 }, { planP3 with hop := 0 }], overlapAdd p = none := by decide

/-- R142 steps 1 and 6: `N + M - 1 = 3` words are read, of a power of two that is at least 3. -/
theorem test_linearConvolution :
    (linearConvolution 0 8 0 16 4 [one, two] [one, one]).map (fun steps => steps.drop 8) =
      some [.line (.rd 0), .line (.rd 1), .line (.rd 2)] ∧
    linearConvolution 0 8 0 16 2 [one, two] [one, one] = none ∧
    linearConvolution 0 8 0 16 3 [one, two] [one, one] = none := by decide +kernel

/-- R110, R111: a length of 6 is no power of two; roots `8 .. 11` lie off the data `0 .. 7`, roots `7 .. 10` do not. -/
theorem test_transform1d : transform1d false 0 8 8 = some [.line (.fftf 0 8 8)] ∧
    transform1d true 0 8 8 = some [.line (.ffti 0 8 8)] ∧ transform1d true 0 8 6 = none ∧
    transform1d true 0 7 8 = none := by decide

/-- R112: `H * W = 0` does nothing; a dimension of 3 is no power of two; a region on the grid is not disjoint. -/
theorem test_transform2d_illegal : transform2d true 0 0 0 0 0 3 = some [] ∧
    transform2d true 0 16 32 40 3 4 = none ∧ transform2d true 0 4 32 40 2 4 = none ∧
    (transform2d true 0 8 32 40 2 4).isSome = true := by decide +kernel

/-! ## What meets the hypotheses of the statements

Each theorem is named after the statement; its conjuncts meet the hypotheses of each clause, at the ends of
their ranges. The words of DMEM that are not named do not matter. -/

/-- The last register value. -/
def top : Nat := 0xFFFFFFFF

theorem witness_DecodeEncodeAgree : (Instr.fdir top top top top top top top).wellFormed = true ∧
    (Instr.olasel 0 0 0 0 0 0 (some top)).wellFormed = true ∧ Instr.nop.wellFormed = true := by decide

theorem witness_DecodedImageIsItsEncoding :
    decode ⟨0x00000151#32, ⟨0xFFFFFFFF#32, 0#32, 1#32, 2#32, 3#32, 4#32, 0xFFFFFFFF#32⟩⟩ =
      .ok (.olasel top 0 1 2 3 4 (some top)) ∧
    decode ⟨0x00000051#32, ⟨0xFFFFFFFF#32, 0#32, 1#32, 2#32, 3#32, 4#32, 0xFFFFFFFF#32⟩⟩ =
      .ok (.olasel top 0 1 2 3 4 none) := ⟨rfl, rfl⟩

/-- A state that waits for its host. -/
def waiting (acts : List HostAct) : State := { given [] with host := acts }

theorem witness_IllegalWordsAreRejected :
    (waiting [⟨.regWrite 0 0x00000053#32, false⟩]).busy = false ∧
    (waiting [⟨.regWrite 0 0x00000053#32, false⟩]).err = false ∧
    (running ⟨0x00000053#32, .zero⟩ []).busy = true ∧ (running ⟨0x00000053#32, .zero⟩ []).hostTurn = none ∧
    decode (running ⟨0x00000053#32, .zero⟩ []).latch = .error .unassignedOpcode ∧
    decode (running ⟨0x00000200#32, .zero⟩ []).latch = .error .reservedBits := ⟨rfl, rfl, rfl, rfl, rfl, rfl⟩

theorem witness_AssemblerLineStartsItsCommand :
    (Instr.cscale 0x20 top minusOne).wellFormed = true ∧
    (waiting ((assemble (.cscale 0x20 top minusOne)).map later)).busy = false ∧
    (waiting ((assemble (.cscale 0x20 top minusOne)).map later)).err = false := by decide

theorem witness_RegisterReads : 0 ≤ 15 ∧ 15 ≤ 15 ∧ pending.register 8 = 2#32 ∧ pending.register 15 = 0#32 := by decide

theorem witness_RegisterWrites : pending.busy = false ∧ (8 ≤ 8 ∧ 8 ≤ 11) ∧ (8 ≤ 11 ∧ 11 ≤ 11) ∧
    (13 ≤ 13 ∧ 13 ≤ 15) ∧ (13 ≤ 15 ∧ 15 ≤ 15) := by decide

/-- The write of `NOP` to `CMD`. -/
def command : HostAct := ⟨.regWrite 0 0#32, false⟩

theorem witness_CommandAcceptance :
    (running ⟨0#32, .zero⟩ [command]).busy = true ∧
    ({ pending with host := [command] }).busy = false ∧ ({ pending with host := [command] }).err = true ∧
    (waiting [command]).busy = false ∧ (waiting [command]).err = false := by decide

theorem witness_TransactionsAreHeldWhileBusy :
    (running ⟨0#32, .zero⟩ [⟨.regRead 15, true⟩]).busy = true ∧
    (running ⟨0#32, .zero⟩ [⟨.reset, true⟩]).host = [⟨.reset, true⟩] ∧
    (∀ n, (Transaction.memWrite 65535 one two) ≠ .regRead n) ∧ (Transaction.memWrite 65535 one two) ≠ .reset :=
  ⟨rfl, rfl, fun _ => nofun, nofun⟩

theorem witness_HostMemoryAccess : 0 < words ∧ 65535 < words := by decide

theorem witness_NonexistentIsRefused : 15 < 16 ∧ words ≤ 65536 := by decide

theorem witness_ResetTransaction : (running ⟨0#32, .zero⟩ [⟨.reset, true⟩]).host = [⟨.reset, true⟩] ∧
    ({ pending with host := [⟨.reset, true⟩] }).host = [⟨.reset, true⟩] := ⟨rfl, rfl⟩

theorem witness_StepRunsTheLatchedCommand :
    (running ⟨0x00000001#32, .zero⟩ [command]).busy = true ∧ (running ⟨0x00000001#32, .zero⟩ [command]).hostTurn = none ∧
    decode (running ⟨0x00000001#32, .zero⟩ [command]).latch = .ok (.cadd 0 0 0) ∧
    (waiting [⟨.memRead 65535, false⟩]).busy = false ∧
    (waiting [⟨.memRead 65535, false⟩]).host = [⟨.memRead 65535, false⟩] ∧
    (running ⟨0#32, .zero⟩ [⟨.regRead 15, true⟩]).host = [⟨.regRead 15, true⟩] ∧
    ((∃ n, Transaction.regRead 15 = .regRead n) ∨ Transaction.regRead 15 = .reset) ∧
    pending.busy = false ∧ pending.host = [] :=
  ⟨rfl, rfl, rfl, rfl, rfl, rfl, .inl ⟨15, rfl⟩, rfl, rfl⟩

theorem witness_EveryCommandCompletes :
    (running ⟨0#32, .zero⟩ [command]).busy = true ∧ (running ⟨0#32, .zero⟩ [command]).hostTurn = none ∧
    step (running ⟨0#32, .zero⟩ [⟨.reset, true⟩]) = .next ({ given [] with dmem := ⟨1, []⟩ }) ∧
    (∀ act ∈ (running ⟨0#32, .zero⟩ [⟨.regRead 15, true⟩, command]).host, ∀ n, act.txn = .regRead n → n ≤ 15) := by
  refine ⟨rfl, rfl, rfl, ?_⟩
  rintro act (_ | ⟨_, _ | ⟨_, h⟩⟩) n hn
  · cases hn; exact Nat.le_refl _
  · cases hn
  · cases h

/-- `given` and the states made of it meet the invariant. -/
theorem inv_given : (given []).Inv where
  canonical := rfl
  insideDmem := rfl
  notBusyInError := by decide
  clearWithoutError := fun _ => ⟨rfl, rfl, rfl⟩
  namedError := nofun
  latchAgrees := nofun

theorem inv_running (m : Image) (acts : List HostAct) : (running m acts).Inv where
  canonical := rfl
  insideDmem := rfl
  notBusyInError := fun h => by cases h.2
  clearWithoutError := fun _ => ⟨rfl, rfl, rfl⟩
  namedError := nofun
  latchAgrees := fun _ => rfl

theorem inv_pending (acts : List HostAct) : ({ pending with host := acts }).Inv where
  canonical := rfl
  insideDmem := rfl
  notBusyInError := fun h => by cases h.1
  clearWithoutError := nofun
  namedError := fun _ => ⟨⟨⟨.illegalCommand, 0⟩, by decide, rfl, rfl⟩, rfl⟩
  latchAgrees := nofun

theorem witness_ConditionChanges :
    (waiting [command]).Inv ∧ (waiting [command]).condition = .idle ∧
      step (waiting [command]) = .next (running ⟨0#32, .zero⟩ []) ∧
    (running ⟨0#32, .zero⟩ []).Inv ∧ (running ⟨0#32, .zero⟩ []).condition = .busy ∧
      step (running ⟨0#32, .zero⟩ []) = .next ({ given [] with draws := 1 }) ∧
    ({ pending with host := [⟨.regWrite 12 1#32, false⟩] }).Inv ∧
      ({ pending with host := [⟨.regWrite 12 1#32, false⟩] }).condition = .error ∧
      step ({ pending with host := [⟨.regWrite 12 1#32, false⟩] }) =
        .next ({ pending with err := false, errCode := 0#8, errInfo := 0#3, errCmd := 0#32 }) :=
  ⟨{ inv_given with }, rfl, rfl, inv_running _ _, rfl, rfl, inv_pending _, rfl, rfl⟩

theorem witness_NothingChangesUnderACommand :
    (running ⟨0#32, .zero⟩ [⟨.regRead 8, true⟩]).busy = true ∧
    step (running ⟨0#32, .zero⟩ [⟨.regRead 8, true⟩]) =
      .next ({ running ⟨0#32, .zero⟩ [] with replies := [.register 1#32] }) ∧
    (running ⟨0#32, .zero⟩ [⟨.regRead 8, true⟩]).hostTurn = some (.regRead 8, running ⟨0#32, .zero⟩ []) :=
  ⟨rfl, rfl, rfl⟩

theorem witness_ParametersChangeOnlyByTheHost :
    step (waiting [⟨.regWrite 7 5#32, false⟩]) =
      .next ({ given [] with params := ⟨0#32, 0#32, 0#32, 0#32, 0#32, 0#32, 5#32⟩ }) ∧
    step (waiting [⟨.regWrite 1 5#32, false⟩]) =
      .next ({ given [] with params := ⟨5#32, 0#32, 0#32, 0#32, 0#32, 0#32, 0#32⟩ }) ∧
    step ({ pending with host := [⟨.reset, false⟩] }) = .next ({ given [] with dmem := ⟨1, []⟩ }) ∧
    pending.params ≠ (given []).params := ⟨rfl, rfl, rfl, by decide⟩

theorem witness_PendingErrorPersists :
    pending.busy = false ∧ pending.err = true ∧
    step ({ pending with host := [command] }) = .next pending ∧
    step ({ pending with host := [⟨.regWrite 12 0#32, false⟩] }) = .next pending ∧
    step ({ pending with host := [⟨.regWrite 12 1#32, false⟩] }) =
      .next ({ pending with err := false, errCode := 0#8, errInfo := 0#3, errCmd := 0#32 }) :=
  ⟨rfl, rfl, rfl, rfl, rfl⟩

/-- The smallest and the largest DMEM. -/
def smallest : BlockConfig := { vectorBlock with lastAddress := 0#32 }
def biggest : BlockConfig := { vectorBlock with lastAddress := 0xFFFFFFFF#32 }

theorem witness_EveryInstanceKeepsToItsSize : smallest.dmemWords = 1 ∧ biggest.dmemWords = 2 ^ 32 ∧
    Passes smallest (.fft true 0 0 1) ∧ Passes biggest (.cadd 0xFFFFFFFF 0xFFFFFFFF 0) ∧
    Decides (failureTable smallest.dmemWords (.cadd 1 0 0)) (some ⟨.addrRange, 1⟩) ∧
    Decides (failureTable biggest.dmemWords (.olaclr 0xFFFFFFFF 2)) (some ⟨.addrRange, 1⟩) ∧
    (running ⟨0#32, .zero⟩ []).InvOn smallest ∧
    stepOn smallest (running ⟨0#32, .zero⟩ []) = .next ({ given [] with draws := 1 }) :=
  ⟨by decide, by decide, (decides_failureTable smallest 0 _ _).2 (by decide),
    (decides_failureTable biggest 0 _ _).2 (by decide), (decides_failureTable smallest 0 _ _).2 (by decide),
    (decides_failureTable biggest 0 _ _).2 (by decide), { inv_running _ _ with }, rfl⟩

theorem witness_StepKeepsTheInvariant :
    (running ⟨0x00000100#32, .zero⟩ []).Inv ∧
    step (running ⟨0x00000100#32, .zero⟩ []) = .next ({ running ⟨0x00000100#32, .zero⟩ [] with
      busy := false, err := true, errCode := 4#8, errCmd := 0x00000100#32 }) := ⟨inv_running _ _, rfl⟩

/-! ### Binary64 -/

/-- The largest finite value. -/
def largest : F64 := 0x7FEFFFFFFFFFFFFF#64

def infinity : F64 := 0x7FF0000000000000#64

def quietNaN : F64 := 0x7FF8000000000000#64

theorem witness_SumIsRoundedOnce : isFinite largest = true ∧ isFinite one = true ∧
    (overflowUnits : Int) * (1 : Nat) ≤ |signedUnits largest + signedUnits largest| ∧
    |signedUnits largest + signedUnits one| < (overflowUnits : Int) * (1 : Nat) := by decide +kernel

theorem witness_ProductIsRoundedOnce : isFinite largest = true ∧ isFinite two = true ∧
    (overflowUnits : Int) * unitsPerOne ≤ |signedUnits largest * signedUnits two| ∧
    |signedUnits largest * signedUnits one| < (overflowUnits : Int) * unitsPerOne := by decide +kernel

theorem witness_QuotientIsRoundedOnce : isFinite one = true ∧ isFinite (1#64) = true ∧ isZero (1#64) = false ∧
    (overflowUnits : Int) * units (1#64) ≤ |(1 : Int) * signedUnits one * unitsPerOne| ∧
    |(1 : Int) * signedUnits one * unitsPerOne| < (overflowUnits : Int) * units three := by decide +kernel

theorem witness_SpecialResults : isNaN quietNaN = true ∧ isNaN one = false ∧
    isInfinite infinity = true ∧ isInfinite (fneg infinity) = true ∧ signBit infinity ≠ signBit (fneg infinity) ∧
    isNaN infinity = false ∧ isZero minusZero = true ∧ isNaN minusZero = false ∧
    isFinite one = true ∧ isZero one = false ∧ minusOne = fneg one := by decide

theorem witness_SpecialResults_signs : isInfinite (fmul vectorFpu largest two) = true ∧
    isZero (fmul vectorFpu (1#64) (1#64)) = true ∧ isInfinite (fdiv vectorFpu one 0#64) = true ∧
    isZero (fdiv vectorFpu 0#64 one) = true ∧ isInfinite (fmul vectorFpu infinity two) = true ∧
    isZero (fdiv vectorFpu two infinity) = true := by decide +kernel

theorem witness_MultiplicationCommutes :
    isNaN (fmul vectorFpu one three) = false ∧ isNaN (fmul vectorFpu two four) = false ∧
    isNaN (fmul vectorFpu one four) = false ∧ isNaN (fmul vectorFpu two three) = false ∧
    isNaN (fsub vectorFpu (fmul vectorFpu one three) (fmul vectorFpu two four)) = false ∧
    isNaN (fadd vectorFpu (fmul vectorFpu one four) (fmul vectorFpu two three)) = false := by decide +kernel

/-! ### Commands

A check list that passes or fails by evaluation decides the table. -/

theorem decided (i : Instr) (r : Option Rejection)
    (h : firstFailure (meaningOf Config.block 0 i).checks = r) : Decides (failureTable words i) r :=
  (decides_failureTable Config.block 0 i r).2 h

theorem apart (a m b n : Nat) (h : overlaps a m b n = false) : ¬ Share a m b n := by
  rw [← overlaps_iff_share, h]; exact nofun

theorem witness_ChecksInOrder : Passes Config.block (.olasel 0xFFFE 0x7FFF 0x7FFF 0 2 2 (some 0)) ∧
    Decides (failureTable words (.olasel 0xFFFE 0x7FFF 0x8000 0 2 2 (some 0))) (some ⟨.overlap, 2⟩) ∧
    (running ⟨0x00000221#32, .zero⟩ [command]).busy = true ∧ (running ⟨0x00000221#32, .zero⟩ [command]).hostTurn = none ∧
    decode (running ⟨0x00000221#32, .zero⟩ [command]).latch = .error .reservedBits :=
  ⟨decided _ _ (by decide), decided _ _ (by decide), rfl, rfl, rfl⟩

/-- The rejections of the one-word commands: each register one past the end of DMEM. -/
theorem witness_CaddRule : 65535 < words ∧ 0 < words ∧
    Decides (failureTable words (.cadd 65536 65536 65536)) (some ⟨.addrRange, 1⟩) ∧
    Decides (failureTable words (.cadd 65535 65536 65536)) (some ⟨.addrRange, 2⟩) ∧
    Decides (failureTable words (.cadd 65535 65535 65536)) (some ⟨.addrRange, 3⟩) :=
  ⟨by decide, by decide, decided _ _ (by decide), decided _ _ (by decide), decided _ _ (by decide)⟩

theorem witness_CsubRule : 65535 < words ∧
    Decides (failureTable words (.csub 65535 65535 65536)) (some ⟨.addrRange, 3⟩) :=
  ⟨by decide, decided _ _ (by decide)⟩

theorem witness_CmulRule : 65535 < words ∧
    Decides (failureTable words (.cmul 65535 65536 0)) (some ⟨.addrRange, 2⟩) :=
  ⟨by decide, decided _ _ (by decide)⟩

theorem witness_CdivRule : 65535 < words ∧
    ¬ (isZero ((given [(1, ⟨0#64, one⟩)]).word 1).re = true ∧ isZero ((given [(1, ⟨0#64, one⟩)]).word 1).im = true) ∧
    Decides (failureTable words (.cdiv 65536 0 0)) (some ⟨.addrRange, 1⟩) :=
  ⟨by decide, by decide, decided _ _ (by decide)⟩

theorem witness_CconjRule : 65535 < words ∧
    Decides (failureTable words (.cconj 65535 65536)) (some ⟨.addrRange, 2⟩) :=
  ⟨by decide, decided _ _ (by decide)⟩

theorem witness_CscaleRule : 65535 < words ∧
    Decides (failureTable words (.cscale 65536 0 one)) (some ⟨.addrRange, 1⟩) :=
  ⟨by decide, decided _ _ (by decide)⟩

theorem witness_BasisRule : 1 ≠ 0 ∧ 65534 + 2 ≤ words ∧ 65536 + 0 ≤ words ∧
    Decides (failureTable words (.basis true 65536 0 1)) (some ⟨.badOperand, 2⟩) ∧
    Decides (failureTable words (.basis true 65535 1 2)) (some ⟨.addrRange, 1⟩) :=
  ⟨by decide, by decide, by decide, decided _ _ (by decide), decided _ _ (by decide)⟩

theorem witness_ReversalOfBits : 7 < 2 ^ 3 ∧ 2 < 3 ∧ 0 < 2 ^ 0 := by decide

theorem witness_BitrevRule : 8 = 2 ^ 3 ∧ 0xFFF8 + 8 ≤ words ∧ 1 = 2 ^ 0 ∧
    Decides (failureTable words (.bitrev 0xFFF9 8)) (some ⟨.addrRange, 1⟩) ∧
    Decides (failureTable words (.bitrev 0xFFF9 12)) (some ⟨.invalidLength, 3⟩) :=
  ⟨by decide, by decide, by decide, decided _ _ (by decide), decided _ _ (by decide)⟩

theorem witness_BflyRule : 8 = 2 ^ 3 ∧ 2 < 3 ∧ 0xFFF8 + 8 ≤ words ∧
    0xFFF4 + 8 / 2 ≤ words ∧ ¬ Share 0xFFF8 8 0xFFF4 (8 / 2) ∧
    Decides (failureTable words (.bfly 0 8 8 3)) (some ⟨.badOperand, 4⟩) ∧
    Decides (failureTable words (.bfly 0 8 0 3)) (some ⟨.invalidLength, 3⟩) ∧
    Decides (failureTable words (.bfly 0xFFF9 0 8 2)) (some ⟨.addrRange, 1⟩) ∧
    Decides (failureTable words (.bfly 0 0xFFFD 8 2)) (some ⟨.addrRange, 2⟩) ∧
    Decides (failureTable words (.bfly 0 7 8 2)) (some ⟨.overlap, 1⟩) :=
  ⟨by decide, by decide, by decide, by decide, apart _ _ _ _ (by decide), decided _ _ (by decide),
    decided _ _ (by decide), decided _ _ (by decide), decided _ _ (by decide), decided _ _ (by decide)⟩

theorem witness_NormRule : 4 = 2 ^ 2 ∧ 0xFFFC + 4 ≤ words ∧
    Decides (failureTable words (.norm 0xFFFD 4)) (some ⟨.addrRange, 1⟩) ∧
    Decides (failureTable words (.norm 0 0)) (some ⟨.invalidLength, 3⟩) :=
  ⟨by decide, by decide, decided _ _ (by decide), decided _ _ (by decide)⟩

theorem witness_FftRule : 8 = 2 ^ 3 ∧ 0 + 8 ≤ words ∧ 8 + 8 / 2 ≤ words ∧
    ¬ Share 0 8 8 (8 / 2) ∧ 1 = 2 ^ 0 ∧ ¬ Share 0 1 0 (1 / 2) ∧
    Decides (failureTable words (.fft true 0xFFF9 0 8)) (some ⟨.addrRange, 1⟩) ∧
    Decides (failureTable words (.fft true 0 0xFFFD 8)) (some ⟨.addrRange, 2⟩) ∧
    Decides (failureTable words (.fft true 0 7 8)) (some ⟨.overlap, 1⟩) :=
  ⟨by decide, by decide, by decide, apart _ _ _ _ (by decide), by decide, apart _ _ _ _ (by decide),
    decided _ _ (by decide), decided _ _ (by decide), decided _ _ (by decide)⟩

/-- The hypotheses of the four filters on a grid: two places, in place, and the empty grid. -/
theorem witness_FlowRule : (4 * 4 ≠ 0 → 4 ≠ 1 ∧ 4 ≠ 1) ∧ 0 + 4 * 4 ≤ words ∧
    0xFFF0 + 4 * 4 ≤ words ∧ ¬ Share 0 (4 * 4) 0xFFF0 (4 * 4) ∧
    (0 * 1 ≠ 0 → 0 ≠ 1 ∧ 1 ≠ 1) ∧ ¬ Share 0 (0 * 1) 0x20 (0 * 1) ∧
    Decides (failureTable words (.flow 0 8 1 1 2)) (some ⟨.badOperand, 3⟩) ∧
    Decides (failureTable words (.flow 0 8 4 1 2)) (some ⟨.badOperand, 4⟩) ∧
    Decides (failureTable words (.flow 0xFFF1 0 4 4 2)) (some ⟨.addrRange, 1⟩) ∧
    Decides (failureTable words (.flow 0 0xFFF1 4 4 2)) (some ⟨.addrRange, 2⟩) ∧
    Decides (failureTable words (.flow 0 15 4 4 2)) (some ⟨.overlap, 1⟩) :=
  ⟨by decide, by decide, by decide, apart _ _ _ _ (by decide), by decide, apart _ _ _ _ (by decide),
    decided _ _ (by decide), decided _ _ (by decide), decided _ _ (by decide), decided _ _ (by decide),
    decided _ _ (by decide)⟩

/-- The hypotheses of `FHIGH`, `FBPASS` and `FBSTOP` are those `witness_FlowRule` meets; here each also passes its
own checks, apart and in place. -/
theorem witness_FhighRule : Passes Config.block (.fhigh true 0 16 4 4 2) ∧ Passes Config.block (.fhigh false 5 5 2 3 2) ∧
    Decides (failureTable words (.fhigh true 0 15 4 4 2)) (some ⟨.overlap, 1⟩) :=
  ⟨decided _ _ (by decide), decided _ _ (by decide), decided _ _ (by decide)⟩

theorem witness_FbpassRule : Passes Config.block (.fbpass 0 16 4 4 1 5) ∧ Passes Config.block (.fbpass 5 5 2 3 5 1) ∧
    Decides (failureTable words (.fbpass 0 0 1 4 1 5)) (some ⟨.badOperand, 3⟩) :=
  ⟨decided _ _ (by decide), decided _ _ (by decide), decided _ _ (by decide)⟩

theorem witness_FbstopRule : Passes Config.block (.fbstop 0 16 4 4 1 5) ∧ Passes Config.block (.fbstop 5 5 2 3 5 1) ∧
    Decides (failureTable words (.fbstop 0 0 4 1 1 5)) (some ⟨.badOperand, 4⟩) :=
  ⟨decided _ _ (by decide), decided _ _ (by decide), decided _ _ (by decide)⟩

theorem witness_FdirRule : (4 * 4 ≠ 0 → 4 ≠ 1 ∧ 4 ≠ 1) ∧ 0 + 4 * 4 ≤ words ∧
    16 + 4 * 4 ≤ words ∧ 65535 < words ∧ ¬ Share 0 (4 * 4) 16 (4 * 4) ∧
    ¬ Share 65535 1 16 (4 * 4) ∧ ¬ Share 15 1 16 (4 * 4) ∧
    Decides (failureTable words (.fdir 0 16 4 4 1 9 65536)) (some ⟨.addrRange, 7⟩) ∧
    Decides (failureTable words (.fdir 0 16 4 4 1 9 31)) (some ⟨.overlap, 7⟩) :=
  ⟨by decide, by decide, by decide, by decide, apart _ _ _ _ (by decide), apart _ _ _ _ (by decide),
    apart _ _ _ _ (by decide), decided _ _ (by decide), decided _ _ (by decide)⟩

theorem witness_FilterSymmetry : Passes Config.block (.flow 0 16 3 3 1) ∧ Passes Config.block (.fhigh false 0 16 3 3 1) ∧
    Passes Config.block (.fbpass 0 16 3 3 1 2) ∧ Passes Config.block (.fbstop 0 16 3 3 1 2) ∧ 3 * 3 ≠ 0 ∧
    (1 ≤ (3 + 1) / 2 ∧ 1 ≤ ((3 + 1) / 2 - 1) ^ 2 + ((3 + 1) / 2 - 1) ^ 2) :=
  ⟨decided _ _ (by decide), decided _ _ (by decide), decided _ _ (by decide), decided _ _ (by decide), by decide,
    by decide⟩

theorem witness_BandFiltersAreComplements : 4 % 2 = 0 ∧ 3 < 4 ∧
    ((3, 3) ∈ zeroSet 4 4 (stopZero 4 4 1 5)) ∧ ((3, 3) ∉ zeroSet 4 4 (passZero 4 4 1 5)) := by decide

theorem witness_SpmulRule : 0xFFF8 + 8 ≤ words ∧ ¬ Share 0xFFF8 8 0xFFF0 8 ∧
    Decides (failureTable words (.spmul true 0xFFF9 0 0 8)) (some ⟨.addrRange, 1⟩) ∧
    Decides (failureTable words (.spmul true 0 0xFFF9 0 8)) (some ⟨.addrRange, 2⟩) ∧
    Decides (failureTable words (.spmul true 0 0 0xFFF9 8)) (some ⟨.addrRange, 3⟩) ∧
    Decides (failureTable words (.spmul true 0 7 0 8)) (some ⟨.overlap, 2⟩) ∧
    Decides (failureTable words (.spmul true 0 0 7 8)) (some ⟨.overlap, 3⟩) :=
  ⟨by decide, apart _ _ _ _ (by decide), decided _ _ (by decide), decided _ _ (by decide), decided _ _ (by decide),
    decided _ _ (by decide), decided _ _ (by decide)⟩

theorem witness_PowerSpectrumIsReal : isFinite one = true ∧ isFinite two = true ∧
    isFinite (fmul vectorFpu one two) = true := by decide +kernel

theorem witness_OlaclrRule : 0xFFFE + 2 ≤ words ∧ InRegion 0xFFFE 2 0xFFFF ∧
    Decides (failureTable words (.olaclr 0xFFFF 2)) (some ⟨.addrRange, 1⟩) :=
  ⟨by decide, ⟨by decide, by decide⟩, decided _ _ (by decide)⟩

theorem witness_OlaselRule : 2 ≤ 4 ∧ 4 ≤ 4 ∧ 0x300 + 4 ≤ words ∧ 0xFFFC + 4 ≤ words ∧
    0xFFFE + 2 ≤ words ∧ ¬ Share 0xFFFC 4 0x300 4 ∧ ¬ Share 0xFFFE 2 0x300 4 ∧
    (1 < 2 ∧ 2 + 1 < 4) ∧ (2 ≤ 2 ∨ 4 ≤ 2 + 1) ∧ (2 ≤ 1 ∨ 4 ≤ 3 + 1) ∧
    Decides (failureTable words (.olasel 0 8 8 0 3 2 none)) (some ⟨.badOperand, 5⟩) ∧
    Decides (failureTable words (.olasel 0xFFFF 8 8 0 2 2 none)) (some ⟨.addrRange, 1⟩) ∧
    Decides (failureTable words (.olasel 0 0xFFFF 2 0 2 2 none)) (some ⟨.addrRange, 2⟩) ∧
    Decides (failureTable words (.olasel 0 8 8 0 2 2 (some 0xFFFF))) (some ⟨.addrRange, 7⟩) ∧
    Decides (failureTable words (.olasel 0 1 8 0 2 2 none)) (some ⟨.overlap, 2⟩) ∧
    Decides (failureTable words (.olasel 0 8 8 0 2 2 (some 1))) (some ⟨.overlap, 7⟩) :=
  ⟨by decide, by decide, by decide, by decide, by decide, apart _ _ _ _ (by decide), apart _ _ _ _ (by decide),
    by decide, by decide, by decide, decided _ _ (by decide), decided _ _ (by decide), decided _ _ (by decide),
    decided _ _ (by decide), decided _ _ (by decide), decided _ _ (by decide)⟩

theorem witness_OlaaccRule : 0xFFFC + 4 ≤ words ∧ ¬ Share 0xFFFC 4 0xFFF8 4 ∧
    Decides (failureTable words (.olaacc true 0xFFFD 0 4)) (some ⟨.addrRange, 1⟩) ∧
    Decides (failureTable words (.olaacc true 0 0xFFFD 4)) (some ⟨.addrRange, 2⟩) ∧
    Decides (failureTable words (.olaacc true 0 3 4)) (some ⟨.overlap, 2⟩) :=
  ⟨by decide, apart _ _ _ _ (by decide), decided _ _ (by decide), decided _ _ (by decide), decided _ _ (by decide)⟩

end Sys2Proof.Machine.Tests
end

section
/-! PROOFS. The host port and the conditions of the block (10_state.md R18, R20): what decides the condition a state is
in, who moves when it changes, and the statements of that family. -/

namespace Sys2Proof.Machine

/-! ## The condition a state is in (R20) -/

theorem State.condition_of_busy {s : State} (hb : s.busy = true) : s.condition = .busy := by
  simp [State.condition, hb]

theorem State.condition_of_err {s : State} (hb : s.busy = false) (he : s.err = true) : s.condition = .error := by
  simp [State.condition, hb, he]

theorem State.condition_of_no_err {s : State} (hb : s.busy = false) (he : s.err = false) : s.condition = .idle := by
  simp [State.condition, hb, he]

/-! ## Who moves (R20, R33) -/

/-- Taking the host's next transaction from its list leaves `BUSY` and the condition. -/
theorem busy_of_hostTurn {s s' : State} {t : Transaction} (h : s.hostTurn = some (t, s')) : s'.busy = s.busy := by
  obtain ⟨_, _, -, rfl, -⟩ := (hostTurn_eq_some_iff s s' t).1 h
  rfl

theorem condition_of_hostTurn {s s' : State} {t : Transaction} (h : s.hostTurn = some (t, s')) :
    s'.condition = s.condition := by
  obtain ⟨_, _, -, rfl, -⟩ := (hostTurn_eq_some_iff s s' t).1 h
  rfl

/-- A transaction that can be held takes effect only while `BUSY = 0` (R33). -/
theorem not_busy_of_hostTurn {s s' : State} {t : Transaction} (h : s.hostTurn = some (t, s'))
    (ht : t.neverHeld = false) : s.busy = false := by
  obtain ⟨_, _, -, -, hb⟩ := (hostTurn_eq_some_iff s s' t).1 h
  cases hbusy : s.busy with
  | false => rfl
  | true => exact absurd ((hb hbusy).2.symm.trans ht) (by decide)

/-! ## What changes the condition (R20) -/

/-- Of the register writes taken while `BUSY = 0`, only a write to `CMD` in IDLE and `CTRL.CLRERR` in ERROR change
the condition (R18, R22, R31). -/
theorem writeRegister_condition_cases {s : State} {n : Nat} {v : Word} (hb : s.busy = false)
    (hne : s.condition ≠ (s.writeRegister n v).condition) :
    (n = 0 ∧ s.condition = .idle ∧ (s.writeRegister n v).condition = .busy) ∨
    (n = 12 ∧ v.getLsbD 0 = true ∧ s.condition = .error ∧ (s.writeRegister n v).condition = .idle) := by
  rcases writeRegister_cases s n v with hw | ⟨hn, he, hw⟩ | ⟨hn, hv, he, hw⟩ | ⟨-, -, hw⟩ <;> rw [hw] at hne ⊢
  · exact absurd rfl hne
  · exact .inl ⟨hn, State.condition_of_no_err hb he, State.condition_of_busy rfl⟩
  · exact .inr ⟨hn, hv, State.condition_of_err hb he, State.condition_of_no_err hb rfl⟩
  · exact absurd rfl hne

/-- A transaction that changes the condition is a register write or `Reset`. -/
theorem perform_condition_cases {txn : Transaction} {s t : State} (h : perform txn s = .next t)
    (hne : s.condition ≠ t.condition) :
    (∃ n v, txn = .regWrite n v ∧ t = s.writeRegister n v) ∨ (txn = .reset ∧ t.condition = .idle) := by
  rcases perform_cases h with ⟨n, v, ht, -, hs⟩ | ⟨_, -, -, rfl⟩ | ⟨_, _, _, -, -, rfl⟩ | ⟨_, -, -, rfl⟩ | ⟨ht, rfl⟩
  · exact .inl ⟨n, v, ht, hs⟩
  · exact absurd rfl hne
  · exact absurd rfl hne
  · exact absurd rfl hne
  · exact .inr ⟨ht, rfl⟩

/-! ## The statements -/

/-- Settles O10: while BUSY the write is held and the completion always has a next state; while `BUSY = 0` it is
the acceptance of R18. -/
theorem commandAcceptance : Obligations.CommandAcceptance := by
  intro s v early rest hh
  have taken (hb : s.busy = false) : step s = .next (State.accept { s with host := rest } v) := by
    rw [step_idle s _ early rest hb hh, perform_regWrite 0 v _ (Nat.zero_le _), State.writeRegister_zero]
  refine ⟨fun hb => ?_, fun hb he => ?_, fun hb he => ?_⟩
  · obtain ⟨t, ht, htb, hth, -⟩ := coreStep_next s
    exact ⟨t, (step_of_core s (hostTurn_held s _ early rest hb rfl hh) hb).trans ht, hth, htb⟩
  · exact (taken hb).trans (congrArg _ (State.accept_of_err _ v he))
  · exact (taken hb).trans (congrArg _ (State.accept_of_no_err _ v he))

/-- Settles O20: the host's transaction changes the condition only by a write to `CMD` or `CTRL` or by `Reset`,
and whatever the completion does, it leaves BUSY. The invariant is not needed. -/
theorem conditionChanges : Obligations.ConditionChanges := by
  intro s t _ hstep hne
  rcases step_cases hstep with ⟨txn, s', hturn, hperf⟩ | ⟨hturn, hb, -⟩ | ⟨-, -, rfl⟩
  · rw [← condition_of_hostTurn hturn] at hne ⊢
    rcases perform_condition_cases hperf hne with ⟨n, v, rfl, rfl⟩ | ⟨rfl, ht⟩
    · have hb : s'.busy = false := (busy_of_hostTurn hturn).trans (not_busy_of_hostTurn hturn rfl)
      rcases writeRegister_condition_cases hb hne with ⟨rfl, hi, ht⟩ | ⟨rfl, hv, he, ht⟩
      · exact .inl ⟨hi, ht, v, s', hturn⟩
      · exact .inr (.inr (.inl ⟨he, ht, v, s', hturn, hv⟩))
    · exact .inr (.inr (.inr ⟨ht, s', hturn⟩))
  · exact .inr (.inl ⟨State.condition_of_busy hb, hturn⟩)
  · exact absurd rfl hne

end Sys2Proof.Machine
end

section
/-! PROOFS. The host port (20_memory.md R31 to R36): what each register number reads as and what a write to it does,
which transactions are refused on the bus and which are held, and the statements of that family. -/

namespace Sys2Proof.Machine

/-! ## What a register reads as (R32) -/

/-- Which transactions the host has still to issue is not visible in a register. -/
theorem State.register_host (s : State) (acts : List HostAct) (n : Nat) :
    ({ s with host := acts } : State).register n = s.register n := rfl

/-- Bit 0 of `STATUS` is `BUSY` and bit 1 is `ERR` (R17). -/
theorem State.status_toNat (s : State) :
    s.status.toNat = (if s.busy then 1 else 0) + 2 * (if s.err then 1 else 0) := by
  unfold State.status
  cases s.busy <;> cases s.err <;> rfl

theorem paramOf_of_not_param (p : Params) (n : Nat) (h : n = 0 ∨ 7 < n) : paramOf p n = 0#32 := by
  unfold paramOf
  split <;> first | omega | rfl

theorem State.register_of_not_status_nor_error (s : State) (n : Nat) (h : n < 8 ∨ 11 < n) :
    s.register n = paramOf s.params n := by
  unfold State.register
  split <;> first | omega | rfl

/-- `CMD`, `CTRL` and the reserved numbers read 0 (R23). -/
theorem State.register_eq_zero (s : State) (n : Nat) (h : n = 0 ∨ 12 ≤ n) : s.register n = 0#32 := by
  rw [State.register_of_not_status_nor_error s n (by omega), paramOf_of_not_param s.params n (by omega)]

/-! ## What a register write does (R31) -/

theorem perform_regWrite_param (n : Nat) (v : Word) (s : State) (h1 : 1 ≤ n) (h7 : n ≤ 7) :
    perform (.regWrite n v) s = .next { s with params := s.params.set n v } := by
  rw [perform_regWrite n v s (by omega), State.writeRegister_other s n v (by omega) (by omega)]

theorem perform_regWrite_noEffect (n : Nat) (v : Word) (s : State) (h8 : 8 ≤ n) (h12 : n ≠ 12) (h15 : n ≤ 15) :
    perform (.regWrite n v) s = .next s := by
  rw [perform_regWrite n v s h15, State.writeRegister_other s n v (by omega) h12,
    params_set_of_not_param s.params n v (by omega)]

/-- `CTRL` acts exactly when `CLRERR` is written as 1 and an error is pending (R22). -/
theorem State.writeRegister_control_eq (s : State) (v : Word) :
    s.writeRegister 12 v =
      if v.getLsbD 0 && s.err then { s with err := false, errCode := 0#8, errInfo := 0#3, errCmd := 0#32 }
      else s := by
  rw [State.writeRegister_control]
  cases v.getLsbD 0 <;> rfl

/-! ## Transactions refused on the bus (R36) -/

theorem perform_regWrite_refused (n : Nat) (v : Word) (s : State) (h : 15 < n) :
    perform (.regWrite n v) s = .refused (.noSuchRegister n) := if_neg (Nat.not_le.2 h)

theorem perform_regRead_refused (n : Nat) (s : State) (h : 15 < n) :
    perform (.regRead n) s = .refused (.noSuchRegister n) := if_neg (Nat.not_le.2 h)

theorem perform_memWrite_refused (a : Nat) (re im : F64) (s : State) (h : Config.block.dmemWords ≤ a) :
    perform (.memWrite a re im) s = .refused (.noSuchAddress a) := if_neg (Nat.not_lt.2 h)

theorem perform_memRead_refused (a : Nat) (s : State) (h : Config.block.dmemWords ≤ a) :
    perform (.memRead a) s = .refused (.noSuchAddress a) := if_neg (Nat.not_lt.2 h)

/-! ## Transactions that are held (R33) -/

/-- Every transaction that is neither a register read nor `Reset` is held while BUSY. -/
theorem Transaction.neverHeld_eq_false {t : Transaction} (hread : ∀ n, t ≠ .regRead n) (hreset : t ≠ .reset) :
    t.neverHeld = false := by
  cases t with
  | regRead n => exact absurd rfl (hread n)
  | reset => exact absurd rfl hreset
  | regWrite | memWrite | memRead => rfl

/-- A transaction that is never held and is issued early takes effect in any condition. -/
theorem step_neverHeld (s : State) (t : Transaction) (rest : List HostAct) (ht : t.neverHeld = true)
    (hh : s.host = ⟨t, true⟩ :: rest) : step s = perform t { s with host := rest } :=
  step_of_hostTurn _ _ _ (hostTurn_neverHeld s t rest ht hh)

/-! ## The statements -/

/-- Settles O11: a register read or `Reset` issued early is the host's turn; anything else leaves the turn to the
core, whose completion clears `BUSY` and keeps the host's list, so the same transaction is next and takes effect. -/
theorem transactionsAreHeldWhileBusy : Obligations.TransactionsAreHeldWhileBusy := by
  intro s act rest hb hh
  refine ⟨fun n hn hact => ?_, fun hact => ?_, fun hread hreset => ?_⟩
  · subst hact
    rw [step_neverHeld s _ rest rfl hh, perform_regRead n _ hn, State.register_host]
    rfl
  · subst hact
    rw [step_neverHeld s _ rest rfl hh, perform_reset]
  · obtain ⟨txn, early⟩ := act
    have hcore : step s = coreStep s :=
      step_of_core s (hostTurn_held s txn early rest hb (Transaction.neverHeld_eq_false hread hreset) hh) hb
    obtain ⟨t, ht, htb, hth, -⟩ := coreStep_next s
    have hnext : t.host = ⟨txn, early⟩ :: rest := hth.trans hh
    exact ⟨t, hcore, hcore.trans ht, htb, hnext, step_idle t txn early rest htb hnext⟩

/-- Settles O12, by reading after writing at the same and at another address. -/
theorem hostMemoryAccess : Obligations.HostMemoryAccess := by
  intro s a ha
  refine ⟨fun re im => ?_, ?_⟩
  · refine ⟨_, perform_memWrite a re im s ha, ?_, fun x hx => ?_, rfl⟩
    · exact Memory.read_write_same Config.block s.dmem a ⟨re, im⟩
    · exact Memory.read_write_other Config.block s.dmem a x ⟨re, im⟩ hx
  · exact ⟨_, perform_memRead a s ha, rfl, rfl⟩

/-- Settles O8: the reply is `State.register`, whose value is given number by number. -/
theorem registerReads : Obligations.RegisterReads := by
  intro s n hn
  refine ⟨s.register n, perform_regRead n s hn, ?p1, ?p2, ?p3, ?p4, ?p5, ?p6, ?p7, ?status, ?errCode, ?errInfo,
    ?errCmd, State.register_eq_zero s n⟩ <;> rintro rfl
  case status => exact State.status_toNat s
  case errCode => exact BitVec.toNat_setWidth_of_le (by decide)
  case errInfo => exact BitVec.toNat_setWidth_of_le (by decide)
  all_goals rfl

/-- Settles O9, by the kind of register the number names. That `BUSY = 0` is not needed: `perform` is the
effect a transaction has once it is no longer held. -/
theorem registerWrites : Obligations.RegisterWrites := by
  intro s v _
  refine ⟨?command, ?p1, ?p2, ?p3, ?p4, ?p5, ?p6, ?p7, ?control, fun n hn => ?noEffect⟩
  case command => exact perform_regWrite 0 v s (by decide)
  case control => rw [perform_regWrite 12 v s (by decide), State.writeRegister_control_eq]
  case noEffect => exact perform_regWrite_noEffect n v s (by omega) (by omega) (by omega)
  all_goals exact perform_regWrite_param _ v s (by decide) (by decide)

/-- Settles O13: each transaction fails the bound its port checks. -/
theorem nonexistentIsRefused : Obligations.NonexistentIsRefused := by
  intro s n a v re im
  exact ⟨fun hn => ⟨perform_regWrite_refused n v s hn, perform_regRead_refused n s hn⟩,
    fun ha => ⟨perform_memWrite_refused a re im s ha, perform_memRead_refused a s ha⟩⟩

end Sys2Proof.Machine
end

section
/-! PROOFS. The encoding (30_encoding.md R52, R54, R58): why no word selects two rows, which words select none, how
the factor of `CSCALE` is assembled, and the statements of that family. -/

namespace Sys2Proof

/-! ## Exclusive rows (R52) -/

/-- Two rows whose patterns differ in a bit that both masks keep select no word in common. -/
theorem OpcodeRow.exclusive_of_ne {r r' : OpcodeRow} (h : r.pattern &&& r'.mask ≠ r'.pattern &&& r.mask) (w : Word) :
    ¬ (r.selects w = true ∧ r'.selects w = true) := by
  simp only [OpcodeRow.selects, beq_iff_eq]
  rintro ⟨hr, hr'⟩
  refine h ?_
  calc r.pattern &&& r'.mask = w &&& r.mask &&& r'.mask := by rw [hr]
    _ = w &&& r'.mask &&& r.mask := by ac_rfl
    _ = r'.pattern &&& r.mask := by rw [hr']

theorem opcodeTable_pairwise_ne :
    opcodeTable.Pairwise fun r r' => r.pattern &&& r'.mask ≠ r'.pattern &&& r.mask := by decide

/-! ## Illegal words (R54) -/

/-- The opcode bytes of the 21 rows (R52). -/
def assignedOpcodes : List Nat :=
  [0x00, 0x01, 0x02, 0x03, 0x04, 0x05, 0x06, 0x10, 0x20, 0x21, 0x22, 0x23, 0x30, 0x31, 0x32, 0x33, 0x34, 0x40, 0x50,
   0x51, 0x52]

/-- The opcode bytes of the commands with a flag (R53). -/
def flaggedOpcodes : List Nat := [0x10, 0x22, 0x31, 0x40, 0x51, 0x52]

/-- A legal word has bits 31:9 clear, an assigned opcode byte, and bit 8 set only on a command with a flag. -/
theorem mem_legalWords_iff (n : Nat) : n ∈ legalWords ↔
    n % 256 ∈ assignedOpcodes ∧ (n / 256 % 2 = 1 → n % 256 ∈ flaggedOpcodes) ∧ n < 512 := by
  have fields : ∀ k ∈ legalWords,
      k % 256 ∈ assignedOpcodes ∧ (k / 256 % 2 = 1 → k % 256 ∈ flaggedOpcodes) ∧ k < 512 := by decide
  have plain : ∀ b ∈ assignedOpcodes, b ∈ legalWords := by decide
  have flagged : ∀ b ∈ flaggedOpcodes, 256 + b ∈ legalWords := by decide
  refine ⟨fields n, fun ⟨hop, hflag, hlt⟩ => ?_⟩
  by_cases h8 : n / 256 % 2 = 1
  · have hn : n = 256 + n % 256 := by omega
    rw [hn]
    exact flagged _ (hflag h8)
  · have hn : n = n % 256 := by omega
    rw [hn]
    exact plain _ hop

/-- The opcode bytes that R54 lists as unassigned are those of no row. -/
theorem not_mem_assignedOpcodes_iff (b : Nat) : b ∉ assignedOpcodes ↔
    ((0x07 ≤ b ∧ b ≤ 0x0F) ∨ (0x11 ≤ b ∧ b ≤ 0x1F) ∨ (0x24 ≤ b ∧ b ≤ 0x2F) ∨
      (0x35 ≤ b ∧ b ≤ 0x3F) ∨ (0x41 ≤ b ∧ b ≤ 0x4F) ∨ 0x53 ≤ b) := by
  simp only [assignedOpcodes, List.mem_cons, List.not_mem_nil, or_false]
  omega

theorem decode_error_iff_fields (m : Image) : (∃ e, decode m = .error e) ↔
    m.cmd.toNat % 256 ∉ assignedOpcodes ∨
    (m.cmd.toNat / 256 % 2 = 1 ∧ m.cmd.toNat % 256 ∉ flaggedOpcodes) ∨ 512 ≤ m.cmd.toNat := by
  rw [decode_error_iff, decode_ok_iff_legal, mem_legalWords_iff, not_and_or, not_and_or, Classical.not_imp, Nat.not_lt]

/-! ## The scale factor (R58) -/

theorem factorOf_eq_ofNat (p3 p4 : Word) : factorOf p3 p4 = BitVec.ofNat 64 (p4.toNat * 2 ^ 32 + p3.toNat) := by
  rw [← factorOf_toNat, BitVec.ofNat_toNat, BitVec.setWidth_eq]

/-- The word of `CSCALE` selects its row, the seventh of the table (R52). -/
theorem rowOf_cscale : rowOf 0x00000006#32 = opcodeTable[6]? := rfl

theorem decode_cscale (p : Params) :
    decode ⟨0x00000006#32, p⟩ = .ok (.cscale p.p1.toNat p.p2.toNat (factorOf p.p3 p.p4)) := by
  rw [decode, rowOf_cscale]
  rfl

/-! ## The statements -/

/-- Settles O3: the table is read off row by row, and two of its rows always differ in a bit that both masks keep. -/
theorem opcodeTableIsExclusive : Obligations.OpcodeTableIsExclusive :=
  ⟨rfl, opcodeTable_pairwise_ne.imp OpcodeRow.exclusive_of_ne, decode_ok_iff⟩

/-- Settles O6: the factor is `factorOf` of the two registers, and any pattern is `factorOf` of its two halves. -/
theorem scaleFactorIsAssembled : Obligations.ScaleFactorIsAssembled := by
  refine ⟨fun p => ?_, fun f => ⟨f.extractLsb' 0 32, f.extractLsb' 32 32, ?_⟩⟩
  · rw [decode_cscale, factorOf_eq_ofNat]
  · rw [← factorOf_toNat, factorOf_split]

end Sys2Proof

namespace Sys2Proof.Machine

/-- A write to `CMD` in IDLE latches the word with the parameters, whatever the word is (R18). -/
theorem step_accept_of_idle (s : State) (v : Word) (early : Bool) (rest : List HostAct) (hb : s.busy = false)
    (he : s.err = false) (hh : s.host = ⟨.regWrite 0 v, early⟩ :: rest) :
    step s = .next { s with host := rest, latch := ⟨v, s.params⟩, busy := true } :=
  (commandAcceptance s v early rest hh).2.2 hb he

/-- A latched illegal word is rejected when the core moves, before any operand is examined (R174). -/
theorem step_of_illegal (s : State) (e : Illegal) (hb : s.busy = true) (hturn : s.hostTurn = none)
    (hd : decode s.latch = .error e) : step s = .next (s.reject illegalCommand) :=
  (step_of_core s hturn hb).trans (coreStep_of_illegal s e hd)

/-- Settles O4: the illegal words are the complement of the legal ones field by field, acceptance does not look at the
word, and the completion rejects what does not decode. -/
theorem illegalWordsAreRejected : Obligations.IllegalWordsAreRejected := by
  refine ⟨fun m => ?_, decode_total, step_accept_of_idle, fun s e hb hturn hd => ?_⟩
  · rw [decode_error_iff_fields, not_mem_assignedOpcodes_iff]
    rfl
  · exact ⟨_, step_of_illegal s e hb hturn hd, s.rejectedAs_reject illegalCommand⟩

end Sys2Proof.Machine
end

section
/-! PROOFS. The scalar commands (40_complex_arithmetic.md R78 to R84): they have two shapes, one source word and two;
each shape is run once, and a command's statement is its complex function put in. -/

namespace Sys2Proof.Machine

/-! ## How a command ends (R19, R177) -/

/-- Every command is rejected exactly as the table says (R175, R177). -/
theorem rejectsByTable (i : Instr) (s : State) : RejectsByTable i s :=
  fun r h => ⟨_, exec_of_decides_some i s r h, s.rejectedAs_reject r⟩

/-- A command whose Operation writes one word leaves that word at its address and every other word as it was. -/
theorem runsTo_of_write {i : Instr} {s : State} {dst : Nat} {v : CWord} {written : CWord → Prop}
    (hpass : firstFailure (s.meaning i).checks = none)
    (hop : (s.meaning i).operation s.dmem = s.dmem.write dst v) (hv : written v) :
    RunsTo i s fun x z => (x = dst → written z) ∧ (x ≠ dst → z = s.word x) := by
  refine runsTo_of_passes ((decides_failureTable Config.block s.draws i none).2 hpass) fun x => ?_
  rw [hop]
  refine ⟨?_, Memory.read_write_other Config.block s.dmem dst x v⟩
  rintro rfl
  rwa [Memory.read_write_same]

/-! ## The two shapes (R78) -/

/-- One word at an address inside DMEM is in range. -/
theorem inrange_one {words a : Nat} (h : a < words) : inrange words a 1 = true := decide_eq_true h

theorem oneSourceChecks_pass {words dst a : Nat} (hdst : dst < words) (ha : a < words) :
    firstFailure (oneSourceChecks words dst a) = none := by
  simp [oneSourceChecks, rangeCheck, firstFailure, inrange_one, hdst, ha]

theorem twoSourceChecks_pass {words dst a b : Nat} (hdst : dst < words) (ha : a < words) (hb : b < words) :
    firstFailure (twoSourceChecks words dst a b) = none := by
  simp [twoSourceChecks, rangeCheck, firstFailure, inrange_one, hdst, ha, hb]

/-- A one-source command with both words inside DMEM writes `f` of the old source word. -/
theorem runsTo_oneSource {i : Instr} {s : State} {dst a : Nat} (f : CWord → CWord) {written : CWord → Prop}
    (hi : s.meaning i = oneSource Config.block f dst a) (hdst : dst < Config.block.dmemWords)
    (ha : a < Config.block.dmemWords) (hv : written (f (s.word a))) :
    RunsTo i s fun x z => (x = dst → written z) ∧ (x ≠ dst → z = s.word x) :=
  runsTo_of_write (by rw [hi]; exact oneSourceChecks_pass hdst ha) (by rw [hi]; rfl) hv

/-- A two-source command with its words inside DMEM writes `f` of the two old source words. -/
theorem runsTo_twoSource {i : Instr} {s : State} {dst a b : Nat} (f : CWord → CWord → CWord)
    {written : CWord → Prop} (hi : s.meaning i = twoSource Config.block f dst a b)
    (hdst : dst < Config.block.dmemWords) (ha : a < Config.block.dmemWords) (hb : b < Config.block.dmemWords)
    (hv : written (f (s.word a) (s.word b))) :
    RunsTo i s fun x z => (x = dst → written z) ∧ (x ≠ dst → z = s.word x) :=
  runsTo_of_write (by rw [hi]; exact twoSourceChecks_pass hdst ha hb) (by rw [hi]; rfl) hv

/-- By a divisor of nonzero magnitude the quotient is the formula of R75. -/
theorem cdiv_eq_quotient (u : Fpu) (x y : CWord) (h : ¬ (isZero y.re = true ∧ isZero y.im = true)) :
    cdiv u x y = quotient u x y := by
  refine if_neg ?_
  rwa [zeroMagnitude, Bool.and_eq_true]

/-! ## The statements -/

/-- Settles O33: the two-source shape with `cadd` (R72). -/
theorem caddRule : Obligations.CaddRule := fun s _ _ _ =>
  ⟨rfl, rejectsByTable _ s, fun hdst ha hb => runsTo_twoSource (cadd s.fpu) rfl hdst ha hb rfl⟩

/-- Settles O34: the two-source shape with `csub` (R73). -/
theorem csubRule : Obligations.CsubRule := fun s _ _ _ =>
  ⟨rfl, rejectsByTable _ s, fun hdst ha hb => runsTo_twoSource (csub s.fpu) rfl hdst ha hb rfl⟩

/-- Settles O35: the two-source shape with `cmul` (R74). -/
theorem cmulRule : Obligations.CmulRule := fun s _ _ _ =>
  ⟨rfl, rejectsByTable _ s, fun hdst ha hb => runsTo_twoSource (cmul s.fpu) rfl hdst ha hb rfl⟩

/-- Settles O36: the two-source shape with `cdiv`, whose checks do not look at the divisor; by a nonzero magnitude it
is the formula of R75. -/
theorem cdivRule : Obligations.CdivRule := fun s _ a b =>
  ⟨rfl, rejectsByTable _ s, fun hdst ha hb =>
    runsTo_twoSource (cdiv s.fpu) rfl hdst ha hb (cdiv_eq_quotient s.fpu (s.word a) (s.word b))⟩

/-- Settles O37: the one-source shape with `cconj`, which is `fneg` on `im` (R76). -/
theorem cconjRule : Obligations.CconjRule := fun s _ a =>
  ⟨rfl, rejectsByTable _ s, fun hdst ha =>
    runsTo_oneSource cconj rfl hdst ha ⟨rfl, signBit_fneg (s.word a).im, fneg_getLsbD (s.word a).im⟩⟩

/-- Settles O38: the one-source shape with `cscale` by the factor, whatever the factor is (R77). -/
theorem cscaleRule : Obligations.CscaleRule := fun s _ _ factor =>
  ⟨rfl, rejectsByTable _ s, fun hdst ha => runsTo_oneSource (cscale s.fpu · factor) rfl hdst ha rfl⟩

end Sys2Proof.Machine
end

section
/-! PROOFS. The roots of unity (41_twiddle.md R93): how a command that fills a region word by word ends, and `BASIS`,
which fills its region from the twiddle ROM. -/

namespace Sys2Proof.Machine

/-- A passing command whose Operation makes the word at each index of a region one that was to be written there, and
keeps to that region, ends with those words and every other word as it was. -/
theorem runsTo_of_region {i : Instr} {s : State} {dst n : Nat} {written : Nat → CWord → Prop}
    (hpass : Passes Config.block i) (hkeeps : Keeps (InRegion dst n) s.dmem ((s.meaning i).operation s.dmem))
    (hwritten : ∀ k, k < n → written k (((s.meaning i).operation s.dmem).read Config.block (dst + k))) :
    RunsTo i s fun x z => (∀ k, k < n → x = dst + k → written k z) ∧ (¬ InRegion dst n x → z = s.word x) := by
  refine runsTo_of_passes hpass fun x => ⟨?_, hkeeps.other Config.block x⟩
  rintro k hk rfl
  exact hwritten k hk

/-- A nonzero period and a table inside DMEM are all that `BASIS` asks; an empty table may start at the end of DMEM. -/
theorem basis_passes {c : BlockConfig} {inv : Bool} {dst period size : Nat} (hperiod : period ≠ 0)
    (hin : dst + size ≤ c.dmemWords) : Passes c (.basis inv dst period size) := by
  simp [Passes, decides_none_iff, failureTable, Outside, hperiod, hin]

/-- Settles O39: `BASIS` fills its region with the ROM entries in order (R93), whatever the ROM holds. -/
theorem basisRule : Obligations.BasisRule := by
  intro s inv dst period size
  refine ⟨by cases inv <;> rfl, rejectsByTable _ s, fun hperiod hin => ?_⟩
  obtain ⟨hkeeps, hroots⟩ := basis_spec Config.block inv dst period size s.dmem
  exact runsTo_of_region (basis_passes hperiod hin) hkeeps hroots

end Sys2Proof.Machine
end

section
/-! PROOFS. The transform (42_fft.md R102 to R104): when the checks of each command pass, the value of the factor `NORM`
scales by, the stages of an `FFT` by name, and the statements of that family. -/

namespace Sys2Proof.Machine

/-! ## When the checks pass (R100, R175) -/

theorem norm_passes {c : BlockConfig} {data n : Nat} (hdata : data + 2 ^ n ≤ c.dmemWords) :
    Passes c (.norm data (2 ^ n)) := by
  have hpow : IsPow2 (2 ^ n) := ⟨n, rfl⟩
  simp [Passes, decides_none_iff, failureTable, Outside, hpow, hdata]

theorem fft_passes {c : BlockConfig} {norm : Bool} {data roots n : Nat} (hdata : data + 2 ^ n ≤ c.dmemWords)
    (hroots : roots + 2 ^ n / 2 ≤ c.dmemWords) (hapart : ¬ Share data (2 ^ n) roots (2 ^ n / 2)) :
    Passes c (.fft norm data roots (2 ^ n)) := by
  have hpow : IsPow2 (2 ^ n) := ⟨n, rfl⟩
  simp [Passes, decides_none_iff, failureTable, Outside, hpow, hdata, hroots, hapart]

/-- `BFLY` asks what `FFT` asks, and a depth below the exponent of the length. -/
theorem bfly_passes {c : BlockConfig} {data roots n depth : Nat} (hdepth : depth < n)
    (hdata : data + 2 ^ n ≤ c.dmemWords) (hroots : roots + 2 ^ n / 2 ≤ c.dmemWords)
    (hapart : ¬ Share data (2 ^ n) roots (2 ^ n / 2)) : Passes c (.bfly data roots (2 ^ n) depth) := by
  have hpow : IsPow2 (2 ^ n) := ⟨n, rfl⟩
  have hlen : 2 ^ depth < 2 ^ n := Nat.pow_lt_pow_right (by decide) hdepth
  simp [Passes, decides_none_iff, failureTable, Outside, hpow, hlen, hdata, hroots, hapart]

/-! ## The factor of `NORM` (R103) -/

/-- The factor is the positive pattern of exponent field `1023 - n` and fraction 0. -/
theorem powerOfHalf_eq_pack (n : Nat) : powerOfHalf n = pack false ((1023 - n) * 2 ^ 52) := by
  have hle : (1023 - n) * 2 ^ 52 ≤ infinityField := Nat.mul_le_mul_right _ (by omega)
  rw [powerOfHalf, pack, min_eq_left hle, Bool.toNat_false, Nat.zero_mul, Nat.zero_add]

/-- The exponent field of the factor is below that of the infinities. -/
theorem powerOfHalf_field_lt (n : Nat) : (1023 - n) * 2 ^ 52 < infinityField :=
  Nat.mul_lt_mul_of_pos_right (by omega) (by positivity)

theorem isFinite_powerOfHalf (n : Nat) : isFinite (powerOfHalf n) = true := by
  rw [powerOfHalf_eq_pack, isFinite_pack]
  exact decide_eq_true (powerOfHalf_field_lt n)

theorem signBit_powerOfHalf (n : Nat) : signBit (powerOfHalf n) = false := by
  rw [powerOfHalf_eq_pack, signBit_pack]

/-- A pattern of nonzero exponent field `e` and fraction 0 is a power of two. -/
theorem fieldUnits_exponent (e : Nat) (he : e ≠ 0) : fieldUnits (e * 2 ^ 52) = 2 ^ 52 * 2 ^ (e - 1) := by
  rw [fieldUnits, Nat.mul_div_cancel _ (by positivity), Nat.mul_mod_left, if_neg he, Nat.add_zero]

/-- While its exponent is normal, the factor is exactly `1 / 2^n`. -/
theorem units_powerOfHalf_mul (n : Nat) (hn : n ≤ 1022) : units (powerOfHalf n) * 2 ^ n = unitsPerOne := by
  rw [powerOfHalf_eq_pack, units_pack _ _ (powerOfHalf_field_lt n), fieldUnits_exponent _ (by omega), ← pow_add,
    ← pow_add, unitsPerOne]
  congr 1
  omega

/-- A length that fits in DMEM has its exponent at most 32 (R16). -/
theorem exponent_le_of_inside {c : BlockConfig} {data n : Nat} (hdata : data + 2 ^ n ≤ c.dmemWords) : n ≤ 32 :=
  (Nat.pow_le_pow_iff_right (by decide)).1 <|
    (Nat.le_of_add_left_le hdata).trans (dmemWords_bounds c).2

/-! ## The stages of `FFT` (R104) -/

/-- Memory after the bit reversal and the first `d` butterfly stages. -/
def stagedMemory (c : BlockConfig) (u : Fpu) (data roots len : Nat) (m : Memory) (d : Nat) : Memory :=
  forUp d (butterflyStage c u data roots len) (bitReverse c data len m)

theorem stagedMemory_zero (c : BlockConfig) (u : Fpu) (data roots len : Nat) (m : Memory) :
    stagedMemory c u data roots len m 0 = bitReverse c data len m := rfl

theorem stagedMemory_succ (c : BlockConfig) (u : Fpu) (data roots len : Nat) (m : Memory) (d : Nat) :
    stagedMemory c u data roots len m (d + 1) =
      butterflyStage c u data roots len d (stagedMemory c u data roots len m d) := rfl

/-- A transform of `2^n` words is the memory after its `n` stages, normalised with the flag. -/
theorem transform_eq_stagedMemory (c : BlockConfig) (u : Fpu) (norm : Bool) (data roots n : Nat) (m : Memory) :
    transform c u norm data roots (2 ^ n) m =
      if norm then normalise c u data (2 ^ n) (stagedMemory c u data roots (2 ^ n) m n)
      else stagedMemory c u data roots (2 ^ n) m n := by
  rw [transform, log2_two_pow]
  rfl

/-! ## The statements -/

/-- Settles O42: the checks pass, and the stage leaves at each pair what `butterflyStage_spec` says of memory before
the command; the two ways to write the upper address agree. -/
theorem bflyRule : Obligations.BflyRule := by
  intro s data roots len depth
  refine ⟨rfl, rejectsByTable _ s, ?_⟩
  rintro n rfl hdepth hdata hroots hapart
  obtain ⟨hkeeps, hpairs⟩ := butterflyStage_spec Config.block s.fpu data roots n depth s.dmem hdepth
    ((not_share_iff _ _ _ _).1 hapart)
  refine runsTo_of_passes (bfly_passes hdepth hdata hroots hapart) fun x => ⟨?_, hkeeps.other Config.block x⟩
  intro block i hblock hi
  obtain ⟨hlower, hupper⟩ := hpairs block i hblock hi
  simp only [upperOperand, Nat.add_right_comm _ (2 ^ depth) i] at hlower hupper
  constructor
  · rintro rfl
    exact hlower
  · rintro rfl
    exact hupper

/-- Settles O43: the factor is `powerOfHalf n`, exactly `1 / 2^n` because a length inside DMEM keeps the exponent
normal. -/
theorem normRule : Obligations.NormRule := by
  intro s data len
  refine ⟨rfl, rejectsByTable _ s, ?_⟩
  rintro n rfl hdata
  have hexp : n ≤ 32 := exponent_le_of_inside hdata
  refine ⟨powerOfHalf n, isFinite_powerOfHalf n, signBit_powerOfHalf n, units_powerOfHalf_mul n (by omega), ?_⟩
  obtain ⟨hkeeps, hscaled⟩ := normalise_spec Config.block s.fpu data (2 ^ n) s.dmem
  rw [log2_two_pow] at hscaled
  refine runsTo_of_passes (norm_passes hdata) fun x => ⟨?_, hkeeps.other Config.block x⟩
  rintro i hi rfl
  exact hscaled i hi

/-- Settles O44: the stages are the memories after the bit reversal and the first butterflies, each the next one's
start. -/
theorem fftRule : Obligations.FftRule := by
  intro s norm data roots len
  refine ⟨by cases norm <;> rfl, rejectsByTable _ s, ?_⟩
  rintro n rfl hdata hroots hapart
  have hpass : Passes Config.block (.fft norm data roots (2 ^ n)) := fft_passes hdata hroots hapart
  have hkeeps := operation_keeps Config.block _ s.draws s.dmem hpass
  refine ⟨_, exec_of_passes _ s hpass, s.ran_finish _ hkeeps.epoch, ?_, hkeeps.other Config.block⟩
  exact ⟨stagedMemory Config.block s.fpu data roots (2 ^ n) s.dmem, stagedMemory_zero .., fun d _ =>
    stagedMemory_succ .., transform_eq_stagedMemory ..⟩

end Sys2Proof.Machine
end

section
/-! PROOFS. The filter masks (43_filter_mask.md R120 to R129): the five commands share their checks (R124) and the
common operation (R123); a command's statement is its own set of zeroed positions put in. -/

namespace Sys2Proof.Machine

/-! ## When the checks pass (R124, R175) -/

section
variable {c : BlockConfig} {src dst h w : Nat} (hdim : h * w ≠ 0 → h ≠ 1 ∧ w ≠ 1)
  (hsrc : src + h * w ≤ c.dmemWords) (hdst : dst + h * w ≤ c.dmemWords)
  (hplace : src = dst ∨ ¬ Share src (h * w) dst (h * w))
include hdim hsrc hdst hplace

/-- The four filters without a configuration word have one table; none of its entries rejects two grids inside DMEM,
disjoint or the same, with no dimension 1 unless they are empty. -/
theorem gridFailures_decide_none :
    Decides (gridFailures h w ++ gridRangeFailures c.dmemWords src dst h w ++ gridOverlapFailures src dst h w)
      none := by
  have hover : ¬ (Share src (h * w) dst (h * w) ∧ src ≠ dst) := fun ⟨hshare, hne⟩ => hplace.elim hne (· hshare)
  rw [decides_none_iff]
  simp only [gridFailures, gridRangeFailures, gridOverlapFailures, List.cons_append, List.nil_append,
    List.forall_mem_cons, Outside]
  exact ⟨fun ⟨hne, h1⟩ => (hdim hne).1 h1, fun ⟨hne, w1⟩ => (hdim hne).2 w1, hsrc.not_gt, hdst.not_gt, hover, nofun⟩

/-- `FDIR` asks what the other filters ask, and a configuration word inside DMEM and off the destination. -/
theorem fdir_passes {t1 t2 cfg : Nat} (hcfg : cfg < c.dmemWords) (hoff : ¬ Share cfg 1 dst (h * w)) :
    Passes c (.fdir src dst h w t1 t2 cfg) := by
  have hgrid := (decides_none_iff _).1 (gridFailures_decide_none hdim hsrc hdst hplace)
  rw [Passes, failureTable, decides_none_iff]
  simp only [List.forall_mem_append, List.forall_mem_singleton] at hgrid ⊢
  obtain ⟨⟨hvalues, hranges⟩, hover⟩ := hgrid
  exact ⟨⟨⟨⟨hvalues, hranges⟩, Nat.not_lt.2 hcfg⟩, hover⟩, hoff⟩

end

/-! ## The positions that become `ZERO` (R126, R129) -/

/-- The exemption of R126 does not apply: no flag `PM`, or not the reference origin. -/
theorem meanExempt_eq_false_iff (pm : Bool) (h w y x : Nat) :
    meanExempt pm h w (y, x) = false ↔ ¬ (pm = true ∧ y = (h + 1) / 2 ∧ x = (w + 1) / 2) := by
  rw [← Bool.not_eq_true, meanExempt, Bool.and_eq_true, beq_iff_eq, Prod.mk.injEq]
  rfl

/-- A position is zeroed from a scanned coordinate by the pair it lies in, when that pair is outside the annulus or
outside the wedge (R129). -/
theorem mem_directionalZero (c : BlockConfig) (h w t1 t2 : Nat) (cfg : CWord) (p q : Position) :
    q ∈ directionalZero c h w t1 t2 cfg p ↔
      (¬ ((t1 ≤ distSq h w p ∧ distSq h w p < t2) ∧
        c.dirPred .a (mid h - p.1) (mid w - p.2) cfg.re cfg.im = true) ∧ q ∈ pairA h w p) ∨
      (¬ ((t1 ≤ distSq h w p ∧ distSq h w p < t2) ∧
        c.dirPred .b (mid h - p.1) (mid w - p.2) cfg.re cfg.im = true) ∧ q ∈ pairB h w p) := by
  rw [directionalZero, List.mem_append, List.mem_ite_nil_left, List.mem_ite_nil_left, Bool.and_eq_true,
    Bool.and_eq_true, inAnnulus_iff]

/-! ## The common operation (R123) -/

/-- A passing command whose Operation is the common one writes `ZERO` at the positions of its set that are not
exempt. -/
theorem runsTo_of_filterGrid {i : Instr} {s : State} {src dst h w : Nat} {z : List Position}
    {exempt : Position → Bool} {zeroed : Nat → Nat → Prop} (hpass : Passes Config.block i)
    (hop : (s.meaning i).operation s.dmem = filterGrid Config.block src dst h w z exempt s.dmem)
    (hz : ∀ y x, ((y, x) ∈ z ∧ exempt (y, x) = false) ↔ zeroed y x) :
    RunsTo i s (FilterWrites s src dst h w zeroed) :=
  runsTo_of_passes hpass fun a => hop ▸ filterGrid_writes s src dst h w z exempt zeroed hz a

/-- The same for a filter that exempts no position: its set is what it zeroes. -/
theorem runsTo_of_filterGrid_noneExempt {i : Instr} {s : State} {src dst h w : Nat} {z : List Position}
    {zeroed : Nat → Nat → Prop} (hpass : Passes Config.block i)
    (hop : (s.meaning i).operation s.dmem = filterGrid Config.block src dst h w z noneExempt s.dmem)
    (hz : ∀ y x, (y, x) ∈ z ↔ zeroed y x) : RunsTo i s (FilterWrites s src dst h w zeroed) :=
  runsTo_of_filterGrid hpass hop fun y x => (and_iff_left rfl).trans (hz y x)

/-! ## The statements -/

/-- Settles O45: the common operation with the positions reached at `distSq >= t1` (R125). -/
theorem flowRule : Obligations.FlowRule := fun s _ _ h w t1 =>
  ⟨rfl, rejectsByTable _ s, fun hdim hsrc hdst hplace =>
    runsTo_of_filterGrid_noneExempt (gridFailures_decide_none hdim hsrc hdst hplace) rfl (mem_lowZero h w t1)⟩

/-- Settles O46: the common operation with the positions reached at `distSq < t1`, less the one that `PM` exempts
(R126). -/
theorem fhighRule : Obligations.FhighRule := fun s pm _ _ h w t1 =>
  ⟨by cases pm <;> rfl, rejectsByTable _ s, fun hdim hsrc hdst hplace =>
    runsTo_of_filterGrid (gridFailures_decide_none hdim hsrc hdst hplace) rfl fun y x =>
      and_congr (mem_highZero h w t1 y x) (meanExempt_eq_false_iff pm h w y x)⟩

/-- Settles O47: the common operation with the positions reached outside the annulus (R127). -/
theorem fbpassRule : Obligations.FbpassRule := fun s _ _ h w t1 t2 =>
  ⟨rfl, rejectsByTable _ s, fun hdim hsrc hdst hplace =>
    runsTo_of_filterGrid_noneExempt (gridFailures_decide_none hdim hsrc hdst hplace) rfl (mem_passZero h w t1 t2)⟩

/-- Settles O49: the common operation with the positions of the pairs that are not kept; the configuration word is
that of the state before the command (R129). -/
theorem fdirRule : Obligations.FdirRule := by
  intro s src dst h w t1 t2 cfg
  refine ⟨rfl, rejectsByTable _ s, fun hdim hsrc hdst hcfg hplace hoff => ?_⟩
  refine runsTo_of_filterGrid_noneExempt (fdir_passes hdim hsrc hdst hplace hcfg hoff) rfl fun y x => ?_
  simp only [mem_zeroSet, mem_directionalZero, mem_pairA, mem_pairB]
  rfl

end Sys2Proof.Machine
end

section
/-! PROOFS. The convolution multiplier (44_convolution_multiplier.md R140, R141): when the checks of `SPMUL` pass, and
its statement. Both sources are read before anything is written, so where the regions lie matters to the checks
only. -/

namespace Sys2Proof.Machine

/-- `SPMUL` asks three regions inside DMEM and a destination that is each source or off it; the sources may lie on each
other in any way. -/
theorem spmul_passes {c : BlockConfig} {cj : Bool} {dst a b n : Nat} (hdst : dst + n ≤ c.dmemWords)
    (ha : a + n ≤ c.dmemWords) (hb : b + n ≤ c.dmemWords) (hplaceA : dst = a ∨ ¬ Share dst n a n)
    (hplaceB : dst = b ∨ ¬ Share dst n b n) : Passes c (.spmul cj dst a b n) := by
  have hoverA : ¬ (Share dst n a n ∧ dst ≠ a) := fun ⟨hshare, hne⟩ => hplaceA.elim hne (· hshare)
  have hoverB : ¬ (Share dst n b n ∧ dst ≠ b) := fun ⟨hshare, hne⟩ => hplaceB.elim hne (· hshare)
  rw [Passes, failureTable, decides_none_iff]
  simp only [List.forall_mem_cons, Outside]
  exact ⟨hdst.not_gt, ha.not_gt, hb.not_gt, hoverA, hoverB, nofun⟩

/-- Settles O52: `SPMUL` fills its region with the products of the old words, the second factor conjugated under `CJ`
(R141). -/
theorem spmulRule : Obligations.SpmulRule := by
  intro s cj dst a b n
  refine ⟨by cases cj <;> rfl, rejectsByTable _ s, fun hdst ha hb hplaceA hplaceB => ?_⟩
  obtain ⟨hkeeps, hproducts⟩ := spmul_spec Config.block s.draws cj dst a b n s.dmem
  exact runsTo_of_region (spmul_passes hdst ha hb hplaceA hplaceB) hkeeps hproducts

end Sys2Proof.Machine
end

section
/-! PROOFS. Overlap-add (45_overlap_add.md R151 to R153): when the checks of the three commands pass, the word `OLASEL`
writes in each case of R152, and the statements of that family. `OLASEL` and `OLAACC` read while they write; their
overlap checks are why what they read is DMEM before the command. -/

namespace Sys2Proof.Machine

/-! ## When the checks pass (R175) -/

theorem olaclr_passes {c : BlockConfig} {dst n : Nat} (hin : dst + n ≤ c.dmemWords) : Passes c (.olaclr dst n) := by
  rw [Passes, failureTable, decides_none_iff]
  exact List.forall_mem_singleton.2 hin.not_gt

/-- Without the flag `OLASEL` asks nothing of a taper; with it, a taper inside DMEM and off the window. The offset is
not asked about. -/
theorem olasel_passes {c : BlockConfig} {dst sig n off winLen padLen : Nat} {taper : Option Nat}
    (hlen : winLen ≤ padLen) (hdst : dst + padLen ≤ c.dmemWords) (hsig : sig + n ≤ c.dmemWords)
    (htaper : ∀ t, taper = some t → t + winLen ≤ c.dmemWords) (hsigApart : ¬ Share sig n dst padLen)
    (htaperApart : ∀ t, taper = some t → ¬ Share t winLen dst padLen) :
    Passes c (.olasel dst sig n off winLen padLen taper) := by
  rw [Passes, decides_none_iff]
  cases taper with
  | none =>
    simp only [failureTable, List.forall_mem_cons, Outside]
    exact ⟨hlen.not_gt, hdst.not_gt, hsig.not_gt, hsigApart, nofun⟩
  | some t =>
    simp only [failureTable, List.forall_mem_cons, Outside]
    exact ⟨hlen.not_gt, hdst.not_gt, hsig.not_gt, (htaper t rfl).not_gt, hsigApart, htaperApart t rfl, nofun⟩

theorem olaacc_passes {c : BlockConfig} {re : Bool} {dst src n : Nat} (hdst : dst + n ≤ c.dmemWords)
    (hsrc : src + n ≤ c.dmemWords) (hapart : ¬ Share dst n src n) : Passes c (.olaacc re dst src n) := by
  rw [Passes, failureTable, decides_none_iff]
  simp only [List.forall_mem_cons, Outside]
  exact ⟨hdst.not_gt, hsrc.not_gt, hapart, nofun⟩

/-! ## The word of one window position (R152) -/

section
variable (c : BlockConfig) (u : Fpu) (sig : Nat) {n off winLen j : Nat} (m : Memory)

theorem windowWord_none (hwin : j < winLen) (hsig : off + j < n) :
    windowWord c u sig n off winLen none j m = m.read c (sig + off + j) :=
  if_pos ⟨hwin, hsig⟩

theorem windowWord_some (t : Nat) (hwin : j < winLen) (hsig : off + j < n) :
    windowWord c u sig n off winLen (some t) j m = cscale u (m.read c (sig + off + j)) (m.read c (t + j)).re :=
  if_pos ⟨hwin, hsig⟩

/-- Past the window or past the signal nothing is read: the word is padding. -/
theorem windowWord_padding (taper : Option Nat) (hpad : winLen ≤ j ∨ n ≤ off + j) :
    windowWord c u sig n off winLen taper j m = CWord.zero :=
  if_neg fun ⟨hwin, hsig⟩ => hpad.elim hwin.not_ge hsig.not_ge

end

/-! ## The statements -/

/-- Settles O54: every address of the region is written at its index, with `ZERO` (R151). -/
theorem olaclrRule : Obligations.OlaclrRule := by
  intro s dst n
  refine ⟨rfl, rejectsByTable _ s, fun hin => ?_⟩
  obtain ⟨hkeeps, hzeros⟩ := olaclr_spec Config.block dst n s.dmem
  refine runsTo_of_passes (olaclr_passes hin) fun x => ⟨fun hx => ?_, hkeeps.other Config.block x⟩
  obtain ⟨j, hj, rfl⟩ := hx.index
  exact hzeros j hj

/-- Settles O55: signal and taper lie off the window, so each word of it is the window word of DMEM before the command,
and that is a sample, a tapered sample or padding (R152). -/
theorem olaselRule : Obligations.OlaselRule := by
  intro s dst sig n off winLen padLen taper
  refine ⟨by cases taper <;> rfl, rejectsByTable _ s, fun hlen hdst hsig htaper hsigApart htaperApart => ?_⟩
  have hsigOff : ∀ x, InRegion sig n x → ¬ InRegion dst padLen x := fun x hx hw => hsigApart ⟨x, hx, hw⟩
  have htaperOff : ∀ t, taper = some t → ∀ x, InRegion t winLen x → ¬ InRegion dst padLen x :=
    fun t ht x hx hw => htaperApart t ht ⟨x, hx, hw⟩
  refine runsTo_of_region (olasel_passes hlen hdst hsig htaper hsigApart htaperApart)
    (olasel_keeps Config.block s.draws dst sig n off winLen padLen taper s.dmem) fun j hj => ?_
  have hword := olasel_spec Config.block s.draws dst sig n off winLen padLen taper s.dmem hsigOff htaperOff j hj
  refine ⟨?sample, ?tapered, fun hpad => hword.trans (windowWord_padding _ _ sig _ taper hpad)⟩
  case sample =>
    rintro hwin hin rfl
    exact hword.trans (windowWord_none _ _ sig _ hwin hin)
  case tapered =>
    rintro t hwin hin rfl
    exact hword.trans (windowWord_some _ _ sig _ t hwin hin)

/-- Settles O56: the window lies off the buffer, so each sum is of two words of DMEM before the command (R153). -/
theorem olaaccRule : Obligations.OlaaccRule := by
  intro s re dst src n
  refine ⟨by cases re <;> rfl, rejectsByTable _ s, fun hdst hsrc hapart => ?_⟩
  exact runsTo_of_region (olaacc_passes hdst hsrc hapart) (olaacc_keeps Config.block s.draws re dst src n s.dmem)
    (olaacc_spec Config.block s.draws re dst src n s.dmem ((not_share_iff dst n src n).1 hapart))

end Sys2Proof.Machine
end

section
/-! PROOFS. `NOP` (46_control.md R165). -/

namespace Sys2Proof.Machine

/-- The table of R175 has no row for `NOP`, so nothing can reject it. -/
theorem nop_passes (c : BlockConfig) : Passes c .nop :=
  (decides_none_iff _).2 (List.forall_mem_nil _)

/-- `NOP` always runs, and its Operation leaves the memory it found (R165). -/
theorem exec_nop (s : State) : exec .nop s = .next (s.finish s.dmem) :=
  exec_of_passes .nop s (nop_passes Config.block)

/-- Settles O32: no check can fail, and finishing with the same DMEM is `Ran` (R19, R165). -/
theorem nopRule : Obligations.NopRule := by
  intro s
  exact ⟨rfl, s.finish s.dmem, exec_nop s, s.ran_finish s.dmem rfl, rfl⟩

end Sys2Proof.Machine
end

section
/-! PROOFS. The order of a command's checks (60_exceptions.md R174, R175). -/

namespace Sys2Proof.Machine

/-- A command no check of which fails runs: its Operation never resets the memory, so finishing with it is `Ran`
(R19). -/
theorem ran_of_passes {i : Instr} (s : State) (hpass : Passes Config.block i) : ∃ t, exec i s = .next t ∧ s.Ran t :=
  have hkeeps := operation_keeps Config.block i s.draws s.dmem hpass
  ⟨_, exec_of_passes i s hpass, s.ran_finish _ hkeeps.epoch⟩

/-- Settles O18: an illegal word is rejected before a command exists whose checks could be evaluated; a command's own
checks agree with the table entry for entry, so they fail first where the table does and pass where it does. -/
theorem checksInOrder : Obligations.ChecksInOrder := by
  refine ⟨fun s e hbusy hturn hillegal => ?illegal, fun i s => ⟨rejectsByTable i s, ran_of_passes s⟩⟩
  case illegal =>
    exact ⟨_, step_of_illegal s e hbusy hturn hillegal, s.rejectedAs_reject illegalCommand⟩

end Sys2Proof.Machine
end

section
/-! PROOFS. Decoding and encoding are inverse (30_encoding.md R51 to R53, R56, R58, R59): a row of the opcode table
rebuilds the image it reads, the image of a command selects the row that reads it back, and an assembler line starts
the command its image decodes to. -/

namespace Sys2Proof

/-! ## An image that decodes (R51, R59) -/

/-- What a row reads from any image it selects is a well-formed command whose image that is. -/
def OpcodeRow.Rebuilds (r : OpcodeRow) : Prop :=
  ∀ m : Image, r.selects m.cmd = true →
    (r.build (flagField m.cmd) m.p).wellFormed = true ∧ encodeWith m.p (r.build (flagField m.cmd) m.p) = m

/-- An image is the encoding of a command when its word is the command's and its registers already hold the
operands. -/
theorem encodeWith_eq_of {m : Image} {i : Instr} (hcmd : i.cmdw = m.cmd) (hp : m.p.setAll i.usedRegisters = m.p) :
    encodeWith m.p i = m := by
  rw [encodeWith, hcmd, hp]

theorem rebuilds_plain {name : String} {pattern : Word} {build : Params → Instr}
    (h : ∀ p, (build p).cmdw = pattern ∧ (build p).wellFormed = true ∧ p.setAll (build p).usedRegisters = p) :
    (plainRow name pattern build).Rebuilds := by
  intro m hsel
  obtain ⟨hcmd, hwf, hp⟩ := h m.p
  exact ⟨hwf, encodeWith_eq_of (hcmd.trans ((selects_plain ..).1 hsel).symm) hp⟩

theorem rebuilds_flagged {name : String} {pattern : Word} {build : Bool → Params → Instr}
    (hpattern : pattern &&& 0xFFFFFEFF#32 = pattern)
    (h : ∀ f p, (build f p).cmdw = pattern ||| (if f then 0x100#32 else 0x000#32) ∧
      (build f p).wellFormed = true ∧ p.setAll (build f p).usedRegisters = p) :
    (flaggedRow name pattern build).Rebuilds := by
  intro m hsel
  obtain ⟨hcmd, hwf, hp⟩ := h (flagField m.cmd) m.p
  exact ⟨hwf, encodeWith_eq_of (hcmd.trans ((selects_flagged _ _ _ _ hpattern).1 hsel).symm) hp⟩

/-- Every row rebuilds: an operand read from a register fits it, and writing it back changes nothing. -/
theorem opcodeTable_rebuilds : ∀ r ∈ opcodeTable, r.Rebuilds := by
  simp only [opcodeTable, arithmeticRows, transformRows, filterRows, convolutionRows, List.cons_append,
    List.nil_append, List.forall_mem_cons]
  refine ⟨?nop, ?cadd, ?csub, ?cmul, ?cdiv, ?cconj, ?cscale, ?basis, ?bitrev, ?bfly, ?fft, ?norm, ?flow, ?fhigh,
    ?fbpass, ?fbstop, ?fdir, ?spmul, ?olaclr, ?olasel, ?olaacc, List.forall_mem_nil _⟩
  case basis | fft | fhigh | spmul | olasel | olaacc =>
    refine rebuilds_flagged rfl fun f p => ?_
    cases f <;>
      simp [Instr.cmdw, Instr.opcode, Instr.flag, Instr.wellFormed, Instr.operands, fitsRegister_zext,
        Instr.usedRegisters, Params.setAll]
  all_goals
    refine rebuilds_plain fun p => ⟨rfl, ?_⟩
    simp [Instr.wellFormed, Instr.operands, fitsRegister_zext, Instr.usedRegisters, Params.setAll, factorOf_low,
      factorOf_high]

/-- Settles O2: what decodes was read by the row its word selects, and that row rebuilds the image. -/
theorem decodedImageIsItsEncoding : Obligations.DecodedImageIsItsEncoding := by
  intro m i hdec
  unfold decode at hdec
  cases hrow : rowOf m.cmd with
  | none => simp [hrow] at hdec
  | some r =>
    obtain ⟨hmem, hsel⟩ := rowOf_eq_some hrow
    rw [hrow] at hdec
    obtain rfl := Except.ok.inj hdec
    exact opcodeTable_rebuilds r hmem m (beq_iff_eq.2 hsel)

/-! ## The image of a command (R51, R53, R58) -/

/-- The word of a command selects a row, and that row builds the command from the registers that encoding wrote. -/
theorem exists_row_of_wellFormed {i : Instr} (rest : Params) (hwf : i.wellFormed = true) :
    ∃ r, rowOf i.cmdw = some r ∧ r.build (flagField i.cmdw) (rest.setAll i.usedRegisters) = i := by
  have hread : ∀ n ∈ i.operands, zext (BitVec.ofNat 32 n) = n := fun n hn =>
    zext_ofNat n (List.all_eq_true.1 hwf n hn)
  cases i with
  | basis f | fft f | fhigh f | spmul f | olaacc f | olasel _ _ _ _ _ _ f =>
    cases f
    all_goals
      simp only [Instr.cmdw, Instr.opcode, Instr.flag, Option.isSome]
      refine ⟨_, rfl, ?_⟩
      simpa [flaggedRow, flagField, Instr.operands, Instr.usedRegisters, Params.setAll, Params.set] using hread
  | nop => exact ⟨_, rfl, rfl⟩
  | _ =>
    simp only [Instr.cmdw, Instr.opcode, Instr.flag]
    refine ⟨_, rfl, ?_⟩
    simpa [plainRow, Instr.operands, Instr.usedRegisters, Params.setAll, Params.set, factorOf_split] using hread

/-- Settles O1: decoding takes the row that the command's word selects, whatever the other registers hold. -/
theorem decodeEncodeAgree : Obligations.DecodeEncodeAgree := by
  intro i rest hwf
  obtain ⟨r, hrow, hbuild⟩ := exists_row_of_wellFormed rest hwf
  simp only [decode, encodeWith, hrow, hbuild]

/-- Settles O5: the word of each image selects its row, and the row reads the operands off. -/
theorem wordsWrittenOutDecode : Obligations.WordsWrittenOutDecode := ⟨rfl, rfl, rfl, rfl, rfl, rfl⟩

end Sys2Proof

namespace Sys2Proof.Machine

/-! ## An assembler line (R56) -/

/-- The transactions of a line, as the host issues them: the parameter writes, then the write to `CMD`. -/
theorem assemble_later_append (i : Instr) (rest : List HostAct) :
    (assemble i).map later ++ rest =
      i.usedRegisters.map (fun r => later (.regWrite r.1 r.2)) ++ ⟨.regWrite 0 i.cmdw, false⟩ :: rest := by
  simp [assemble, later, Function.comp_def]

/-- Settles O7: the writes set the parameter registers as encoding does, and the write to `CMD` latches them with the
command word, so the latch is the command's image. -/
theorem assemblerLineStartsItsCommand : Obligations.AssemblerLineStartsItsCommand := by
  intro i s rest hwf hb he hh
  rw [assemble_later_append] at hh
  have hparams := run_writes i.usedRegisters s _ (usedRegisters_range i) hb hh
  have haccept := step_accept_of_idle
    { s with params := s.params.setAll i.usedRegisters, host := ⟨.regWrite 0 i.cmdw, false⟩ :: rest } i.cmdw false
    rest hb he rfl
  have hlen : (assemble i).length = i.usedRegisters.length + 1 := by simp [assemble]
  rw [hlen, run_add _ 1 s _ hparams, run_succ 0 _ _ haccept, run_zero]
  exact ⟨_, rfl, rfl, decodeEncodeAgree i s.params hwf, rfl, rfl, rfl, rfl⟩

end Sys2Proof.Machine
end

section
/-! PROOFS. The block's invariant (10_state.md R13, R17, R21, 20_memory.md R45): what keeps it, said of the block of any
size, and the statements about blocks of every size. -/

namespace Sys2Proof.Machine

/-! ## What keeps the invariant -/

/-- An IDLE block with clear error registers has the invariant as soon as its memory is in order. -/
theorem State.invOn_of_idle {c : BlockConfig} {s : State} (hwf : s.dmem.wf = true)
    (hin : s.dmem.inside c.dmemWords = true) (hb : s.busy = false) (he : s.err = false)
    (hclear : s.errCode = 0#8 ∧ s.errInfo = 0#3 ∧ s.errCmd = 0#32) : s.InvOn c where
  canonical := hwf
  insideDmem := hin
  notBusyInError h := Bool.false_ne_true (hb.symm.trans h.1)
  clearWithoutError _ := hclear
  namedError h := absurd (he.symm.trans h) Bool.false_ne_true
  latchAgrees h := absurd (hb.symm.trans h) Bool.false_ne_true

/-- After a `Reset` the invariant holds, whatever held before (R190). -/
theorem State.invOn_resetBlock (c : BlockConfig) (s : State) : s.resetBlock.InvOn c :=
  State.invOn_of_idle (Memory.forget_wf s.dmem) (Memory.forget_inside _ s.dmem) rfl rfl ⟨rfl, rfl, rfl⟩

section
variable {c : BlockConfig} {s : State} (hinv : s.InvOn c)
include hinv

/-- The host's list and the replies are no part of the block. -/
theorem State.InvOn.withHost (acts : List HostAct) : ({ s with host := acts } : State).InvOn c :=
  { canonical := hinv.canonical, insideDmem := hinv.insideDmem, notBusyInError := hinv.notBusyInError
    clearWithoutError := hinv.clearWithoutError, namedError := hinv.namedError, latchAgrees := hinv.latchAgrees }

theorem State.InvOn.reply (r : Reply) : (s.reply r).InvOn c :=
  { canonical := hinv.canonical, insideDmem := hinv.insideDmem, notBusyInError := hinv.notBusyInError
    clearWithoutError := hinv.clearWithoutError, namedError := hinv.namedError, latchAgrees := hinv.latchAgrees }

theorem State.InvOn.memWrite (a : Nat) (z : CWord) (ha : a < c.dmemWords) :
    ({ s with dmem := s.dmem.write a z } : State).InvOn c :=
  { canonical := Memory.write_wf _ a z hinv.canonical
    insideDmem := Memory.write_inside _ _ a z hinv.insideDmem ha
    notBusyInError := hinv.notBusyInError, clearWithoutError := hinv.clearWithoutError
    namedError := hinv.namedError, latchAgrees := hinv.latchAgrees }

/-- A register write is taken only while `BUSY = 0` (R33): then the operands of no running command are set. -/
theorem State.InvOn.writeRegister (n : Nat) (v : Word) (hb : s.busy = false) : (s.writeRegister n v).InvOn c := by
  rcases writeRegister_cases s n v with hw | ⟨-, he, hw⟩ | ⟨-, -, -, hw⟩ | ⟨-, -, hw⟩ <;> rw [hw]
  case inl => exact hinv
  case inr.inl =>
    exact { canonical := hinv.canonical, insideDmem := hinv.insideDmem
            notBusyInError := fun h => Bool.false_ne_true (he.symm.trans h.2)
            clearWithoutError := hinv.clearWithoutError
            namedError := fun h => absurd (he.symm.trans h) Bool.false_ne_true
            latchAgrees := fun _ => rfl }
  case inr.inr.inl =>
    exact { canonical := hinv.canonical, insideDmem := hinv.insideDmem
            notBusyInError := fun h => Bool.false_ne_true h.2
            clearWithoutError := fun _ => ⟨rfl, rfl, rfl⟩
            namedError := fun h => absurd h Bool.false_ne_true
            latchAgrees := hinv.latchAgrees }
  case inr.inr.inr =>
    exact { canonical := hinv.canonical, insideDmem := hinv.insideDmem, notBusyInError := hinv.notBusyInError
            clearWithoutError := hinv.clearWithoutError, namedError := hinv.namedError
            latchAgrees := fun h => absurd (hb.symm.trans h) Bool.false_ne_true }

/-- A rejection saves an error the block raises and the latched command word (R177). -/
theorem State.InvOn.reject {r : Rejection} (hr : r ∈ raisable) : (s.reject r).InvOn c where
  canonical := hinv.canonical
  insideDmem := hinv.insideDmem
  notBusyInError h := Bool.false_ne_true h.1
  clearWithoutError h := absurd h.symm Bool.false_ne_true
  namedError _ := ⟨⟨r, hr, rfl, rfl⟩, rfl⟩
  latchAgrees h := absurd h Bool.false_ne_true

/-- A command that runs writes a region inside DMEM (R45) and leaves the error state. -/
theorem State.InvOn.finish {m : Memory} {base n : Nat} (hkeeps : Keeps (InRegion base n) s.dmem m)
    (hin : base + n ≤ c.dmemWords) : (s.finish m).InvOn c where
  canonical := hkeeps.wf hinv.canonical
  insideDmem := hkeeps.inside _ (fun _ ha => lt_of_lt_of_le ha.2 hin) hinv.insideDmem
  notBusyInError h := Bool.false_ne_true h.1
  clearWithoutError := hinv.clearWithoutError
  namedError := hinv.namedError
  latchAgrees h := absurd h Bool.false_ne_true

/-- A transaction keeps the invariant; one that can be held is taken only while `BUSY = 0` (R33). -/
theorem State.InvOn.performOn {txn : Transaction} {t : State} (hheld : txn.neverHeld = false → s.busy = false)
    (h : performOn c txn s = .next t) : t.InvOn c := by
  rcases performOn_cases h with ⟨n, v, rfl, -, rfl⟩ | ⟨n, -, -, rfl⟩ | ⟨a, re, im, -, ha, rfl⟩ | ⟨a, -, -, rfl⟩ |
    ⟨-, rfl⟩
  · exact hinv.writeRegister n v (hheld rfl)
  · exact hinv.reply _
  · exact hinv.memWrite a _ ha
  · exact hinv.reply _
  · exact State.invOn_resetBlock c s

/-- Every step of every block keeps its invariant. -/
theorem State.InvOn.stepOn {t : State} (h : stepOn c s = .next t) : t.InvOn c := by
  rcases stepOn_cases h with ⟨txn, s', hturn, hperf⟩ | ⟨-, -, ⟨i, m, -, hpass, rfl, hkeeps⟩ | ⟨r, hr, rfl⟩⟩ |
    ⟨-, -, rfl⟩
  · have hheld : txn.neverHeld = false → s'.busy = false := fun ht =>
      (busy_of_hostTurn hturn).trans (not_busy_of_hostTurn hturn ht)
    obtain ⟨_, rest, -, rfl, -⟩ := (hostTurn_eq_some_iff s s' txn).1 hturn
    exact (hinv.withHost rest).performOn hheld hperf
  · exact hinv.finish hkeeps hpass.inside
  · exact hinv.reject hr
  · exact hinv

end

/-! ## Blocks of every size (R16, R25, R36) -/

/-- What is refused on the bus is what fails the bound (R36). -/
theorem refused_iff_of_ite {p : Prop} [Decidable p] {s : State} {r : Refusal} :
    (if p then .next s else .refused r : Outcome) = .refused r ↔ ¬ p := by
  split <;> simp [*]

/-- The host reaches exactly the words of the block's size. -/
theorem performOn_memory_refused_iff (c : BlockConfig) (s : State) (a : Nat) (re im : F64) :
    (performOn c (.memWrite a re im) s = .refused (.noSuchAddress a) ↔ c.dmemWords ≤ a) ∧
    (performOn c (.memRead a) s = .refused (.noSuchAddress a) ↔ c.dmemWords ≤ a) :=
  ⟨refused_iff_of_ite.trans Nat.not_lt, refused_iff_of_ite.trans Nat.not_lt⟩

/-- Settles O25: the invariant of the block of any size, at this block's. -/
theorem stepKeepsTheInvariant : Obligations.StepKeepsTheInvariant := fun s _ hinv hstep =>
  hinv.stepOn ((step_eq_stepOn s).symm.trans hstep)

/-- Settles O26: no word is written, no error pending and no command latched. -/
theorem resetHasTheInvariant : Obligations.ResetHasTheInvariant :=
  State.invOn_of_idle rfl rfl rfl rfl ⟨rfl, rfl, rfl⟩

/-- Settles O24: what is proved of `execOn` and `stepOn` holds of every configuration, and this block is one. -/
theorem everyInstanceKeepsToItsSize : Obligations.EveryInstanceKeepsToItsSize := by
  refine ⟨exec_eq_execOn, step_eq_stepOn, fun c => ?_⟩
  obtain ⟨hlow, hhigh⟩ := dmemWords_bounds c
  refine ⟨hlow, hhigh, fun i s r hr => ?_, fun i s hpass => ?_, performOn_memory_refused_iff c,
    fun s t hinv hstep => hinv.stepOn hstep⟩
  · exact ⟨_, execOn_of_decides_some c i s r hr, s.rejectedAs_reject r⟩
  · have hkeeps := operation_keeps c i s.draws s.dmem hpass
    exact ⟨_, execOn_of_passes c i s hpass, s.ran_finish _ hkeeps.epoch⟩

end Sys2Proof.Machine
end

section
/-! PROOFS. Reset, hazards and liveness (70_reset_and_hazards.md; 10_state.md R19, R20; 60_exceptions.md R180, R181):
what a step is by whose turn it is, what a running command and a pending error are safe from, and that every command
completes. -/

namespace Sys2Proof.Machine

/-! ## Whose turn it is while BUSY (R33) -/

/-- The transactions that are never held are the register reads and `Reset`. -/
theorem Transaction.neverHeld_iff (t : Transaction) : t.neverHeld = true ↔ (∃ n, t = .regRead n) ∨ t = .reset := by
  cases t <;> simp [Transaction.neverHeld]

/-- While BUSY the core moves exactly when the host's next transaction, if it has one, is late or held. -/
theorem hostTurn_eq_none_iff_of_busy {s : State} (hb : s.busy = true) : s.hostTurn = none ↔
    ∀ act rest, s.host = act :: rest → act.early = true → act.txn.neverHeld = false := by
  unfold State.hostTurn
  cases s.host with
  | nil => simp
  | cons act rest => simp [hb]

/-- While BUSY the host's turn is a register read or a `Reset`. -/
theorem hostTurn_cases_of_busy {s s' : State} {t : Transaction} (hb : s.busy = true)
    (h : s.hostTurn = some (t, s')) : (∃ n, t = .regRead n) ∨ t = .reset := by
  obtain ⟨_, _, -, -, hheld⟩ := (hostTurn_eq_some_iff s s' t).1 h
  exact (Transaction.neverHeld_iff t).1 (hheld hb).2

/-- While BUSY a step is a register read, a `Reset`, or the completion. -/
theorem step_cases_of_busy {s t : State} (hb : s.busy = true) (h : step s = .next t) :
    (∃ n s', s.hostTurn = some (.regRead n, s') ∧ t = s'.reply (.register (s'.register n))) ∨
    (∃ s', s.hostTurn = some (.reset, s') ∧ t = s'.resetBlock) ∨ s.hostTurn = none := by
  rcases step_cases h with ⟨txn, s', hturn, hperf⟩ | ⟨hturn, -⟩ | ⟨hturn, -⟩
  · rcases hostTurn_cases_of_busy hb hturn with ⟨n, rfl⟩ | rfl
    · exact .inl ⟨n, s', hturn, (next_of_ite hperf).2⟩
    · exact .inr (.inl ⟨s', hturn, (Host.Outcome.next.inj hperf).symm⟩)
  · exact .inr (.inr hturn)
  · exact .inr (.inr hturn)

/-! ## Liveness (R198) -/

/-- The completion clears `BUSY` and leaves the host's list. -/
theorem step_completes {s : State} (hb : s.busy = true) (hturn : s.hostTurn = none) :
    ∃ t, step s = .next t ∧ t.busy = false ∧ t.host = s.host := by
  obtain ⟨t, ht, htb, hth, -⟩ := coreStep_next s
  exact ⟨t, (step_of_core s hturn hb).trans ht, htb, hth⟩

/-- `BUSY` is cleared within `n` steps from `s`. -/
def State.ClearsWithin (s : State) (n : Nat) : Prop :=
  ∃ k t, k ≤ n ∧ Host.Core.run Sys2Proof.core k s = .next t ∧ t.busy = false

theorem State.clearsWithin_of_step {s t : State} (n : Nat) (h : step s = .next t) (hb : t.busy = false) :
    s.ClearsWithin (n + 1) :=
  ⟨1, t, Nat.succ_le_succ (Nat.zero_le n), (run_succ 0 s t h).trans (run_zero t), hb⟩

theorem State.ClearsWithin.succ {s s' : State} {n : Nat} (h : step s = .next s') (hclears : s'.ClearsWithin n) :
    s.ClearsWithin (n + 1) := by
  obtain ⟨k, t, hk, hrun, hb⟩ := hclears
  exact ⟨k + 1, t, Nat.succ_le_succ hk, (run_succ k s s' h).trans hrun, hb⟩

/-- A host that names existing registers in its reads delays the completion by one step for each read at most. -/
theorem State.clearsWithin_host (acts : List HostAct) (s : State) (hh : s.host = acts) (hb : s.busy = true)
    (hreads : ∀ act ∈ acts, ∀ n, act.txn = .regRead n → n ≤ 15) : s.ClearsWithin (acts.length + 1) := by
  induction acts generalizing s with
  | nil =>
    obtain ⟨t, ht, htb, -⟩ := step_completes hb (hostTurn_nil s hh)
    exact State.clearsWithin_of_step _ ht htb
  | cons act rest ih =>
    cases hturn : s.hostTurn with
    | none =>
      obtain ⟨t, ht, htb, -⟩ := step_completes hb hturn
      exact State.clearsWithin_of_step _ ht htb
    | some turn =>
      obtain ⟨txn, s'⟩ := turn
      have hstep := step_of_hostTurn s s' txn hturn
      obtain ⟨_, _, hh', rfl, -⟩ := (hostTurn_eq_some_iff s s' txn).1 hturn
      obtain ⟨rfl, rfl⟩ := List.cons.inj (hh.symm.trans hh')
      rcases hostTurn_cases_of_busy hb hturn with ⟨n, rfl⟩ | rfl
      · rw [perform_regRead n _ (hreads _ (List.mem_cons_self ..) n rfl)] at hstep
        exact .succ hstep (ih _ rfl hb fun a ha => hreads a (List.mem_cons_of_mem _ ha))
      · exact State.clearsWithin_of_step _ hstep rfl

/-- Settles O19: the completion always has a next state, a register read leaves `BUSY`, and each step before the
completion takes one transaction from the host's list. -/
theorem everyCommandCompletes : Obligations.EveryCommandCompletes := by
  refine ⟨fun s hb hturn => step_completes hb hturn, fun s t hb hstep htb => ?_,
    fun s hb hreads => s.clearsWithin_host s.host rfl hb hreads⟩
  rcases step_cases_of_busy hb hstep with ⟨n, s', hturn, rfl⟩ | ⟨s', hturn, -⟩ | hturn
  · have hidle : s.busy = false := (busy_of_hostTurn hturn).symm.trans htb
    exact absurd (hidle.symm.trans hb) Bool.false_ne_true
  · exact .inr ⟨s', hturn⟩
  · exact .inl hturn

/-! ## What a step is, by whose turn it is -/

/-- Settles O16: `step` is by definition the host's turn, else the core's while BUSY, else nothing. -/
theorem stepRunsTheLatchedCommand : Obligations.StepRunsTheLatchedCommand := by
  refine ⟨fun s i hb hturn hdec => ?core, fun s hb => ?turn,
    fun s act rest hh => ⟨fun hb => ?idle, fun hb he ht => ?early⟩,
    fun s hb hh => step_of_wait s (hostTurn_nil s hh) hb⟩
  case core => exact (step_of_core s hturn hb).trans (coreStep_of_decode s i hdec)
  case turn =>
    simp only [hostTurn_eq_none_iff_of_busy hb, ← Bool.not_eq_true, Transaction.neverHeld_iff, not_or, not_exists]
  case idle => exact step_idle s act.txn act.early rest hb hh
  case early =>
    obtain ⟨txn, early⟩ := act
    obtain rfl : early = true := he
    exact step_neverHeld s txn rest ((Transaction.neverHeld_iff txn).2 ht) hh

/-- Settles O17: `exec` finishes with a memory of the same epoch, or rejects with an entry of the table (R175), and the
errors of the table are those the block raises. -/
theorem commandsRunOrAreRejected : Obligations.CommandsRunOrAreRejected := by
  intro i s
  rcases exec_cases i s with ⟨-, m, hexec, hkeeps⟩ | ⟨r, hr, hexec⟩
  · exact ⟨_, hexec, .inl (s.ran_finish m hkeeps.epoch)⟩
  · exact ⟨_, hexec, .inr ⟨r, raisable_of_decides _ i r hr, s.rejectedAs_reject r⟩⟩

/-! ## What is safe from what -/

/-- Settles O21: while BUSY the host's turn is a register read, which adds a reply. -/
theorem nothingChangesUnderACommand : Obligations.NothingChangesUnderACommand := by
  intro s t hb hstep hhost hnoReset
  rcases step_cases_of_busy hb hstep with ⟨n, s', hturn, rfl⟩ | ⟨s', hturn, -⟩ | hturn
  · obtain ⟨_, _, -, rfl, -⟩ := (hostTurn_eq_some_iff s s' _).1 hturn
    rfl
  · exact absurd hturn (hnoReset s')
  · exact absurd hturn hhost

/-- A transaction that changes a parameter register is a write to it or `Reset`. -/
theorem perform_params_cases {txn : Transaction} {s t : State} (h : perform txn s = .next t)
    (hne : t.params ≠ s.params) :
    (∃ n v, 1 ≤ n ∧ n ≤ 7 ∧ txn = .regWrite n v ∧ t.params = s.params.set n v) ∨
    (txn = .reset ∧ t.params = .zero) := by
  rcases perform_cases h with ⟨n, v, rfl, -, rfl⟩ | ⟨_, -, -, rfl⟩ | ⟨_, _, _, -, -, rfl⟩ | ⟨_, -, -, rfl⟩ | ⟨rfl, rfl⟩
  · rcases writeRegister_cases s n v with hw | ⟨-, -, hw⟩ | ⟨-, -, -, hw⟩ | ⟨h1, h7, hw⟩ <;> rw [hw] at hne ⊢
    · exact absurd rfl hne
    · exact absurd rfl hne
    · exact absurd rfl hne
    · exact .inl ⟨n, v, h1, h7, rfl, rfl⟩
  · exact absurd rfl hne
  · exact absurd rfl hne
  · exact absurd rfl hne
  · exact .inr ⟨rfl, rfl⟩

/-- Settles O22: neither end of a command touches `P1..P7`, so the step is a transaction, and of those only a write to
one of them and `Reset` do. -/
theorem parametersChangeOnlyByTheHost : Obligations.ParametersChangeOnlyByTheHost := by
  intro s t hstep hne
  rcases step_cases hstep with ⟨txn, s', hturn, hperf⟩ | ⟨-, -, ⟨_, _, -, -, rfl, -⟩ | ⟨_, -, rfl⟩⟩ | ⟨-, -, rfl⟩
  · have hparams : s'.params = s.params := by
      obtain ⟨_, _, -, rfl, -⟩ := (hostTurn_eq_some_iff s s' txn).1 hturn
      rfl
    rw [← hparams] at hne ⊢
    rcases perform_params_cases hperf hne with ⟨n, v, h1, h7, rfl, ht⟩ | ⟨rfl, ht⟩
    · exact .inl ⟨n, v, s', h1, h7, hturn, ht⟩
    · exact .inr ⟨s', hturn, ht⟩
  · exact absurd rfl hne
  · exact absurd rfl hne
  · exact absurd rfl hne

/-- In ERROR a transaction is `CTRL.CLRERR`, a `Reset`, or leaves the error and `BUSY` as they are (R180, R181). -/
theorem perform_error_cases {txn : Transaction} {s t : State} (he : s.err = true) (h : perform txn s = .next t) :
    (∃ v, txn = .regWrite 12 v ∧ v.getLsbD 0 = true) ∨ txn = .reset ∨
    (t.err = s.err ∧ t.errCode = s.errCode ∧ t.errInfo = s.errInfo ∧ t.errCmd = s.errCmd ∧ t.busy = s.busy) := by
  rcases perform_cases h with ⟨n, v, rfl, -, rfl⟩ | ⟨_, -, -, rfl⟩ | ⟨_, _, _, -, -, rfl⟩ | ⟨_, -, -, rfl⟩ | ⟨rfl, -⟩
  · rcases writeRegister_cases s n v with hw | ⟨-, hne, -⟩ | ⟨rfl, hv, -⟩ | ⟨-, -, hw⟩
    · exact .inr (.inr (by rw [hw]; exact ⟨rfl, rfl, rfl, rfl, rfl⟩))
    · exact absurd (hne.symm.trans he) Bool.false_ne_true
    · exact .inl ⟨v, rfl, hv⟩
    · exact .inr (.inr (by rw [hw]; exact ⟨rfl, rfl, rfl, rfl, rfl⟩))
  · exact .inr (.inr ⟨rfl, rfl, rfl, rfl, rfl⟩)
  · exact .inr (.inr ⟨rfl, rfl, rfl, rfl, rfl⟩)
  · exact .inr (.inr ⟨rfl, rfl, rfl, rfl, rfl⟩)
  · exact .inr (.inl rfl)

/-- A register write that is the host's turn is the step. -/
theorem eq_writeRegister_of_hostTurn {s s' t : State} {n : Nat} {v : Word} (hstep : step s = .next t)
    (hturn : s.hostTurn = some (.regWrite n v, s')) : t = s'.writeRegister n v :=
  (next_of_ite ((step_of_hostTurn s s' _ hturn).symm.trans hstep)).2

/-- Settles O23: in ERROR a write to `CMD` is discarded, `CTRL.CLRERR` clears the error, and of what else can happen
only `Reset` touches it. -/
theorem pendingErrorPersists : Obligations.PendingErrorPersists := by
  intro s t hb he hstep
  refine ⟨fun v s' hturn => ?discarded, fun hnoClear hnoReset => ?kept, fun v s' hturn hv => ?cleared⟩
  case discarded =>
    obtain ⟨_, _, -, rfl, -⟩ := (hostTurn_eq_some_iff s s' _).1 hturn
    exact (eq_writeRegister_of_hostTurn hstep hturn).trans (State.accept_of_err _ v he)
  case kept =>
    rcases step_cases hstep with ⟨txn, s', hturn, hperf⟩ | ⟨-, hbusy, -⟩ | ⟨-, -, rfl⟩
    · obtain ⟨_, rest, -, rfl, -⟩ := (hostTurn_eq_some_iff s s' txn).1 hturn
      rcases perform_error_cases (s := { s with host := rest }) he hperf with ⟨v, rfl, hv⟩ | rfl |
        ⟨herr, hcode, hinfo, hcmd, hbusy⟩
      · exact absurd ((hnoClear v _ hturn).symm.trans hv) Bool.false_ne_true
      · exact absurd hturn (hnoReset _)
      · exact ⟨herr.trans he, hcode, hinfo, hcmd, hbusy.trans hb⟩
    · exact absurd (hb.symm.trans hbusy) Bool.false_ne_true
    · exact ⟨he, rfl, rfl, rfl, hb⟩
  case cleared =>
    have ht := eq_writeRegister_of_hostTurn hstep hturn
    obtain ⟨_, rest, -, rfl, -⟩ := (hostTurn_eq_some_iff s s' _).1 hturn
    rw [State.writeRegister_control, if_pos hv, State.clearError_of_err { s with host := rest } he] at ht
    subst ht
    exact ⟨State.condition_of_no_err hb rfl, rfl, rfl, rfl⟩

/-! ## Reset (R24, R190, R200) -/

/-- Settles O14: a `Reset` issued early is the host's turn in any condition. -/
theorem resetTransaction : Obligations.ResetTransaction := by
  intro s rest hh
  refine ⟨_, (step_neverHeld s .reset rest rfl hh).trans (perform_reset _), rfl, rfl, rfl, rfl, rfl, rfl, rfl, rfl, ?_⟩
  exact Memory.read_forget Config.block s.dmem

/-- Settles O15: no register has been written since power-on, nor any word of DMEM. -/
theorem resetState : Obligations.ResetState :=
  ⟨rfl, by decide, rfl, fun _ => rfl⟩

end Sys2Proof.Machine
end

section
/-! PROOFS. Binary64 and complex multiplication (40_complex_arithmetic.md R70, R71, R74; 44_convolution_multiplier.md
R141): a finite result is a sign and a rounded magnitude, which is the exact value rounded once; the special results are
read off the cases of each operation. -/

namespace Sys2Proof.Machine

/-! ## Exact results by sign and magnitude (R70) -/

theorem signedUnits_add_same {x y : F64} (hs : signBit x = signBit y) : signedUnits x + signedUnits y =
    if signBit x then -((units x + units y : Nat) : Int) else ((units x + units y : Nat) : Int) := by
  unfold signedUnits
  rw [← hs]
  split <;> omega

/-- Of two values of opposite signs, the one of the larger magnitude gives the sum its sign. -/
theorem signedUnits_add_opposite {x y : F64} (hs : signBit x ≠ signBit y) (hle : units y ≤ units x) :
    signedUnits x + signedUnits y =
      if signBit x then -((units x - units y : Nat) : Int) else ((units x - units y : Nat) : Int) := by
  have hy : signBit y = !signBit x := Bool.eq_not.2 hs.symm
  unfold signedUnits
  rw [hy]
  cases signBit x <;> simp only [Bool.not_true, Bool.not_false, Bool.false_eq_true, if_true, if_false] <;> omega

/-- A product has the XOR of the signs, with any factor of the magnitude. -/
theorem signedUnits_mul_sign (x y : F64) (d : Nat) : (if signBit y then -1 else 1) * signedUnits x * (d : Int) =
    if signBit x != signBit y then -((units x * d : Nat) : Int) else ((units x * d : Nat) : Int) := by
  unfold signedUnits
  cases signBit x <;> cases signBit y <;> simp

theorem signedUnits_mul (x y : F64) : signedUnits x * signedUnits y =
    if signBit x != signBit y then -((units x * units y : Nat) : Int) else ((units x * units y : Nat) : Int) := by
  rw [← signedUnits_mul_sign]
  unfold signedUnits
  cases signBit x <;> cases signBit y <;> simp

/-! ## Finite results are rounded once (R70) -/

/-- Zero rounds to `+0.0`. -/
theorem roundedOnce_zero : RoundedOnce 0 1 (pack false 0) := by
  have h := roundedOnce_pack false 0 1 Nat.one_pos
  rwa [roundUnits_zero] at h

theorem roundedOnce_addFinite (x y : F64) : RoundedOnce (signedUnits x + signedUnits y) 1 (addFinite x y) := by
  unfold addFinite
  split_ifs with hs heq hlt
  · rw [signedUnits_add_same hs]
    exact roundedOnce_pack _ _ 1 Nat.one_pos
  · rw [signedUnits_add_opposite hs heq.ge, heq, Nat.sub_self]
    simpa using roundedOnce_zero
  · rw [signedUnits_add_opposite hs hlt.le]
    exact roundedOnce_pack _ _ 1 Nat.one_pos
  · rw [add_comm, signedUnits_add_opposite (Ne.symm hs) (Nat.not_lt.1 hlt)]
    exact roundedOnce_pack _ _ 1 Nat.one_pos

theorem fdiv_finite (u : Fpu) (x y : F64) (hx : isFinite x = true) (hy : isFinite y = true) (hz : isZero y = false) :
    fdiv u x y = pack (signBit x != signBit y) (roundUnits (units x * unitsPerOne) (units y)) := by
  simp [fdiv, isNaN_of_isFinite hx, isNaN_of_isFinite hy, isInfinite_of_isFinite hx, isInfinite_of_isFinite hy, hz]

/-- Settles O27: a sum of finite values is `addFinite`, and a difference is the sum with the negation. -/
theorem sumIsRoundedOnce : Obligations.SumIsRoundedOnce := by
  intro u x y hx hy
  refine ⟨?sum, ?difference⟩
  case sum =>
    rw [fadd_finite u x y hx hy]
    exact roundedOnce_addFinite x y
  case difference =>
    rw [fsub_eq_fadd u x y (isNaN_of_isFinite hy), fadd_finite u x _ hx ((isFinite_fneg y).trans hy), sub_eq_add_neg,
      ← signedUnits_fneg]
    exact roundedOnce_addFinite x (fneg y)

/-- Settles O28: the magnitude of the product is a ratio of naturals, rounded with the XOR of the signs. -/
theorem productIsRoundedOnce : Obligations.ProductIsRoundedOnce := by
  intro u x y hx hy
  rw [fmul_finite u x y hx hy, signedUnits_mul]
  exact roundedOnce_pack _ _ _ unitsPerOne_pos

/-- Settles O29: the magnitude of the quotient is a ratio of naturals too, its denominator nonzero with the divisor. -/
theorem quotientIsRoundedOnce : Obligations.QuotientIsRoundedOnce := by
  intro u x y hx hy hz
  have hpos : 0 < units y := Nat.pos_of_ne_zero fun h0 =>
    absurd (hz.symm.trans ((units_eq_zero_iff y).1 h0)) Bool.false_ne_true
  rw [fdiv_finite u x y hx hy hz, signedUnits_mul_sign]
  exact roundedOnce_pack _ _ _ hpos

/-! ## Special results (R70's table, R71; log 15) -/

theorem isInfinite_pack_infinity (neg : Bool) : isInfinite (pack neg infinityField) = true := by
  rw [isInfinite_pack]
  exact decide_eq_true le_rfl

theorem isZero_pack_zero (neg : Bool) : isZero (pack neg 0) = true := by
  simp [isZero, exponentField_pack, fractionField_pack]

/-- A zero or an infinity is no NaN. -/
theorem isNaN_of_isZero_or_isInfinite {x : F64} (h : isZero x = true ∨ isInfinite x = true) : isNaN x = false :=
  h.elim (fun hz => isNaN_of_isFinite (isZero_isFinite hz)) isInfinite_not_isNaN

theorem isNaN_fadd_of_nan (u : Fpu) {x y : F64} (h : isNaN x = true ∨ isNaN y = true) :
    isNaN (fadd u x y) = true := by
  rw [fadd_nan u x y (Bool.or_eq_true _ _ ▸ h)]
  exact isNaN_nanResult ..

theorem isNaN_fmul_of_nan (u : Fpu) {x y : F64} (h : isNaN x = true ∨ isNaN y = true) :
    isNaN (fmul u x y) = true := by
  rw [fmul_nan u x y (Bool.or_eq_true _ _ ▸ h)]
  exact isNaN_nanResult ..

theorem isNaN_fdiv_of_nan (u : Fpu) {x y : F64} (h : isNaN x = true ∨ isNaN y = true) :
    isNaN (fdiv u x y) = true := by
  rw [fdiv_nan u x y (Bool.or_eq_true _ _ ▸ h)]
  exact isNaN_nanResult ..

/-- A NaN subtrahend gives a NaN at once, a NaN minuend through the sum. -/
theorem isNaN_fsub_of_nan (u : Fpu) {x y : F64} (h : isNaN x = true ∨ isNaN y = true) :
    isNaN (fsub u x y) = true := by
  unfold fsub
  split
  case isTrue => exact isNaN_nanResult ..
  case isFalse hy => exact isNaN_fadd_of_nan u (.inl (h.resolve_right hy))

/-- A product that is no NaN has the XOR of the signs. -/
theorem signBit_fmul (u : Fpu) {x y : F64} (h : isNaN (fmul u x y) = false) :
    signBit (fmul u x y) = (signBit x != signBit y) := by
  rcases fmul_cases u x y with hnan | ⟨m, hm⟩
  · exact absurd (h.symm.trans hnan) Bool.false_ne_true
  · rw [hm, signBit_pack]

/-- A quotient that is no NaN has the XOR of the signs. -/
theorem signBit_fdiv (u : Fpu) {x y : F64} (h : isNaN (fdiv u x y) = false) :
    signBit (fdiv u x y) = (signBit x != signBit y) := by
  rcases fdiv_cases u x y with hnan | ⟨m, hm⟩
  · exact absurd (h.symm.trans hnan) Bool.false_ne_true
  · rw [hm, signBit_pack]

/-- Settles O30, row by row of the table. -/
theorem specialResults : Obligations.SpecialResults := by
  intro u x y
  refine ⟨fun h => ⟨isNaN_fadd_of_nan u h, isNaN_fsub_of_nan u h, isNaN_fmul_of_nan u h, isNaN_fdiv_of_nan u h⟩,
    fun _ hy => ⟨fsub_eq_fadd u x y hy, fadd_infinities u x y, ?zeroTimesInfinity, ?zeroByZero, ?infinityByInfinity,
      ?infinityAndFinite, fadd_infinities_same u x y, ?infinityTimes, ?byZero, ?productSign, ?quotientSign,
      ?opposite⟩, ?signedZeros⟩
  case zeroTimesInfinity =>
    exact fun hzero hinf => ⟨fmul_invalid u x y (by simp [hzero, hinf]), fmul_invalid u y x (by simp [hzero, hinf])⟩
  case zeroByZero => exact fun hx0 hy0 => fdiv_invalid u x y (by simp [hx0, hy0])
  case infinityByInfinity => exact fun hxi hyi => fdiv_invalid u x y (by simp [hxi, hyi])
  case infinityAndFinite =>
    intro hinf hfin
    obtain ⟨hsum, hsum'⟩ := fadd_infinite_finite u x y hinf hfin
    obtain ⟨hquot, hquot'⟩ := fdiv_infinite_finite u x y hinf hfin
    exact ⟨hsum, hsum', hquot ▸ isInfinite_pack_infinity _, hquot' ▸ isZero_pack_zero _⟩
  case infinityTimes =>
    intro hinf hnonzero
    obtain ⟨hmul, hmul'⟩ := fmul_infinite u x y hinf hy hnonzero
    exact ⟨hmul ▸ isInfinite_pack_infinity _, hmul' ▸ isInfinite_pack_infinity _⟩
  case byZero =>
    intro hfin hnonzero hzero
    rw [fdiv_by_zero u x y hfin hnonzero hzero]
    exact ⟨isInfinite_pack_infinity _, signBit_pack _ _⟩
  case productSign => exact fun h => signBit_fmul u (isNaN_of_isZero_or_isInfinite h)
  case quotientSign => exact fun h => signBit_fdiv u (isNaN_of_isZero_or_isInfinite h)
  case opposite =>
    rintro hfin rfl -
    exact fadd_opposite u x (fneg x) hfin ((isFinite_fneg x).trans hfin) (by simp [signBit_fneg]) (units_fneg x).symm
  case signedZeros =>
    refine ⟨fadd_opposite u _ _ rfl rfl (by decide) rfl, ?_⟩
    rw [fadd_finite u _ _ rfl rfl]
    decide

/-! ## Complex products (R74, R141) -/

/-- Unless it is a NaN, a product does not depend on the order of its operands: every case of the table is symmetric. -/
theorem fmul_comm_of_not_nan (u : Fpu) {x y : F64} (h : isNaN (fmul u x y) = false) : fmul u x y = fmul u y x := by
  have hnan : ¬ (isNaN x || isNaN y) = true := fun hc =>
    absurd (h.symm.trans (isNaN_fmul_of_nan u (Bool.or_eq_true _ _ ▸ hc))) Bool.false_ne_true
  have hvalid : ¬ (isInfinite x && isZero y || isZero x && isInfinite y) = true := fun hc =>
    absurd (h.symm.trans (fmul_invalid u x y hc)) Bool.false_ne_true
  have hnan' : ¬ (isNaN y || isNaN x) = true := by rwa [Bool.or_comm]
  have hvalid' : ¬ (isInfinite y && isZero x || isZero y && isInfinite x) = true := by
    rwa [Bool.or_comm, Bool.and_comm (isZero y), Bool.and_comm (isInfinite y)]
  unfold fmul
  dsimp only
  rw [if_neg hnan, if_neg hvalid, if_neg hnan', if_neg hvalid', bne_comm, Bool.or_comm, Nat.mul_comm]

theorem addFinite_comm (x y : F64) : addFinite x y = addFinite y x := by
  unfold addFinite
  by_cases hs : signBit x = signBit y
  · rw [if_pos hs, if_pos hs.symm, hs, Nat.add_comm]
  · rw [if_neg hs, if_neg (Ne.symm hs)]
    rcases Nat.lt_trichotomy (units x) (units y) with hlt | heq | hgt
    · rw [if_neg hlt.ne, if_neg hlt.le.not_gt, if_neg hlt.ne', if_pos hlt]
    · rw [if_pos heq, if_pos heq.symm]
    · rw [if_neg hgt.ne', if_pos hgt, if_neg hgt.ne, if_neg hgt.le.not_gt]

/-- An infinity is known by its sign. -/
theorem eq_of_isInfinite {x y : F64} (hx : isInfinite x = true) (hy : isInfinite y = true)
    (hs : signBit x = signBit y) : x = y := by
  simp only [isInfinite, Bool.and_eq_true, beq_iff_eq] at hx hy
  exact eq_of_fields hs (hx.1.trans hy.1.symm) (hx.2.trans hy.2.symm)

/-- Unless it is a NaN, a sum does not depend on the order of its operands. -/
theorem fadd_comm_of_not_nan (u : Fpu) {x y : F64} (h : isNaN (fadd u x y) = false) : fadd u x y = fadd u y x := by
  have hexcluded : isNaN x = true ∨ isNaN y = true → fadd u x y = fadd u y x := fun hnan =>
    absurd (h.symm.trans (isNaN_fadd_of_nan u hnan)) Bool.false_ne_true
  rcases class_cases x with hx | hx | hx
  · rcases class_cases y with hy | hy | hy
    · rw [fadd_finite u x y hx hy, fadd_finite u y x hy hx, addFinite_comm]
    · obtain ⟨hyx, hxy⟩ := fadd_infinite_finite u y x hy hx
      rw [hxy, hyx]
    · exact hexcluded (.inr hy)
  · rcases class_cases y with hy | hy | hy
    · obtain ⟨hxy, hyx⟩ := fadd_infinite_finite u x y hx hy
      rw [hxy, hyx]
    · have hs : signBit x = signBit y := by
        by_contra hne
        exact absurd (h.symm.trans (fadd_infinities u x y hx hy hne)) Bool.false_ne_true
      rw [eq_of_isInfinite hx hy hs]
    · exact hexcluded (.inr hy)
  · exact hexcluded (.inl hx)

/-- Settles O31: the four products and the sum of the imaginary part commute; the difference of the real part stays. -/
theorem multiplicationCommutes : Obligations.MultiplicationCommutes := by
  intro u x y hre him hcross hcross' _ hsum
  have hswap := fadd_comm_of_not_nan u hsum
  rw [fmul_comm_of_not_nan u hcross, fmul_comm_of_not_nan u hcross'] at hswap
  rw [cmul, cmul, fmul_comm_of_not_nan u hre, fmul_comm_of_not_nan u him, fmul_comm_of_not_nan u hcross,
    fmul_comm_of_not_nan u hcross', hswap]

theorem fneg_pack (neg : Bool) (m : Nat) : fneg (pack neg m) = pack (!neg) m :=
  eq_of_fields (by rw [signBit_fneg, signBit_pack, signBit_pack])
    (by rw [exponentField_fneg, exponentField_pack, exponentField_pack])
    (by rw [fractionField_fneg, fractionField_pack, fractionField_pack])

/-- A product of finite values takes the sign of a negated factor. -/
theorem fmul_fneg (u : Fpu) {x y : F64} (hx : isFinite x = true) (hy : isFinite y = true) :
    fmul u x (fneg y) = fneg (fmul u x y) := by
  rw [fmul_finite u x _ hx ((isFinite_fneg y).trans hy), fmul_finite u x y hx hy, fneg_pack, units_fneg, signBit_fneg,
    Bool.bne_not]

/-- Settles O53: the two mixed products are opposite, and opposite finite values add to `+0.0`. -/
theorem powerSpectrumIsReal : Obligations.PowerSpectrumIsReal := by
  intro u z hre him hmixed
  change fadd u (fmul u z.re (fneg z.im)) (fmul u z.im z.re) = 0#64
  rw [fmul_fneg u hre him, ← fmul_comm_of_not_nan u (isNaN_of_isFinite hmixed)]
  exact fadd_opposite u _ _ ((isFinite_fneg _).trans hmixed) hmixed (by simp [signBit_fneg]) (units_fneg _)

end Sys2Proof.Machine
end

section
/-! PROOFS. Bit reversal (00_scope.md R3, 42_fft.md R101): the properties of `rev_n` and the net effect of `BITREV`. -/

namespace Sys2Proof.Machine

/-- Settles O40: `rev_n` moves each of the `n` bits to its mirror place, and a bit moved twice is back. -/
theorem reversalOfBits : Obligations.ReversalOfBits := fun n i hi =>
  ⟨rev_lt n i, rev_testBit n i, rev_rev n i hi⟩

/-- A power-of-two region inside DMEM is all that `BITREV` asks. -/
theorem bitrev_passes {c : BlockConfig} {data n : Nat} (hdata : data + 2 ^ n ≤ c.dmemWords) :
    Passes c (.bitrev data (2 ^ n)) := norm_passes hdata

/-- Settles O41: the swap loop leaves at each index what stood at the reversed one. -/
theorem bitrevRule : Obligations.BitrevRule := by
  intro s data len
  refine ⟨rfl, rejectsByTable _ s, ?_⟩
  rintro n rfl hdata
  obtain ⟨hkeeps, hreversed⟩ := bitReverse_spec Config.block data n s.dmem
  exact runsTo_of_region (bitrev_passes hdata) hkeeps hreversed

end Sys2Proof.Machine
end

section
/-! PROOFS. The band filters and their symmetry (43_filter_mask.md R127, R128, R132): `FBSTOP`, what the four symmetric
filters have in common, and why on even grids the two band filters are complements. -/

namespace Sys2Proof.Machine

/-! ## `FBSTOP` (R128) -/

/-- Settles O48: the common operation with the positions reached inside the annulus. -/
theorem fbstopRule : Obligations.FbstopRule := fun s _ _ h w t1 t2 =>
  ⟨rfl, rejectsByTable _ s, fun hdim hsrc hdst hplace =>
    runsTo_of_filterGrid_noneExempt (gridFailures_decide_none hdim hsrc hdst hplace) rfl (mem_stopZero h w t1 t2)⟩

/-! ## Symmetry (R132) -/

/-- On a grid that is not empty the checks exclude a dimension of 1, so the reference origin lies in the grid. -/
theorem mid_lt_of_passes {words src dst h w : Nat} (hne : h * w ≠ 0)
    (hpass : Decides (gridFailures h w ++ gridRangeFailures words src dst h w ++ gridOverlapFailures src dst h w)
      none) : (h + 1) / 2 < h ∧ (w + 1) / 2 < w := by
  rw [decides_none_iff] at hpass
  have h1 : h ≠ 1 := fun h1 => hpass (h * w ≠ 0 ∧ h = 1, ⟨.badOperand, 3⟩) (by simp [gridFailures]) ⟨hne, h1⟩
  have w1 : w ≠ 1 := fun w1 => hpass (h * w ≠ 0 ∧ w = 1, ⟨.badOperand, 4⟩) (by simp [gridFailures]) ⟨hne, w1⟩
  obtain ⟨h0, w0⟩ := Nat.mul_ne_zero_iff.1 hne
  omega

/-- A filter that zeroes every reached position zeroes the four that a scanned coordinate reaches. -/
theorem four_zero_of_filterWrites {s t : State} {src dst h w : Nat} {fires : Nat → Prop}
    (hmid : (h + 1) / 2 < h ∧ (w + 1) / 2 < w)
    (hwrites : ∀ a, FilterWrites s src dst h w (Reached h w fires) a (t.word a)) (sy sx : Nat)
    (hy : sy ≤ (h + 1) / 2) (hx : sx ≤ (w + 1) / 2)
    (hfires : fires (((h + 1) / 2 - sy) ^ 2 + ((w + 1) / 2 - sx) ^ 2)) :
    t.word (dst + sy * w + sx) = .zero ∧ t.word (dst + (h - sy) % h * w + sx) = .zero ∧
    t.word (dst + sy * w + (w - sx) % w) = .zero ∧ t.word (dst + (h - sy) % h * w + (w - sx) % w) = .zero := by
  have zeroed : ∀ y x, y < h → x < w → (y = sy ∨ y = (h - sy) % h) → (x = sx ∨ x = (w - sx) % w) →
      t.word (dst + y * w + x) = .zero := fun y x hyh hxw hrow hcol =>
    ((hwrites _).1 y x hyh hxw rfl).1 ⟨sy, sx, hy, hx, hfires, hrow, hcol⟩
  have hmirrorY : (h - sy) % h < h := Nat.mod_lt _ (by omega)
  have hmirrorX : (w - sx) % w < w := Nat.mod_lt _ (by omega)
  exact ⟨zeroed _ _ (by omega) (by omega) (.inl rfl) (.inl rfl), zeroed _ _ hmirrorY (by omega) (.inr rfl) (.inl rfl),
    zeroed _ _ (by omega) hmirrorX (.inl rfl) (.inr rfl), zeroed _ _ hmirrorY hmirrorX (.inr rfl) (.inr rfl)⟩

/-- Settles O50: each of the four filters zeroes every position that its own rule reaches; `FHIGH` without `PM` exempts
none. -/
theorem filterSymmetry : Obligations.FilterSymmetry := by
  intro s i src dst h w t1 t2 fires hfilter hpass hne
  have hgrid : Decides (gridFailures h w ++ gridRangeFailures Config.block.dmemWords src dst h w ++
      gridOverlapFailures src dst h w) none := by
    rcases hfilter with ⟨rfl, -⟩ | ⟨rfl, -⟩ | ⟨rfl, -⟩ | ⟨rfl, -⟩ <;> exact hpass
  have hruns : RunsTo i s (FilterWrites s src dst h w (Reached h w fires)) := by
    rcases hfilter with ⟨rfl, rfl⟩ | ⟨rfl, rfl⟩ | ⟨rfl, rfl⟩ | ⟨rfl, rfl⟩
    · exact runsTo_of_filterGrid_noneExempt hpass rfl (mem_lowZero h w t1)
    · exact runsTo_of_filterGrid_noneExempt hpass rfl (mem_highZero h w t1)
    · exact runsTo_of_filterGrid_noneExempt hpass rfl (mem_passZero h w t1 t2)
    · exact runsTo_of_filterGrid_noneExempt hpass rfl (mem_stopZero h w t1 t2)
  obtain ⟨t, hexec, -, hwrites⟩ := hruns
  exact ⟨t, hexec, four_zero_of_filterWrites (mid_lt_of_passes hne hgrid) hwrites⟩

/-! ## Complements on even grids (R128) -/

theorem mirror_eq {n s : Nat} (hs : s < n) : (n - s) % n = if s = 0 then 0 else n - s := by
  split
  case isTrue h0 => rw [h0, Nat.sub_zero, Nat.mod_self]
  case isFalse h0 => exact Nat.mod_eq_of_lt (by omega)

/-- Along an even dimension each place is reached from exactly one scanned one: itself or its mirror, whichever is not
beyond the middle. -/
theorem reached_from_iff {n y s : Nat} (heven : n % 2 = 0) (hy : y < n) (hs : s ≤ (n + 1) / 2) :
    (y = s ∨ y = (n - s) % n) ↔ s = min y (n - y) := by
  rw [mirror_eq (by omega)]
  split <;> omega

/-- On an even grid, whether a position is reached is decided by the one coordinate it is reached from. -/
theorem reached_iff_of_even {h w y x : Nat} (fires : Nat → Prop) (hh : h % 2 = 0) (hw : w % 2 = 0) (hy : y < h)
    (hx : x < w) : Reached h w fires y x ↔
      fires (((h + 1) / 2 - min y (h - y)) ^ 2 + ((w + 1) / 2 - min x (w - x)) ^ 2) := by
  constructor
  · rintro ⟨sy, sx, hsy, hsx, hfires, hrow, hcol⟩
    rwa [(reached_from_iff hh hy hsy).1 hrow, (reached_from_iff hw hx hsx).1 hcol] at hfires
  · intro hfires
    have hsy : min y (h - y) ≤ (h + 1) / 2 := by omega
    have hsx : min x (w - x) ≤ (w + 1) / 2 := by omega
    exact ⟨_, _, hsy, hsx, hfires, (reached_from_iff hh hy hsy).2 rfl, (reached_from_iff hw hx hsx).2 rfl⟩

/-- Settles O51: the one coordinate a position is reached from is inside the annulus or outside it. -/
theorem bandFiltersAreComplements : Obligations.BandFiltersAreComplements := by
  intro h w t1 t2 y x hh hw hy hx
  rw [mem_stopZero, mem_passZero, reached_iff_of_even _ hh hw hy hx, reached_iff_of_even _ hh hw hy hx]
  exact not_not.symm

end Sys2Proof.Machine
end
